-- ==== Sys2Proof/Word.lean ====
section
/-! DEFINITION. The word types: XLEN = 32 (00_scope.md R6), a field element and a MEM byte are 8 bits (R6, 20_memory.md R50). -/
namespace Sys2Proof

/-- A register, a command word, an operand word (00_scope.md R6: XLEN = 32). -/
abbrev Word := BitVec 32

/-- A byte of MEM; a field element (00_scope.md R6, 40_field.md R100). -/
abbrev Byte := BitVec 8

/-- `zext_32` of a byte (00_scope.md R7). -/
def Byte.toWord (b : Byte) : Word := b.setWidth 32

end Sys2Proof
end

