-- ==== Sys2Proof/Config.lean ====
section
/-! DEFINITION. The parameters 00_scope.md R6 fixes, and the free values (opaque, without a body: nothing can be proved of their values). The two OPEN parameters, MEM_SIZE and REG_BASE, are held in State (Machine/State.lean, log 2). -/
namespace Sys2Proof.Config

/-- `NMAX`: largest codeword length k+p, in blocks (00_scope.md R6). -/
abbrev nMax : Nat := 256

/-- `GF_POLY`: x⁸+x⁴+x³+x²+1, 9 bits (00_scope.md R6, 40_field.md R101). -/
def gfPoly : BitVec 9 := 0x11D

/-- `NARG`: the number of argument registers (00_scope.md R6). -/
abbrev nArg : Nat := 8

/-- `TBL_ENTRY`: bytes per coefficient in an encoding table (00_scope.md R6). -/
abbrev tblEntry : Nat := 32

/-- `DESC_SIZE`: bytes per block descriptor (00_scope.md R6). -/
abbrev descSize : Nat := 8

/-- `ID_VALUE`: "GF28" (00_scope.md R6, 10_state.md R22). -/
def idValue : Word := 0x47463238

/-- Bytes of the register block: 16 words (10_state.md R20). -/
abbrev regBlockSize : Nat := 0x40

/-- FREE VALUE. The n-th byte draw of a run (00_scope.md R14 "Draw": a model must admit every value). Log 3. -/
opaque drawByte : Nat → Byte

/-- FREE VALUE. The n-th draw from a set of completion codes, as an index into the list of the codes,
taken modulo its length (70_reset_and_hazards.md R205). Log 3. -/
opaque drawIndex : Nat → Nat

/-- FREE VALUE. What the inverse of 0 would be: "ginv(0) has no value" (40_field.md R104). No command
applies the inverse to 0. Log 11. -/
opaque inverseOfZero : Byte

/-- FREE VALUE. What a quotient by 0 would be, as a function of the dividend: "gdiv(a, 0) has no value" (40_field.md
R105). No command divides by 0. Log 11. -/
opaque quotientByZero : Byte → Byte

end Sys2Proof.Config
end

