-- ==== Sys2Proof/Syntax.lean ====
section
/-! DEFINITION. The eight commands (30_encoding.md R84), the HOST's operations (R93) and the pseudo-operations (R95). -/
namespace Sys2Proof

/-- The M bit of GENM: 0 = Cauchy, 1 = Vandermonde (30_encoding.md R80, R82). -/
inductive GenMode where
  | cauchy
  | vandermonde
  deriving DecidableEq, Repr

/-- The commands, one constructor per row of spec/opcode_table.json. Operands are not in the command
word: they are in SNAP.ARG (30_encoding.md R80, R85). -/
inductive Instr where
  /-- 0x01, field multiply (40_field.md R107). -/
  | gfmul
  /-- 0x02, field divide (40_field.md R108). -/
  | gfdiv
  /-- 0x03, field inverse (40_field.md R109). -/
  | gfinv
  /-- 0x10, generator matrix (41_matrix.md R121); `GENM.V` is the Vandermonde mode. -/
  | genm (mode : GenMode)
  /-- 0x11, square matrix inversion (41_matrix.md R129). -/
  | invm
  /-- 0x12, encoding tables (42_coding.md R141). -/
  | tbls
  /-- 0x20, encode (42_coding.md R145). -/
  | enc
  /-- 0x21, recover (42_coding.md R148 to R152). -/
  | dec
  deriving DecidableEq, Repr

/-- The named registers (10_state.md R20). -/
inductive Reg where
  | id
  | ctrl
  | status
  | cmd
  | result
  | arg (i : Fin 8)
  deriving DecidableEq, Repr

/-- The offset of a register in the block (10_state.md R20). -/
def Reg.offset : Reg → Nat
  | .id => 0x00
  | .ctrl => 0x04
  | .status => 0x08
  | .cmd => 0x0C
  | .result => 0x10
  | .arg i => 0x20 + 4 * i.val

/-- The HOST's operations (30_encoding.md R93), and beside them the raw register-space accesses of any
width and HOST address that 10_state.md R21 speaks of. -/
inductive HostOp where
  /-- `wr <reg>, <imm32>`. -/
  | wr (reg : Reg) (imm : Word)
  /-- `rd <reg>`. -/
  | rd (reg : Reg)
  /-- `mw <addr>, <b0>, <b1>, …`: one step per byte. -/
  | mw (addr : Nat) (bytes : List Byte)
  /-- `mr <addr>, <n>`: one step per byte. -/
  | mr (addr : Nat) (count : Nat)
  /-- `bbusy <label>`. -/
  | bbusy (label : Nat)
  /-- `halt`. -/
  | halt
  /-- A write of `width` bits at a HOST address (10_state.md R20, R21). -/
  | busWr (width : Nat) (addr : Nat) (value : Word)
  /-- A read of `width` bits at a HOST address (10_state.md R20, R21). -/
  | busRd (width : Nat) (addr : Nat)
  deriving DecidableEq, Repr

/-- The pseudo-operations of 30_encoding.md R95. -/
inductive PseudoOp where
  | wait
  | gfmul (a b : Word)
  | gfdiv (a b : Word)
  | gfinv (a : Word)
  | genm (k p mat : Word)
  | genmV (k p mat : Word)
  | invm (n src dst : Word)
  | tbls (k p mat tbl : Word)
  | enc (len k p tbl cw : Word)
  | dec (len k p mat cw eras ecount : Word)
  | status
  deriving DecidableEq, Repr

end Sys2Proof
end

