-- ==== Sys2Proof/WellFormed.lean ====
section
/-! DEFINITION. Well-formedness of commands and of host programs. -/
namespace Sys2Proof

/-- Every term of `Instr` is a command the encoding admits: M exists on GENM alone and RSV not at all, so
there is no ill-formed command to refuse (30_encoding.md R82, R83, R84). -/
def Instr.wellFormed : Instr → Bool
  | .gfmul => true
  | .gfdiv => true
  | .gfinv => true
  | .genm _ => true
  | .invm => true
  | .tbls => true
  | .enc => true
  | .dec => true

/-- The checks on one host operation of a program of `len` operations: `mw` lists at least one byte and
`mr` reads at least one (30_encoding.md R93); their bytes have 32-bit addresses (20_memory.md R50); a label
names an index of the program (R93); a raw access is 32 bits wide (10_state.md R21). -/
def HostOp.wellFormed (len : Nat) : HostOp → Bool
  | .wr _ _ => true
  | .rd _ => true
  | .mw addr bytes => !bytes.isEmpty && decide (addr + bytes.length ≤ 2 ^ 32)
  | .mr addr count => count != 0 && decide (addr + count ≤ 2 ^ 32)
  | .bbusy label => decide (label < len)
  | .halt => true
  | .busWr width _ _ => width == 32
  | .busRd width _ => width == 32

/-- A host program is well formed when each of its operations is. -/
def hostProgramWellFormed (prog : List HostOp) : Bool :=
  prog.all (HostOp.wellFormed prog.length)

end Sys2Proof
end

