-- ==== Sys2Proof/Decode.lean ====
section
/-! DEFINITION. Decoding of a command word, total and by name (30_encoding.md R80 to R91), the encoder, and the opcode map as match and mask pairs (R84). -/
namespace Sys2Proof

/-- Why a command word is illegal (30_encoding.md R89). Every one of them completes with
IllegalCommand, code 4 (60_exceptions.md R174). -/
inductive IllegalWord where
  /-- RSV = w[31:9] ≠ 0 (30_encoding.md R83). -/
  | reservedBits
  /-- M = 1 with an OP other than GENM's (30_encoding.md R82). -/
  | modeBit
  /-- OP is not one of the eight values (30_encoding.md R81). -/
  | undefinedOp
  deriving DecidableEq, Repr

/-- What a word decodes to: `Decode(w) -> Command | Illegal` (30_encoding.md R90). -/
inductive Decoded where
  | command (i : Instr)
  | illegal (why : IllegalWord)
  deriving DecidableEq, Repr

/-- OP = w[7:0] (30_encoding.md R80). -/
def opField (w : Word) : Byte := w.extractLsb' 0 8

/-- M = w[8] (30_encoding.md R80). -/
def modeBit (w : Word) : Bool := w.getLsbD 8

/-- RSV = w[31:9] (30_encoding.md R80). -/
def rsvField (w : Word) : BitVec 23 := w.extractLsb' 9 23

/-- The mode an M bit selects (30_encoding.md R82). -/
def GenMode.ofBit (m : Bool) : GenMode := if m then .vandermonde else .cauchy

/-- The M bit of a mode (30_encoding.md R82). -/
def GenMode.bit : GenMode → Bool
  | .cauchy => false
  | .vandermonde => true

/-- The command an OP value selects, with the M bit where the command has one (30_encoding.md R84). -/
def commandOfOp (op : Byte) (mode : GenMode) : Option Instr :=
  if op = 0x01 then some .gfmul
  else if op = 0x02 then some .gfdiv
  else if op = 0x03 then some .gfinv
  else if op = 0x10 then some (.genm mode)
  else if op = 0x11 then some .invm
  else if op = 0x12 then some .tbls
  else if op = 0x20 then some .enc
  else if op = 0x21 then some .dec
  else none

/-- `Decode(w)` (30_encoding.md R89, R90): it depends on the word alone (R91). -/
def decode (w : Word) : Decoded :=
  if rsvField w ≠ 0 then .illegal .reservedBits
  else
    match commandOfOp (opField w) (GenMode.ofBit (modeBit w)) with
    | none => .illegal .undefinedOp
    | some i => if modeBit w = true ∧ opField w ≠ 0x10 then .illegal .modeBit else .command i

/-- The OP value of a command (30_encoding.md R84). -/
def Instr.op : Instr → Byte
  | .gfmul => 0x01
  | .gfdiv => 0x02
  | .gfinv => 0x03
  | .genm _ => 0x10
  | .invm => 0x11
  | .tbls => 0x12
  | .enc => 0x20
  | .dec => 0x21

/-- The M bit of a command (30_encoding.md R82: 0 for every command but GENM.V). -/
def Instr.m : Instr → Bool
  | .genm mode => mode.bit
  | .gfmul => false
  | .gfdiv => false
  | .gfinv => false
  | .invm => false
  | .tbls => false
  | .enc => false
  | .dec => false

/-- The command word: RSV = 0, then M, then OP (30_encoding.md R80). -/
def encode (i : Instr) : Word :=
  ((0 : BitVec 23) ++ BitVec.ofBool i.m ++ i.op : BitVec 32)

/-- A row of the opcode map, as a match and mask pair (30_encoding.md R84). -/
structure OpcodeRow where
  mnemonic : String
  pattern : Word
  mask : Word
  deriving DecidableEq, Repr

/-- The row's mask picks out its match value in the word (30_encoding.md R84). -/
def OpcodeRow.selects (r : OpcodeRow) (w : Word) : Bool := (w &&& r.mask) == r.pattern

/-- The opcode map of 30_encoding.md R84. -/
def opcodeMap : List OpcodeRow :=
  [⟨"GFMUL", 0x00000001, 0xFFFFFFFF⟩, ⟨"GFDIV", 0x00000002, 0xFFFFFFFF⟩,
   ⟨"GFINV", 0x00000003, 0xFFFFFFFF⟩, ⟨"GENM", 0x00000010, 0xFFFFFEFF⟩,
   ⟨"INVM", 0x00000011, 0xFFFFFFFF⟩, ⟨"TBLS", 0x00000012, 0xFFFFFFFF⟩,
   ⟨"ENC", 0x00000020, 0xFFFFFFFF⟩, ⟨"DEC", 0x00000021, 0xFFFFFFFF⟩]

/-- The mnemonic of a command's row (30_encoding.md R84). -/
def Instr.mnemonic : Instr → String
  | .gfmul => "GFMUL"
  | .gfdiv => "GFDIV"
  | .gfinv => "GFINV"
  | .genm _ => "GENM"
  | .invm => "INVM"
  | .tbls => "TBLS"
  | .enc => "ENC"
  | .dec => "DEC"

/-- The command a decoded word is, if it is one. -/
def Decoded.command? : Decoded → Option Instr
  | .command i => some i
  | .illegal _ => none

/-- The decoder on a word given as its number of bits and its value; a command is one 32-bit word
(30_encoding.md R80), so bits above `nbits` are 0 and a value that needs more than 32 bits is no command. -/
def decodeTableWord (nbits w : Nat) : Option Instr :=
  if w % 2 ^ nbits < 2 ^ 32 then (decode (BitVec.ofNat 32 (w % 2 ^ nbits))).command? else none

end Sys2Proof
end

