-- ==== Sys2Proof/Machine/State.lean ====
section
/-! DEFINITION. The machine's state (10_state.md, 20_memory.md R50, 30_encoding.md R93 to R96), its value at reset, and the reasons a step can stop. -/
namespace Sys2Proof.Machine

/-- Why a step stops with a fault. -/
inductive Fault where
  /-- Raised by a HOST `mw` or `mr` byte and by a platform write at an address at or above MEM_SIZE: MEM has
  no such byte (20_memory.md R50). Safe: the model stops where the platform might go on. Log 8. -/
  | addressOutsideMem
  deriving DecidableEq, Repr

/-- Why a step is refused. -/
inductive Refusal where
  /-- An instruction with no meaning yet (no arm of `exec` answers it). Safe. -/
  | notModelled (mnemonic : String)
  /-- Raised by a HOST access to the register block that is not 32 bits wide, or not at a multiple of 4:
  "The unit gives no meaning to any other access ... A model refuses such an access." (10_state.md R21). Safe. Log 9. -/
  | registerAccess
  /-- Raised by a raw HOST access at an address outside REG_BASE .. REG_BASE+0x3F: it does not reach the unit,
  and what is there is the platform's (20_memory.md R51, R57). Safe. Log 9. -/
  | notRegisterSpace
  deriving DecidableEq, Repr

/-- The completion codes of STATUS.ERR (60_exceptions.md R170). The values 5 to 15 are never produced. -/
inductive ErrCode where
  | success
  | invalidParameters
  | unrecoverableLoss
  | singularSubmatrix
  | illegalCommand
  deriving DecidableEq, Repr

/-- A region: a base address and a byte count, both unbounded (20_memory.md R58). -/
structure Region where
  base : Nat
  size : Nat
  deriving DecidableEq, Repr

/-- The footprint of an accepted command: FP.C, FP.R and FP.W, each the set of the bytes of its regions
(20_memory.md R59). -/
structure Footprint where
  ctrl : List Region
  read : List Region
  write : List Region
  deriving DecidableEq, Repr

/-- The empty footprint (10_state.md R37). -/
def Footprint.empty : Footprint := ⟨[], [], []⟩

/-- TAINT: NONE < DATA < WILD (10_state.md R31). -/
inductive Taint where
  | none
  | data
  | wild
  deriving DecidableEq, Repr

/-- SNAP: the command word and the operands latched at acceptance (10_state.md R30). -/
structure Snapshot where
  cmd : Word
  args : Vector Word 8
  deriving DecidableEq, Repr

/-- MEM as a list of (address, byte), addresses rising, no entry equal to what an unlisted address reads as. -/
abbrev Memory := List Host.Cell

/-- The OPEN parameters (00_scope.md R6); no step changes them. Log 2. -/
structure Params where
  /-- MEM_SIZE, 1 ≤ MEM_SIZE ≤ 2³² (20_memory.md R50). -/
  memSize : Nat
  /-- REG_BASE: the HOST address of register offset 0x00 (10_state.md R20). -/
  regBase : Nat
  deriving DecidableEq, Repr

/-- One value of the host trace: an `rd` value or an `mr` byte (30_encoding.md R93, 70_reset_and_hazards.md R214). -/
inductive TraceItem where
  | word (w : Word)
  | byte (b : Byte)
  deriving DecidableEq, Repr

/-- Who moves in a step: the HOST, the UNIT (00_scope.md R5), or the platform, which may assert `rst`
(70_reset_and_hazards.md R200) or let another writer store a byte in MEM (20_memory.md R71). Log 1, log 17. -/
inductive Turn where
  | host
  | unit
  | powerOn
  | platformWrite (addr : Nat) (value : Byte)
  deriving DecidableEq, Repr

/-- The whole machine. -/
structure State where
  /-- MEM_SIZE and REG_BASE. -/
  params : Params
  /-- CTRL.IE (10_state.md R23). -/
  ie : Bool
  /-- STATUS.BUSY (10_state.md R24, R31). -/
  busy : Bool
  /-- STATUS.DONE (10_state.md R24). -/
  done : Bool
  /-- STATUS.CMDERR (10_state.md R24). -/
  cmderr : Bool
  /-- STATUS.ERR (10_state.md R24, R25). -/
  err : ErrCode
  /-- CMD_LAST (10_state.md R26). -/
  cmdLast : Word
  /-- RESULT[7:0], the field RES; RESULT[31:8] reads as 0 (10_state.md R27). -/
  res : Byte
  /-- ARG0..ARG7 (10_state.md R28). -/
  args : Vector Word 8
  /-- SNAP (10_state.md R30). -/
  snap : Snapshot
  /-- FP (10_state.md R31). -/
  fp : Footprint
  /-- TAINT (10_state.md R31). -/
  taint : Taint
  /-- MEM (20_memory.md R50). -/
  mem : Memory
  /-- The host program (30_encoding.md R93). -/
  prog : List HostOp
  /-- hpc (30_encoding.md R96). -/
  hpc : Nat
  /-- How many bytes of the `mw` or `mr` at hpc are done (30_encoding.md R93: one host step per byte). -/
  hbytes : Nat
  /-- The value of the last `rd` (30_encoding.md R93). -/
  last : Word
  /-- The host trace, oldest first (30_encoding.md R93). -/
  trace : List TraceItem
  /-- Whether `halt` has executed (30_encoding.md R93, 70_reset_and_hazards.md R214). -/
  halted : Bool
  /-- The MODEL's own: the turns still to be taken, an input (log 1). -/
  sched : List Turn
  /-- The MODEL's own: how many draws have been taken (log 3). -/
  draws : Nat
  deriving DecidableEq, Repr

/-- The parameters of `State.reset`: the start state of 95_test_vectors.md part 3 has MEM_SIZE = 0x1000.
DESIGN CHOICE, log 2. -/
def Params.reset : Params := { memSize := 0x1000, regBase := 0 }

/-- The state right after power-on reset, for given parameters (10_state.md R37, 70_reset_and_hazards.md R201).
SNAP and `last` are DESIGN CHOICE (log 5, log 6), and so are the model's own fields (log 1, log 3). -/
def State.resetWith (p : Params) : State where
  params := p
  ie := false
  busy := false
  done := false
  cmderr := false
  err := .success
  cmdLast := 0
  res := 0
  args := Vector.replicate 8 0
  snap := { cmd := 0, args := Vector.replicate 8 0 }
  fp := Footprint.empty
  taint := .none
  mem := []
  prog := []
  hpc := 0
  hbytes := 0
  last := 0
  trace := []
  halted := false
  sched := []
  draws := 0

/-- The state right after power-on reset. -/
def State.reset : State := State.resetWith Params.reset

end Sys2Proof.Machine
end

