-- ==== Sys2Proof/Machine/Galois.lean ====
section
/-! DEFINITION. The arithmetic of GF(2⁸) with polynomial 0x11D (40_field.md R100 to R106). Field addition is `^^^` (R100). -/
namespace Sys2Proof.Machine

/-- x⁸ reduced: the low eight bits of GF_POLY, 0x1D (40_field.md R101). -/
def reductionByte : Byte := 0x1D

/-- `t <- {t[6:0], 0}`, then the reduction when t[7] was 1 (40_field.md R101). -/
def xtime (t : Byte) : Byte :=
  if t.getLsbD 7 then (t <<< 1) ^^^ reductionByte else t <<< 1

/-- The loop of `gmul` over the bits listed (40_field.md R101). -/
def gmulLoop (b : Byte) : List Nat → Byte → Byte → Byte
  | [], r, _ => r
  | i :: is, r, t => gmulLoop b is (if b.getLsbD i then r ^^^ t else r) (xtime t)

/-- `gmul(a, b)` (40_field.md R101). -/
def gmul (a b : Byte) : Byte := gmulLoop b [0, 1, 2, 3, 4, 5, 6, 7] 0 a

/-- `gpow(x, n)` (40_field.md R106). -/
def gpow (x : Byte) : Nat → Byte
  | 0 => 0x01
  | n + 1 => gmul (gpow x n) x

/-- `gexp(i)`, the powers of the generator 0x02 (40_field.md R103). -/
def gexp (i : Nat) : Byte := gpow 0x02 i

/-- `glog(a)`: the i in 0 .. 254 with gexp(i) = a, for a ≠ 0 (40_field.md R103); no such i for 0. -/
def glog (a : Byte) : Option Nat := (List.range 255).find? fun i => gexp i = a

/-- a²⁵⁴ by squaring: the inverse of a nonzero a, since 0x02 generates the group of order 255 (40_field.md R103). -/
def gpow254 (a : Byte) : Byte :=
  let a2 := gmul a a
  let a4 := gmul a2 a2
  let a8 := gmul a4 a4
  let a16 := gmul a8 a8
  let a32 := gmul a16 a16
  let a64 := gmul a32 a32
  let a128 := gmul a64 a64
  gmul a128 (gmul a64 (gmul a32 (gmul a16 (gmul a8 (gmul a4 a2)))))

/-- `ginv(a)`: for a ≠ 0 the x with gmul(a, x) = 1 (40_field.md R104; obligation InverseIsTheUniqueSolution). "ginv(0) has no
value": an opaque constant, reached by no command (log 11). -/
def ginv (a : Byte) : Byte := if a = 0 then Config.inverseOfZero else gpow254 a

/-- `gdiv(a, b)`: for b ≠ 0, gmul(a, ginv(b)) (40_field.md R105). "gdiv(a, 0) has no value": an opaque constant of Config applied to a,
reached by no command (log 11). -/
def gdiv (a b : Byte) : Byte := if b = 0 then Config.quotientByZero a else gmul a (ginv b)

/-- `Σ⊕_{i in 0..n-1} f i`: the XOR, 0 when n = 0 (00_scope.md R12). -/
def xorSum (f : Nat → Byte) : Nat → Byte
  | 0 => 0
  | n + 1 => xorSum f n ^^^ f n

end Sys2Proof.Machine
end

