-- ==== Sys2Proof/Machine/Ops.lean ====
section
/-! DEFINITION. The named operations over MEM, the footprint and the registers: reads and writes of MEM (00_scope.md R10), regions (20_memory.md R58), races (R69), draws, completion (60_exceptions.md R178, 70_reset_and_hazards.md R205) and the resets (R201, R203). -/
namespace Sys2Proof.Machine

/-! ### MEM -/

/-- What an address that MEM does not list reads as. The spec gives MEM no reset contents (20_memory.md R57).
DESIGN CHOICE, log 4. -/
def Memory.unlisted : Byte := 0

/-- The byte at an address (20_memory.md R56: "A read returns the last byte written"). -/
def Memory.read : Memory → Nat → Byte
  | [], _ => Memory.unlisted
  | (x, b) :: m, a => if a = x then b else Memory.read m a

/-- Put a byte at the head of a list whose addresses all lie above, if it is not what the address reads as anyway. -/
def Memory.put (a : Nat) (b : Byte) (m : Memory) : Memory :=
  if b = Memory.unlisted then m else (a, b) :: m

/-- Write one byte, keeping the canonical form (20_memory.md R55). -/
def Memory.write : Memory → Nat → Byte → Memory
  | [], a, b => Memory.put a b []
  | (x, c) :: m, a, b =>
    if a < x then Memory.put a b ((x, c) :: m)
    else if a = x then Memory.put a b m
    else (x, c) :: Memory.write m a b

/-- Every listed address is at least `lo`, the addresses rise, and no listed byte is the unlisted one. -/
def Memory.wfFrom : Nat → Memory → Bool
  | _, [] => true
  | lo, (x, b) :: m => decide (lo ≤ x) && b != Memory.unlisted && Memory.wfFrom (x + 1) m

/-- The canonical form: addresses strictly rising and no entry equal to what an unlisted address reads as. -/
def Memory.wf (m : Memory) : Bool := Memory.wfFrom 0 m

/-- Every listed address is an address of MEM (20_memory.md R50). -/
def Memory.within (memSize : Nat) (m : Memory) : Bool := m.all fun cell => decide (cell.1 < memSize)

/-- `MemRead(addr, n)`: n bytes as an unsigned number, little-endian (00_scope.md R10, 20_memory.md R53). -/
def memRead (m : Memory) (a : Nat) : Nat → Nat
  | 0 => 0
  | n + 1 => (m.read a).toNat + 256 * memRead m (a + 1) n

/-- `MemWrite(addr, n, v)`: the n byte writes, little-endian (00_scope.md R10). -/
def memWrite (a : Nat) : Nat → Nat → List (Nat × Byte)
  | 0, _ => []
  | n + 1, v => (a, BitVec.ofNat 8 v) :: memWrite (a + 1) n (v / 256)

/-- `Mat(base, cols, r, c)` (00_scope.md R10, 20_memory.md R61). -/
def matRead (m : Memory) (base cols r c : Nat) : Byte := m.read (base + r * cols + c)

/-- Apply a list of byte writes in order (70_reset_and_hazards.md R205). -/
def Memory.apply (m : Memory) : List (Nat × Byte) → Memory
  | [] => m
  | (a, b) :: ws => Memory.apply (m.write a b) ws

/-- A draw at each listed address, starting from draw number `n`. -/
def Memory.scramble (m : Memory) (n : Nat) : List Nat → Memory
  | [] => m
  | a :: as => Memory.scramble (m.write a (Config.drawByte n)) (n + 1) as

/-! ### Regions and footprints -/

/-- `InRange(a, size)` on unbounded integers (20_memory.md R58). -/
def inRange (memSize a size : Nat) : Bool := size == 0 || decide (a + size ≤ memSize)

/-- The byte addresses of a region (20_memory.md R58). -/
def Region.addresses (r : Region) : List Nat := List.range' r.base r.size

/-- The region names the address. -/
def Region.contains (r : Region) (a : Nat) : Bool := decide (r.base ≤ a) && decide (a < r.base + r.size)

/-- The two regions share a byte. -/
def Region.overlaps (r q : Region) : Bool :=
  decide (max r.base q.base < min (r.base + r.size) (q.base + q.size))

/-- A list of regions as the set of their bytes. -/
def regionsContain (rs : List Region) (a : Nat) : Bool := rs.any fun r => r.contains a

/-- The address is in FP.C. -/
def Footprint.inCtrl (fp : Footprint) (a : Nat) : Bool := regionsContain fp.ctrl a

/-- The address is in FP.R or FP.C, the read set (20_memory.md R59). -/
def Footprint.inReadSet (fp : Footprint) (a : Nat) : Bool :=
  regionsContain fp.ctrl a || regionsContain fp.read a

/-- The address is in FP.W. -/
def Footprint.inWrite (fp : Footprint) (a : Nat) : Bool := regionsContain fp.write a

/-- Two regions at different places of the list share a byte. -/
def regionsOverlap : List Region → Bool
  | [] => false
  | r :: rs => rs.any r.overlaps || regionsOverlap rs

/-- `Aliases(FP)`: FP.W overlaps FP.C ∪ FP.R, or two write regions overlap each other (20_memory.md R66). -/
def Footprint.aliases (fp : Footprint) : Bool :=
  fp.write.any (fun w => fp.ctrl.any w.overlaps || fp.read.any w.overlaps) || regionsOverlap fp.write

/-- The bytes of FP.W, region by region. -/
def Footprint.writeAddresses (fp : Footprint) : List Nat := fp.write.flatMap Region.addresses

/-! ### Draws -/

/-- Every byte at the listed addresses becomes a draw (70_reset_and_hazards.md R203, R205: "Each draw is free and
independent"). Log 3. -/
def drawBytes (addrs : List Nat) (s : State) : State :=
  { s with mem := s.mem.scramble s.draws addrs, draws := s.draws + addrs.length }

/-- Every byte of MEM becomes a draw (70_reset_and_hazards.md R203, R205). -/
def drawAllMem (s : State) : State := drawBytes (List.range s.params.memSize) s

/-- Every byte of FP.W becomes a draw (20_memory.md R66, 70_reset_and_hazards.md R203, R205). -/
def drawWriteSet (s : State) : State := drawBytes s.fp.writeAddresses s

/-- STATUS.ERR becomes a draw from the codes listed (70_reset_and_hazards.md R205). -/
def drawErr (codes : List ErrCode) (s : State) : State :=
  { s with
    err := codes.getD (Config.drawIndex s.draws % codes.length) .success
    draws := s.draws + 1 }

/-! ### Completion, the unit's form of taking an exception (60_exceptions.md R178) -/

/-- What `Exec(SNAP, MEM)` yields: a code, a list of byte writes and, for a successful scalar command, a result
byte (70_reset_and_hazards.md R205). -/
structure Effect where
  code : ErrCode
  writes : List (Nat × Byte)
  result : Option Byte
  deriving DecidableEq, Repr

/-- `raise E`: no write, RESULT unchanged (00_scope.md R11, 60_exceptions.md R176). -/
def Effect.raise (e : ErrCode) : Effect := { code := e, writes := [], result := none }

/-- `complete` after the listed writes (00_scope.md R11). -/
def Effect.wrote (ws : List (Nat × Byte)) : Effect := { code := .success, writes := ws, result := none }

/-- `complete` after `RESULT <- zext_32(v)` (40_field.md R107 to R109). -/
def Effect.scalar (v : Byte) : Effect := { code := .success, writes := [], result := some v }

/-- The branch of Complete without a race: the writes in order, the draws of an aliasing command that
succeeds, RESULT, the code (70_reset_and_hazards.md R205, 20_memory.md R66). -/
def settleClean (e : Effect) (s : State) : State :=
  let written : State := { s with mem := s.mem.apply e.writes, res := e.result.getD s.res, err := e.code }
  if e.code = .success ∧ s.fp.aliases = true then drawWriteSet written else written

/-- STATUS.BUSY <- 0; STATUS.DONE <- 1; FP <- empty; TAINT <- NONE (60_exceptions.md R178, 70_reset_and_hazards.md R205). -/
def retire (s : State) : State :=
  { s with busy := false, done := true, fp := Footprint.empty, taint := .none }

/-- The Complete step, given the codes the command can produce and what Exec yields (70_reset_and_hazards.md
R205). Under WILD and DATA the code is drawn before the bytes. -/
def complete (codes : List ErrCode) (e : Effect) (s : State) : State :=
  match s.taint with
  | .wild => retire (drawAllMem (drawErr codes s))
  | .data => retire (drawWriteSet (drawErr codes s))
  | .none => retire (settleClean e s)

/-- The Complete step of an illegal word: code 4, no writes (60_exceptions.md R174, 70_reset_and_hazards.md R205). -/
def completeIllegal (s : State) : State :=
  complete [.illegalCommand] (Effect.raise .illegalCommand) s

/-! ### Races and MEM accesses from outside the unit (20_memory.md R69) -/

/-- TAINT after a write of a byte by another agent while a command is in flight (20_memory.md R69). -/
def raceTaint (fp : Footprint) (a : Nat) (t : Taint) : Taint :=
  if fp.inCtrl a then .wild
  else if regionsContain fp.read a || fp.inWrite a then
    match t with
    | .wild => .wild
    | .data => .data
    | .none => .data
  else t

/-- A byte written to MEM by the HOST or the platform. The byte lands, and if a command is in flight the
write may race with it (20_memory.md R69; log 15). -/
def storeByte (a : Nat) (b : Byte) (s : State) : Host.Outcome State Fault Refusal :=
  if a < s.params.memSize then
    .next { s with
      mem := s.mem.write a b
      taint := if s.busy then raceTaint s.fp a s.taint else s.taint }
  else .fault .addressOutsideMem

/-- The value a HOST read of a byte gives, and the state after: a byte of FP.W during BUSY is a draw, any
other byte is MEM's (20_memory.md R69). -/
def loadByte (a : Nat) (s : State) : Byte × State :=
  if s.busy = true ∧ s.fp.inWrite a = true then (Config.drawByte s.draws, { s with draws := s.draws + 1 })
  else (s.mem.read a, s)

/-! ### Resets -/

/-- Every register and all hidden state at its reset value (10_state.md R37, 70_reset_and_hazards.md R200); MEM and the
HOST are not the unit's registers. SNAP: log 5. -/
def resetUnit (s : State) : State :=
  { s with
    ie := false
    busy := false
    done := false
    cmderr := false
    err := .success
    cmdLast := 0
    res := 0
    args := Vector.replicate 8 0
    snap := { cmd := 0, args := Vector.replicate 8 0 }
    fp := Footprint.empty
    taint := .none }

/-- The power-on reset `rst`: MEM is unchanged (70_reset_and_hazards.md R200 to R202). Log 16. -/
def powerOnReset (s : State) : State := resetUnit s

/-- The draws of a command aborted by a soft reset (70_reset_and_hazards.md R203). -/
def abortDraws (s : State) : State :=
  if s.busy then
    match s.taint with
    | .wild => drawAllMem s
    | .data => drawWriteSet s
    | .none => drawWriteSet s
  else s

/-- The soft reset (70_reset_and_hazards.md R203). -/
def softReset (s : State) : State := resetUnit (abortDraws s)

end Sys2Proof.Machine
end

