-- ==== Sys2Proof/Machine/Flags.lean ====
section
/-! DEFINITION. STATUS and CTRL as words, the write-1-to-clear rule, and the interrupt level (10_state.md R23, R24, R33; 60_exceptions.md R170, R179). -/
namespace Sys2Proof.Machine

/-- The number of a completion code (60_exceptions.md R170). -/
def ErrCode.bits : ErrCode → BitVec 4
  | .success => 0
  | .invalidParameters => 1
  | .unrecoverableLoss => 2
  | .singularSubmatrix => 3
  | .illegalCommand => 4

/-- STATUS as the HOST reads it: BUSY at 0, DONE at 1, CMDERR at 2, ERR at 11:8, every other bit 0 (10_state.md R24). -/
def State.statusWord (s : State) : Word :=
  ((0 : BitVec 20) ++ s.err.bits ++ (0 : BitVec 5) ++ BitVec.ofBool s.cmderr ++ BitVec.ofBool s.done ++
    BitVec.ofBool s.busy : BitVec 32)

/-- CTRL as the HOST reads it: IE at 0; SRST and the reserved bits read 0 (10_state.md R23). -/
def State.ctrlWord (s : State) : Word := ((0 : BitVec 31) ++ BitVec.ofBool s.ie : BitVec 32)

/-- RESULT as the HOST reads it: RES at 7:0, the rest 0 (10_state.md R27). -/
def State.resultWord (s : State) : Word := s.res.toWord

/-- A write of `v` to STATUS: DONE and CMDERR are write-1-to-clear, every other bit of v is ignored (10_state.md R24). -/
def writeStatus (v : Word) (s : State) : State :=
  { s with
    done := s.done && !v.getLsbD 1
    cmderr := s.cmderr && !v.getLsbD 2 }

/-- A write of `v` to CTRL: IE <- v[0], then the soft reset if v[1] = 1 (10_state.md R23). -/
def writeCtrl (v : Word) (s : State) : State :=
  let enabled : State := { s with ie := v.getLsbD 0 }
  if v.getLsbD 1 then softReset enabled else enabled

/-- irq = CTRL.IE AND STATUS.DONE, a level with no state of its own (10_state.md R33, 60_exceptions.md R179). -/
def State.irq (s : State) : Bool := s.ie && s.done

end Sys2Proof.Machine
end

