-- ==== Sys2Proof/Machine/Operands.lean ====
section
/-! DEFINITION. The operands of the commands (30_encoding.md R85 to R88) and the checks they share: field elements, ValidKP, descriptors, erasure lists, survivors. -/
namespace Sys2Proof.Machine

/-- SNAP.ARG[i]: a command's semantics read SNAP only (10_state.md R30). -/
def State.operand (s : State) (i : Fin 8) : Word := s.snap.args[i]

/-- An operand word as an unsigned integer: K, P, N, LEN, ECOUNT and the addresses are the whole word, unscaled
(30_encoding.md R87, R88). A command reads them from SNAP.ARG (10_state.md R30). -/
def argNat (args : Vector Word 8) (i : Fin 8) : Nat := (args[i]).toNat

/-- Bits [31:8] of SNAP.ARG[i] are 0 (30_encoding.md R86). -/
def State.isFieldOperand (s : State) (i : Fin 8) : Bool := (s.operand i).extractLsb' 8 24 == 0

/-- The field-element operand SNAP.ARG[i][7:0] (30_encoding.md R86). -/
def State.fieldOperand (s : State) (i : Fin 8) : Byte := (s.operand i).extractLsb' 0 8

/-- `ValidKP(K, P)` (41_matrix.md R120). -/
def validKP (k p : Nat) : Bool := decide (1 ≤ k) && decide (k + p ≤ Config.nMax)

/-- The ADDR field of descriptor i of the table at cw (20_memory.md R62, R63). -/
def descAddr (m : Memory) (cw i : Nat) : Nat := memRead m (cw + Config.descSize * i) 4

/-- The BLEN field of descriptor i of the table at cw (20_memory.md R62, R63). -/
def descLen (m : Memory) (cw i : Nat) : Nat := memRead m (cw + Config.descSize * i + 4) 4

/-- `CheckDescriptors(CW, n, LEN)` passes: the table is in range, and each of the n descriptors has BLEN = LEN and its
block in range (42_coding.md R144). Every failure raises the one error InvalidParameters. -/
def descriptorsOk (memSize : Nat) (m : Memory) (cw n len : Nat) : Bool :=
  inRange memSize cw (Config.descSize * n) &&
    (List.range n).all fun i =>
      descLen m cw i == len && inRange memSize (descAddr m cw i) len

/-- The erasure list: ECOUNT bytes at ERAS, as block indices (20_memory.md R64). -/
def erasureList (m : Memory) (eras ecount : Nat) : List Nat :=
  (List.range ecount).map fun q => (m.read (eras + q)).toNat

/-- The survivors: the (at most) k smallest indices of {0 .. n-1} that are not erased, ascending (42_coding.md R149). R149
has K of them, for ECOUNT ≤ P; fewer only in a footprint with ECOUNT > P (DESIGN CHOICE, log 14). -/
def survivors (n k : Nat) (erased : List Nat) : List Nat :=
  ((List.range n).filter fun i => !erased.contains i).take k

end Sys2Proof.Machine
end

