-- ==== Sys2Proof/Machine/Footprint.lean ====
section
/-! DEFINITION. The footprint of a command (20_memory.md R59) and the Accept step (70_reset_and_hazards.md R204). -/
namespace Sys2Proof.Machine

/-- The region, left out when it fails InRange (20_memory.md R59). -/
def regionIfIn (memSize a size : Nat) : List Region :=
  if inRange memSize a size then [⟨a, size⟩] else []

/-- K + P ≤ 256: a larger operand forms no region (20_memory.md R59). Log 14. -/
def formable (k p : Nat) : Bool := decide (k + p ≤ Config.nMax)

/-- `blk(i)` for each index listed: the region (ADDR_i, LEN); left out when the descriptor table of n entries fails
InRange, when i names no descriptor of it, or when the block fails InRange (20_memory.md R59). Log 14. -/
def blockRegions (memSize : Nat) (m : Memory) (cw n len : Nat) (is : List Nat) : List Region :=
  if inRange memSize cw (Config.descSize * n) then
    (is.filter fun i => decide (i < n)).flatMap fun i => regionIfIn memSize (descAddr m cw i) len
  else []

/-- The footprint of GENM (20_memory.md R59). -/
def footprintGenm (memSize k p mat : Nat) : Footprint :=
  if formable k p then ⟨[], [], regionIfIn memSize mat ((k + p) * k)⟩ else Footprint.empty

/-- The footprint of INVM (20_memory.md R59). -/
def footprintInvm (memSize n src dst : Nat) : Footprint :=
  if n ≤ Config.nMax then ⟨[], regionIfIn memSize src (n * n), regionIfIn memSize dst (n * n)⟩
  else Footprint.empty

/-- The footprint of TBLS (20_memory.md R59). -/
def footprintTbls (memSize k p mat tbl : Nat) : Footprint :=
  if formable k p then
    ⟨[], regionIfIn memSize (mat + k * k) (p * k), regionIfIn memSize tbl (Config.tblEntry * k * p)⟩
  else Footprint.empty

/-- The footprint of ENC (20_memory.md R59). -/
def footprintEnc (memSize : Nat) (m : Memory) (len k p tbl cw : Nat) : Footprint :=
  if formable k p then
    { ctrl := regionIfIn memSize cw (Config.descSize * (k + p))
      read := regionIfIn memSize tbl (Config.tblEntry * k * p) ++
        blockRegions memSize m cw (k + p) len (List.range k)
      write := blockRegions memSize m cw (k + p) len (List.range' k p) }
  else Footprint.empty

/-- The erased indices a footprint speaks of: the set of the list's entries, none when the list fails InRange
(20_memory.md R59). Log 14. -/
def footprintErasures (memSize : Nat) (m : Memory) (eras ecount : Nat) : List Nat :=
  if inRange memSize eras ecount then (erasureList m eras ecount).eraseDups else []

/-- The footprint of DEC (20_memory.md R59). When ECOUNT > P, R149 does not define S, since fewer than K indices may be left: S is then
the K smallest of those left, all of them when they are fewer (DESIGN CHOICE, log 14). Such a DEC raises UnrecoverableLoss. -/
def footprintDec (memSize : Nat) (m : Memory) (len k p mat cw eras ecount : Nat) : Footprint :=
  let list := regionIfIn memSize eras ecount
  if formable k p then
    let es := footprintErasures memSize m eras ecount
    { ctrl := regionIfIn memSize cw (Config.descSize * (k + p)) ++ list
      read := regionIfIn memSize mat ((k + p) * k) ++
        blockRegions memSize m cw (k + p) len (survivors (k + p) k es)
      write := blockRegions memSize m cw (k + p) len es }
  else ⟨list, [], []⟩

/-- The footprint of a command with the given operands (20_memory.md R59, 30_encoding.md R85). -/
def footprintOf (i : Instr) (memSize : Nat) (m : Memory) (args : Vector Word 8) : Footprint :=
  match i with
  | .gfmul => Footprint.empty
  | .gfdiv => Footprint.empty
  | .gfinv => Footprint.empty
  | .genm _ => footprintGenm memSize (argNat args 0) (argNat args 1) (argNat args 2)
  | .invm => footprintInvm memSize (argNat args 0) (argNat args 1) (argNat args 2)
  | .tbls => footprintTbls memSize (argNat args 0) (argNat args 1) (argNat args 2) (argNat args 3)
  | .enc => footprintEnc memSize m (argNat args 0) (argNat args 1) (argNat args 2) (argNat args 3) (argNat args 4)
  | .dec => footprintDec memSize m (argNat args 0) (argNat args 1) (argNat args 2) (argNat args 3) (argNat args 4) (argNat args 5) (argNat args 6)

/-- `Footprint(SNAP, MEM)` (70_reset_and_hazards.md R204). An illegal word "reads and writes no MEM" (30_encoding.md
R89): its footprint is empty. Log 14. -/
def footprint (memSize : Nat) (m : Memory) (snap : Snapshot) : Footprint :=
  match decode snap.cmd with
  | .command i => footprintOf i memSize m snap.args
  | .illegal _ => Footprint.empty

/-- The Accept step (70_reset_and_hazards.md R204). -/
def accept (w : Word) (s : State) : State :=
  let snap : Snapshot := { cmd := w, args := s.args }
  { s with
    snap := snap
    cmdLast := w
    busy := true
    done := false
    err := .success
    fp := footprint s.params.memSize s.mem snap
    taint := .none }

/-- A HOST write of `w` to CMD: accepted while BUSY = 0 (10_state.md R26); dropped while BUSY = 1, setting CMDERR
(60_exceptions.md R175). -/
def writeCmd (w : Word) (s : State) : State :=
  if s.busy then { s with cmderr := true } else accept w s

end Sys2Proof.Machine
end

