-- ==== Sys2Proof/Machine/Field.lean ====
section
/-! DEFINITION. GFMUL, GFDIV, GFINV (40_field.md R107 to R110). -/
namespace Sys2Proof.Machine

/-- The codes of the commands that check their parameters and have no other error (70_reset_and_hazards.md R205). -/
def codesParams : List ErrCode := [.success, .invalidParameters]

/-- The pseudocode of GFMUL (40_field.md R107). -/
def runGfmul (s : State) : Effect :=
  if s.isFieldOperand 0 && s.isFieldOperand 1 then .scalar (gmul (s.fieldOperand 0) (s.fieldOperand 1))
  else .raise .invalidParameters

/-- The pseudocode of GFDIV (40_field.md R108). -/
def runGfdiv (s : State) : Effect :=
  if s.isFieldOperand 0 && s.isFieldOperand 1 then
    if s.fieldOperand 1 = 0 then .raise .invalidParameters
    else .scalar (gdiv (s.fieldOperand 0) (s.fieldOperand 1))
  else .raise .invalidParameters

/-- The pseudocode of GFINV (40_field.md R109). -/
def runGfinv (s : State) : Effect :=
  if s.isFieldOperand 0 then
    if s.fieldOperand 0 = 0 then .raise .invalidParameters else .scalar (ginv (s.fieldOperand 0))
  else .raise .invalidParameters

/-- GFMUL (40_field.md R107). -/
def execGfmul (s : State) : Host.Outcome State Fault Refusal := .next (complete codesParams (runGfmul s) s)

/-- GFDIV (40_field.md R108). -/
def execGfdiv (s : State) : Host.Outcome State Fault Refusal := .next (complete codesParams (runGfdiv s) s)

/-- GFINV (40_field.md R109). -/
def execGfinv (s : State) : Host.Outcome State Fault Refusal := .next (complete codesParams (runGfinv s) s)

end Sys2Proof.Machine
end

