-- ==== Sys2Proof/Machine/GaussJordan.lean ====
section
/-! DEFINITION. GaussJordan(A, N) over GF(2⁸) (41_matrix.md R127). -/
namespace Sys2Proof.Machine

/-- The working store during an inversion, a list of rows. Row r is the row r of W followed by the row r of B, so that
each row operation of 41_matrix.md R127 acts on W and B alike. -/
abbrev Rows := List (List Byte)

/-- Element (r, c) of a list of rows. -/
def entry (m : Rows) (r c : Nat) : Byte := (m.getD r []).getD c 0

/-- `W <- copy of A; B <- N×N identity` (41_matrix.md R127). -/
def augmented (a : Nat → Nat → Byte) (n : Nat) : Rows :=
  (List.range n).map fun r =>
    (List.range n).map (a r) ++ (List.range n).map fun c => if r = c then 0x01 else 0x00

/-- The pivot row of column c: c itself when W[c][c] ≠ 0, else the smallest r in c+1 .. n-1 with W[r][c] ≠ 0; none
when there is no such r (41_matrix.md R127). -/
def pivotRow (m : Rows) (n c : Nat) : Option Nat :=
  if entry m c c ≠ 0 then some c
  else (List.range' (c + 1) (n - (c + 1))).find? fun r => entry m r c ≠ 0

/-- Swap rows c and r of W and of B (41_matrix.md R127). -/
def swapRows (m : Rows) (c r : Nat) : Rows := (m.set c (m.getD r [])).set r (m.getD c [])

/-- Every element of a row times t (41_matrix.md R127). -/
def scaleRow (t : Byte) (row : List Byte) : List Byte := row.map (gmul t)

/-- `row ^ gmul(f, pivot)`, element by element (41_matrix.md R127). -/
def addScaled (f : Byte) (pivot row : List Byte) : List Byte :=
  List.zipWith (fun x y => x ^^^ gmul f y) row pivot

/-- Clear column c of every row but c with the pivot row (41_matrix.md R127). -/
def clearColumn (m : Rows) (c : Nat) (pivot : List Byte) : Rows :=
  m.mapIdx fun r row =>
    if r = c then pivot
    else if row.getD c 0 ≠ 0 then addScaled (row.getD c 0) pivot row else row

/-- One column of the elimination; none when the column has no pivot (41_matrix.md R127). -/
def eliminate (n : Nat) (m : Rows) (c : Nat) : Option Rows :=
  match pivotRow m n c with
  | none => none
  | some r =>
    let swapped := if r = c then m else swapRows m c r
    let pivot := scaleRow (ginv (entry swapped c c)) (swapped.getD c [])
    some (clearColumn swapped c pivot)

/-- The columns listed, in order, until one has no pivot (41_matrix.md R127). -/
def eliminateAll (n : Nat) : List Nat → Rows → Option Rows
  | [], m => some m
  | c :: cs, m =>
    match eliminate n m c with
    | none => none
    | some m' => eliminateAll n cs m'

/-- `GaussJordan(A, N)`: the inverse, or none when A is singular (41_matrix.md R127). -/
def gaussJordan (a : Nat → Nat → Byte) (n : Nat) : Option Rows :=
  match eliminateAll n (List.range n) (augmented a n) with
  | none => none
  | some m => some (m.map (List.drop n))

end Sys2Proof.Machine
end

