-- ==== Sys2Proof/Machine/Matrix.lean ====
section
/-! DEFINITION. GENM and INVM (41_matrix.md R120 to R129). -/
namespace Sys2Proof.Machine

/-- `CauchyElem(i, j) = ginv(i[7:0] ^ j[7:0])` (41_matrix.md R123). For K = 1 only row 1 is 0x01, so R145's corner case "K = 1 with the
GENM matrix makes every coding block a copy of the data block" does not hold with M = 0 and P ≥ 2 (log 25). -/
def cauchyElem (i j : Nat) : Byte := ginv (BitVec.ofNat 8 i ^^^ BitVec.ofNat 8 j)

/-- `VandElem(K, i, j) = gpow(gpow(0x02, i - K), j)` (41_matrix.md R124). -/
def vandElem (k i j : Nat) : Byte := gpow (gpow 0x02 (i - k)) j

/-- Element (i, j) of the matrix GENM builds: the identity on top (41_matrix.md R122), the chosen construction below. -/
def genElem (mode : GenMode) (k i j : Nat) : Byte :=
  if i < k then (if i = j then 0x01 else 0x00)
  else
    match mode with
    | .cauchy => cauchyElem i j
    | .vandermonde => vandElem k i j

/-- Writes of a matrix of `rows` rows and `cols` columns at `base`, row-major (20_memory.md R61). -/
def matrixWrites (base rows cols : Nat) (elem : Nat → Nat → Byte) : List (Nat × Byte) :=
  (List.range rows).flatMap fun i => (List.range cols).map fun j => (base + i * cols + j, elem i j)

/-- The pseudocode of GENM (41_matrix.md R121). -/
def runGenm (mode : GenMode) (s : State) : Effect :=
  let k := argNat s.snap.args 0
  let p := argNat s.snap.args 1
  let mat := argNat s.snap.args 2
  if validKP k p && inRange s.params.memSize mat ((k + p) * k) then .wrote (matrixWrites mat (k + p) k (genElem mode k))
  else .raise .invalidParameters

/-- GENM and GENM.V (41_matrix.md R121). -/
def execGenm (mode : GenMode) (s : State) : Host.Outcome State Fault Refusal :=
  .next (complete codesParams (runGenm mode s) s)

/-- The codes INVM can produce (70_reset_and_hazards.md R205). -/
def codesInvm : List ErrCode := [.success, .invalidParameters, .singularSubmatrix]

/-- The pseudocode of INVM (41_matrix.md R129). -/
def runInvm (s : State) : Effect :=
  let n := argNat s.snap.args 0
  let src := argNat s.snap.args 1
  let dst := argNat s.snap.args 2
  if n = 0 ∨ Config.nMax < n then .raise .invalidParameters
  else if inRange s.params.memSize src (n * n) && inRange s.params.memSize dst (n * n) then
    match gaussJordan (matRead s.mem src n) n with
    | none => .raise .singularSubmatrix
    | some b => .wrote (matrixWrites dst n n (entry b))
  else .raise .invalidParameters

/-- INVM (41_matrix.md R129). -/
def execInvm (s : State) : Host.Outcome State Fault Refusal := .next (complete codesInvm (runInvm s) s)

end Sys2Proof.Machine
end

