-- ==== Sys2Proof/Machine/Coding.lean ====
section
/-! DEFINITION. TBLS, ENC and DEC (42_coding.md R140 to R155). -/
namespace Sys2Proof.Machine

/-! ### Encoding tables -/

/-- The writes of the entry of coefficient `c` at `base`: byte n is gmul(c, n), byte 16+n is gmul(c, n << 4)
(42_coding.md R140, R141). -/
def entryWrites (base : Nat) (c : Byte) : List (Nat × Byte) :=
  (List.range 16).flatMap fun n =>
    [(base + n, gmul c (BitVec.ofNat 8 n)), (base + 16 + n, gmul c (BitVec.ofNat 8 n <<< 4))]

/-- The address of entry e of the table set at tbl (42_coding.md R140). -/
def entryAddr (tbl e : Nat) : Nat := tbl + Config.tblEntry * e

/-- The writes of TBLS (42_coding.md R141). -/
def tableWrites (m : Memory) (k p mat tbl : Nat) : List (Nat × Byte) :=
  (List.range p).flatMap fun j =>
    (List.range k).flatMap fun i => entryWrites (entryAddr tbl (j * k + i)) (matRead m mat k (k + j) i)

/-- The pseudocode of TBLS (42_coding.md R141). -/
def runTbls (s : State) : Effect :=
  let k := argNat s.snap.args 0
  let p := argNat s.snap.args 1
  let mat := argNat s.snap.args 2
  let tbl := argNat s.snap.args 3
  if validKP k p && inRange s.params.memSize (mat + k * k) (p * k) && inRange s.params.memSize tbl (Config.tblEntry * k * p) then
    .wrote (tableWrites s.mem k p mat tbl)
  else .raise .invalidParameters

/-- TBLS (42_coding.md R141). -/
def execTbls (s : State) : Host.Outcome State Fault Refusal := .next (complete codesParams (runTbls s) s)

/-- `TLookup(TBL, e, d)`, over whatever bytes the table region holds (42_coding.md R142). -/
def tableLookup (m : Memory) (tbl e : Nat) (d : Byte) : Byte :=
  m.read (entryAddr tbl e + (d.extractLsb' 0 4).toNat) ^^^
    m.read (entryAddr tbl e + 16 + (d.extractLsb' 4 4).toNat)

/-! ### Encoder -/

/-- The byte ENC computes for offset o of coding block j: R145's pseudocode (42_coding.md), followed where R145's corner case for K = 1
says otherwise (DEDUCED, log 25). -/
def encodeByte (m : Memory) (k tbl cw j o : Nat) : Byte :=
  xorSum (fun i => tableLookup m tbl (j * k + i) (m.read (descAddr m cw i + o))) k

/-- The writes of a block of `len` bytes at `base`. -/
def blockWrites (base len : Nat) (byte : Nat → Byte) : List (Nat × Byte) :=
  (List.range len).map fun o => (base + o, byte o)

/-- The pseudocode of ENC (42_coding.md R145). -/
def runEnc (s : State) : Effect :=
  let len := argNat s.snap.args 0
  let k := argNat s.snap.args 1
  let p := argNat s.snap.args 2
  let tbl := argNat s.snap.args 3
  let cw := argNat s.snap.args 4
  if validKP k p && inRange s.params.memSize tbl (Config.tblEntry * k * p) &&
      descriptorsOk s.params.memSize s.mem cw (k + p) len then
    .wrote ((List.range p).flatMap fun j =>
      blockWrites (descAddr s.mem cw (k + j)) len (encodeByte s.mem k tbl cw j))
  else .raise .invalidParameters

/-- ENC (42_coding.md R145). -/
def execEnc (s : State) : Host.Outcome State Fault Refusal := .next (complete codesParams (runEnc s) s)

/-! ### Recovery -/

/-- The codes DEC can produce (70_reset_and_hazards.md R205). -/
def codesDec : List ErrCode := [.success, .invalidParameters, .unrecoverableLoss, .singularSubmatrix]

/-- Every erasure index is below n, and no two are equal (42_coding.md R148). -/
def erasuresOk (n : Nat) (es : List Nat) : Bool := es.all (fun e => decide (e < n)) && decide es.Nodup

/-- The submatrix of the survivors' rows (42_coding.md R150). -/
def submatrix (m : Memory) (mat k : Nat) (surv : List Nat) (r c : Nat) : Byte :=
  matRead m mat k (surv.getD r 0) c

/-- The decoding row of erased index e, over the survivors (42_coding.md R151). -/
def decodeRow (m : Memory) (mat k : Nat) (inv : Rows) (e c : Nat) : Byte :=
  if e < k then entry inv e c
  else xorSum (fun t => gmul (matRead m mat k e t) (entry inv t c)) k

/-- The byte DEC computes for offset o of erased block e (42_coding.md R152). -/
def decodeByte (m : Memory) (mat k cw : Nat) (surv : List Nat) (inv : Rows) (e o : Nat) : Byte :=
  xorSum (fun c => gmul (decodeRow m mat k inv e c) (m.read (descAddr m cw (surv.getD c 0) + o))) k

/-- The writes of DEC, in list order (42_coding.md R152, 20_memory.md R64). -/
def decodeWrites (m : Memory) (len mat k cw : Nat) (surv : List Nat) (inv : Rows) (es : List Nat) :
    List (Nat × Byte) :=
  es.flatMap fun e => blockWrites (descAddr m cw e) len (decodeByte m mat k cw surv inv e)

/-- The pseudocode of DEC, its checks in the order of 60_exceptions.md R177 (42_coding.md R148 to R152). -/
def runDec (s : State) : Effect :=
  let len := argNat s.snap.args 0
  let k := argNat s.snap.args 1
  let p := argNat s.snap.args 2
  let mat := argNat s.snap.args 3
  let cw := argNat s.snap.args 4
  let eras := argNat s.snap.args 5
  let ecount := argNat s.snap.args 6
  if !validKP k p then .raise .invalidParameters
  else if p < ecount then .raise .unrecoverableLoss
  else if inRange s.params.memSize mat ((k + p) * k) && inRange s.params.memSize eras ecount &&
      erasuresOk (k + p) (erasureList s.mem eras ecount) &&
      descriptorsOk s.params.memSize s.mem cw (k + p) len then
    let es := erasureList s.mem eras ecount
    let surv := survivors (k + p) k es
    match gaussJordan (submatrix s.mem mat k surv) k with
    | none => .raise .singularSubmatrix
    | some inv => .wrote (decodeWrites s.mem len mat k cw surv inv es)
  else .raise .invalidParameters

/-- DEC (42_coding.md R148 to R155). -/
def execDec (s : State) : Host.Outcome State Fault Refusal := .next (complete codesDec (runDec s) s)

/-! ### All commands as one function (70_reset_and_hazards.md R205) -/

/-- `Exec(SNAP, MEM)` of a command (70_reset_and_hazards.md R205). -/
def runOf (i : Instr) (s : State) : Effect :=
  match i with
  | .gfmul => runGfmul s
  | .gfdiv => runGfdiv s
  | .gfinv => runGfinv s
  | .genm mode => runGenm mode s
  | .invm => runInvm s
  | .tbls => runTbls s
  | .enc => runEnc s
  | .dec => runDec s

/-- `Codes(op)`: the codes a command can produce (70_reset_and_hazards.md R205). -/
def codesOf : Instr → List ErrCode
  | .gfmul => codesParams
  | .gfdiv => codesParams
  | .gfinv => codesParams
  | .genm _ => codesParams
  | .invm => codesInvm
  | .tbls => codesParams
  | .enc => codesParams
  | .dec => codesDec

end Sys2Proof.Machine
end

