-- ==== Sys2Proof/Machine/Dispatch.lean ====
section
/-! DEFINITION. exec: the Complete step of each command (70_reset_and_hazards.md R205), one arm per constructor. -/
namespace Sys2Proof.Machine

def exec (i : Instr) (s : State) : Host.Outcome State Fault Refusal :=
  match i with
  | .gfmul => Sys2Proof.Machine.execGfmul s
  | .gfdiv => Sys2Proof.Machine.execGfdiv s
  | .gfinv => Sys2Proof.Machine.execGfinv s
  | .genm mode => Sys2Proof.Machine.execGenm mode s
  | .invm => Sys2Proof.Machine.execInvm s
  | .tbls => Sys2Proof.Machine.execTbls s
  | .enc => Sys2Proof.Machine.execEnc s
  | .dec => Sys2Proof.Machine.execDec s

end Sys2Proof.Machine
end

