-- ==== Sys2Proof/Machine/Registers.lean ====
section
/-! DEFINITION. The register block: reads and writes by offset (10_state.md R20 to R29), and HOST accesses by address and width (R20, R21). -/
namespace Sys2Proof.Machine

/-- The register index i when the offset is ARGi's, 0x20 + 4·i (10_state.md R20). -/
def argOfOffset (off : Nat) : Option (Fin 8) :=
  if 0x20 ≤ off ∧ off % 4 = 0 then
    if h : (off - 0x20) / 4 < 8 then some ⟨(off - 0x20) / 4, h⟩ else none
  else none

/-- A 32-bit read at an offset (10_state.md R22 to R29); an unmapped offset reads 0 (R29). -/
def readReg (off : Nat) (s : State) : Word :=
  match argOfOffset off with
  | some i => s.args[i]
  | none =>
    if off = 0x00 then Config.idValue
    else if off = 0x04 then s.ctrlWord
    else if off = 0x08 then s.statusWord
    else if off = 0x0C then s.cmdLast
    else if off = 0x10 then s.resultWord
    else 0

/-- A 32-bit write at an offset (10_state.md R22 to R29); ID, RESULT and the unmapped offsets ignore it. -/
def writeReg (off : Nat) (v : Word) (s : State) : State :=
  match argOfOffset off with
  | some i => { s with args := s.args.set i v }
  | none =>
    if off = 0x04 then writeCtrl v s
    else if off = 0x08 then writeStatus v s
    else if off = 0x0C then writeCmd v s
    else s

/-- Where a HOST access of `width` bits at HOST address `addr` lands in the register block: an offset, or the reason it
is refused (10_state.md R20, R21). Log 9. -/
def registerOffset (regBase width addr : Nat) : Except Refusal Nat :=
  if regBase ≤ addr ∧ addr < regBase + Config.regBlockSize then
    if width = 32 ∧ (addr - regBase) % 4 = 0 then .ok (addr - regBase) else .error .registerAccess
  else .error .notRegisterSpace

end Sys2Proof.Machine
end

