-- ==== Sys2Proof/Machine/HostProgram.lean ====
section
/-! DEFINITION. The HOST's steps: its program, hpc, `last` and the host trace (30_encoding.md R93, R96). -/
namespace Sys2Proof.Machine

/-- `hpc <- hpc + 1` after an operation (30_encoding.md R93). -/
def advanceHost (s : State) : State := { s with hpc := s.hpc + 1, hbytes := 0 }

/-- After one byte of an `mw` or `mr` of n bytes: the next byte, or the next operation (30_encoding.md R93). -/
def advanceByte (n : Nat) (s : State) : State :=
  if s.hbytes + 1 < n then { s with hbytes := s.hbytes + 1 } else advanceHost s

/-- Append a value to the host trace (30_encoding.md R93). -/
def record (x : TraceItem) (s : State) : State := { s with trace := s.trace ++ [x] }

/-- A register write by the HOST (30_encoding.md R93, 10_state.md R21). A raw write (`busWr`) advances hpc as `wr` does: DESIGN CHOICE, log 27. -/
def hostWrite (width addr : Nat) (v : Word) (s : State) : Host.Outcome State Fault Refusal :=
  match registerOffset s.params.regBase width addr with
  | .ok off => .next (advanceHost (writeReg off v s))
  | .error r => .refused r

/-- A register read by the HOST: the value goes to the trace and to `last` (30_encoding.md R93, 10_state.md R21). R93
says so of `rd`; that a raw read (`busRd`, which R93's table does not have) does the same is a DESIGN CHOICE, log 27. -/
def hostRead (width addr : Nat) (s : State) : Host.Outcome State Fault Refusal :=
  match registerOffset s.params.regBase width addr with
  | .ok off => .next (advanceHost (record (.word (readReg off s)) { s with last := readReg off s }))
  | .error r => .refused r

/-- One byte of `mw` (30_encoding.md R93). An `mw` of no byte only advances hpc (log 18). -/
def hostStore (addr : Nat) (bytes : List Byte) (s : State) : Host.Outcome State Fault Refusal :=
  match bytes[s.hbytes]? with
  | none => .next (advanceHost s)
  | some b =>
    match storeByte (addr + s.hbytes) b s with
    | .next t => .next (advanceByte bytes.length t)
    | .fault r => .fault r
    | .refused r => .refused r

/-- One byte of `mr` (30_encoding.md R93). An `mr` of no byte only advances hpc (log 18). -/
def hostLoad (addr count : Nat) (s : State) : Host.Outcome State Fault Refusal :=
  if s.hbytes < count then
    if addr + s.hbytes < s.params.memSize then
      .next (advanceByte count
        (record (.byte (loadByte (addr + s.hbytes) s).1) (loadByte (addr + s.hbytes) s).2))
    else .fault .addressOutsideMem
  else .next (advanceHost s)

/-- `bbusy`: branch when last[0] = 1 (30_encoding.md R93). Log 13. -/
def hostBranch (label : Nat) (s : State) : State :=
  if s.last.getLsbD 0 then { s with hpc := label, hbytes := 0 } else advanceHost s

/-- One step of a host operation (30_encoding.md R93). `wr` and `rd` are 32-bit accesses at the register's offset. -/
def hostOpStep (op : HostOp) (s : State) : Host.Outcome State Fault Refusal :=
  match op with
  | .wr r v => hostWrite 32 (s.params.regBase + r.offset) v s
  | .rd r => hostRead 32 (s.params.regBase + r.offset) s
  | .mw addr bytes => hostStore addr bytes s
  | .mr addr count => hostLoad addr count s
  | .bbusy label => .next (hostBranch label s)
  | .halt => .next { s with halted := true }
  | .busWr width addr v => hostWrite width addr v s
  | .busRd width addr => hostRead width addr s

/-- One step of the HOST. A HOST that has halted, or whose hpc is past its program, issues nothing (log 12). -/
def hostStep (s : State) : Host.Outcome State Fault Refusal :=
  if s.halted then .next s
  else
    match s.prog[s.hpc]? with
    | none => .next s
    | some op => hostOpStep op s

/-- A run has ended: the HOST has executed `halt` and BUSY = 0 (70_reset_and_hazards.md R214). -/
def State.ended (s : State) : Bool := s.halted && !s.busy

end Sys2Proof.Machine
end

