-- ==== Sys2Proof/Machine/Agents.lean ====
section
/-! DEFINITION. The UNIT's step, the platform's, and whose turn it is (00_scope.md R5; 20_memory.md R68, R71; 70_reset_and_hazards.md R200, R205, R206). -/
namespace Sys2Proof.Machine

/-- The Complete step, enabled exactly when BUSY = 1: exec of the command SNAP.CMD decodes to, or the completion of an
illegal word (70_reset_and_hazards.md R205). A UNIT with nothing in flight does nothing (log 12). -/
def unitStep (s : State) : Host.Outcome State Fault Refusal :=
  if s.busy then
    match decode s.snap.cmd with
    | .command i => exec i s
    | .illegal _ => .next (completeIllegal s)
  else .next s

/-- Whose turn it is: the first of the list; when the list is used up, the UNIT's while BUSY = 1, else the HOST's
(20_memory.md R68, 70_reset_and_hazards.md R206). Log 1. -/
def State.turn (s : State) : Turn :=
  match s.sched with
  | [] => if s.busy then .unit else .host
  | t :: _ => t

/-- The turn is taken. -/
def State.popTurn (s : State) : State := { s with sched := s.sched.tail }

/-- A step of the agent whose turn it is. -/
def agentStep (t : Turn) (s : State) : Host.Outcome State Fault Refusal :=
  match t with
  | .host => hostStep s
  | .unit => unitStep s
  | .powerOn => .next (powerOnReset s)
  | .platformWrite addr b => storeByte addr b s

end Sys2Proof.Machine
end

