-- ==== Sys2Proof/Machine/Step.lean ====
section
/-! DEFINITION. One step of the system (20_memory.md R68: the agents' steps are interleaved in one total order), and how an instruction is placed for the next step. -/
namespace Sys2Proof.Machine

/-- One step: the agent whose turn it is moves. -/
def step (s : State) : Host.Outcome State Fault Refusal := agentStep s.turn s.popTurn

/-- The command word `w` accepted as by a CMD write (70_reset_and_hazards.md R204), and the next turn the UNIT's: the
very next step is that command's Complete step. Log 7. -/
def State.withFetchWord (s : State) (nbits w : Nat) : State :=
  let t := accept (BitVec.ofNat 32 (w % 2 ^ nbits)) s
  { t with sched := .unit :: t.sched }

end Sys2Proof.Machine
end

