-- ==== Sys2Proof/Safety.lean ====
section
/-! DEFINITION. What a good state and a safe run are: the invariants, the launch premises (70_reset_and_hazards.md R216), the hazards the HOST must respect (R208 to R210), and the words the statements use. -/
namespace Sys2Proof.Machine

/-! ### Launch premises (70_reset_and_hazards.md R216) -/

/-- `unit_idle`: STATUS.BUSY = 0, FP empty, TAINT = NONE. -/
def State.unitIdle (s : State) : Prop := s.busy = false ∧ s.fp = Footprint.empty ∧ s.taint = .none

/-- `no_pending_done`: STATUS.DONE = 0 and STATUS.CMDERR = 0. -/
def State.noPendingDone (s : State) : Prop := s.done = false ∧ s.cmderr = false

/-! ### Runs -/

/-- The state after n steps, when each of them answers a next state. -/
def State.after : Nat → State → Option State
  | 0, s => some s
  | n + 1, s =>
    match step s with
    | .next t => State.after n t
    | .fault _ => none
    | .refused _ => none

/-- The run from `s` passes through `t`. -/
def State.reaches (s t : State) : Prop := ∃ n, State.after n s = some t

/-- `t` is the state right after the run from `s` accepted its first command. -/
def State.firstAccepts (s t : State) : Prop :=
  ∃ n, State.after n s = some t ∧ t.busy = true ∧ ∀ m < n, ∀ u, State.after m s = some u → u.busy = false

/-! ### The invariant -/

/-- The command SNAP.CMD decodes to reaches no MEM: a scalar command or an illegal word (40_field.md R110,
30_encoding.md R89). -/
def Snapshot.noMem (snap : Snapshot) : Bool :=
  match decode snap.cmd with
  | .command .gfmul => true
  | .command .gfdiv => true
  | .command .gfinv => true
  | .command (.genm _) => false
  | .command .invm => false
  | .command .tbls => false
  | .command .enc => false
  | .command .dec => false
  | .illegal _ => true

/-- Every region of the list is inside MEM (20_memory.md R59: a region that fails InRange is left out). -/
def regionsInMem (memSize : Nat) (rs : List Region) : Bool := rs.all fun r => inRange memSize r.base r.size

/-- What every step keeps, from any state that has it. -/
structure State.Inv (s : State) : Prop where
  /-- 1 ≤ MEM_SIZE ≤ 2³² (20_memory.md R50). -/
  memSize : 1 ≤ s.params.memSize ∧ s.params.memSize ≤ 2 ^ 32
  /-- MEM is in canonical form. -/
  memWf : s.mem.wf = true
  /-- MEM lists addresses below MEM_SIZE only (20_memory.md R50). -/
  memWithin : s.mem.within s.params.memSize = true
  /-- Nothing is in flight while BUSY = 0 (10_state.md R31, 70_reset_and_hazards.md R205). -/
  idle : s.busy = false → s.fp = Footprint.empty ∧ s.taint = .none
  /-- DONE = 0 and ERR = 0 while BUSY = 1 (10_state.md R24). -/
  inFlight : s.busy = true → s.done = false ∧ s.err = .success
  /-- CMD_LAST is the command in flight (10_state.md R30). -/
  cmdLast : s.busy = true → s.cmdLast = s.snap.cmd
  /-- The footprint lies in MEM (20_memory.md R59, R60). -/
  fpInMem : regionsInMem s.params.memSize s.fp.ctrl = true ∧ regionsInMem s.params.memSize s.fp.read = true ∧
    regionsInMem s.params.memSize s.fp.write = true
  /-- "Scalar commands have an empty FP, so they are never tainted and never alias" (70_reset_and_hazards.md R205); nor
  are illegal words. -/
  noMem : s.busy = true → s.snap.noMem = true → s.fp = Footprint.empty ∧ s.taint = .none

/-- While a command is in flight and no write has touched its control set, its footprint is the one its snapshot and the
current MEM give: FP "is fixed at acceptance" (10_state.md R31), and only a race on FP.C could make it stale. -/
def State.footprintCurrent (s : State) : Prop :=
  s.busy = true → s.taint ≠ .wild → s.fp = footprint s.params.memSize s.mem s.snap

/-! ### What the HOST must respect (70_reset_and_hazards.md R208, R209) -/

/-- The byte is not one a command in flight may read or write. -/
def State.offFootprint (s : State) (a : Nat) : Bool := !s.busy || (!s.fp.inReadSet a && !s.fp.inWrite a)

/-- The HOST's next step writes CMD only while BUSY = 0 (R208). -/
def State.hostWaits (s : State) : Bool :=
  match s.prog[s.hpc]? with
  | some (.wr .cmd _) => !s.busy
  | some (.busWr _ addr _) => !s.busy || addr != s.params.regBase + 0x0C
  | _ => true

/-- While a command is in flight the HOST's next step writes no byte of FP and reads no byte of FP.W (R209). -/
def State.hostOffFootprint (s : State) : Bool :=
  match s.prog[s.hpc]? with
  | some (.mw addr _) => s.offFootprint (addr + s.hbytes)
  | some (.mr addr _) => !s.busy || !s.fp.inWrite (addr + s.hbytes)
  | _ => true

/-- The HOST's next step respects R208 and R209. -/
def State.hostRespects (s : State) : Bool := s.hostWaits && s.hostOffFootprint

/-! ### The launch premises of a run (70_reset_and_hazards.md R216; the reading of each is log 26) -/

/-- The blocks the descriptors of ENC or DEC name, data and coding alike (20_memory.md R63). -/
def namedBlocks (i : Instr) (m : Memory) (args : Vector Word 8) : List Region :=
  match i with
  | .enc | .dec =>
    (List.range (argNat args 1 + argNat args 2)).map fun b => ⟨descAddr m (argNat args 4) b, argNat args 0⟩
  | .gfmul | .gfdiv | .gfinv | .genm _ | .invm | .tbls => []

/-- Every region the command names, in range or not: the regions its pseudocode checks (41_matrix.md R121, R129;
42_coding.md R141, R144, R145, R148). -/
def namedRegions (i : Instr) (m : Memory) (args : Vector Word 8) : List Region :=
  let x := argNat args
  match i with
  | .gfmul | .gfdiv | .gfinv => []
  | .genm _ => [⟨x 2, (x 0 + x 1) * x 0⟩]
  | .invm => [⟨x 1, x 0 * x 0⟩, ⟨x 2, x 0 * x 0⟩]
  | .tbls => [⟨x 2 + x 0 * x 0, x 1 * x 0⟩, ⟨x 3, 32 * x 0 * x 1⟩]
  | .enc => [⟨x 3, 32 * x 1 * x 2⟩, ⟨x 4, 8 * (x 1 + x 2)⟩] ++ namedBlocks .enc m args
  | .dec => [⟨x 3, (x 1 + x 2) * x 1⟩, ⟨x 5, x 6⟩, ⟨x 4, 8 * (x 1 + x 2)⟩] ++ namedBlocks .dec m args

/-- The bytes of MEM the operation names are there (20_memory.md R50). -/
def hostOpInMem (memSize : Nat) : HostOp → Bool
  | .mw addr bytes => inRange memSize addr bytes.length
  | .mr addr count => inRange memSize addr count
  | .wr _ _ | .rd _ | .bbusy _ | .halt | .busWr _ _ _ | .busRd _ _ => true

/-- `mem_layout`: at entry the bytes the run's first command reads, and for ENC and DEC every block, hold the values a
claim names. -/
def State.memLayout (named : Nat → Byte) (s : State) : Prop :=
  ∀ t i, s.firstAccepts t → decode t.snap.cmd = .command i →
    ∀ a, (t.fp.inReadSet a = true ∨ regionsContain (namedBlocks i t.mem t.snap.args) a = true) →
      s.mem.read a = named a

/-- `disjoint_footprints`: no command of the run aliases (R210), and the HOST touches no footprint during BUSY (R209). -/
def State.disjointFootprints (s : State) : Prop :=
  ∀ t, s.reaches t →
    (t.busy = true → t.fp.aliases = false) ∧ (t.turn = .host → t.hostOffFootprint = true)

/-- `mem_size_ok`: every region the program names, by its `mw` and `mr` and by the commands the run accepts, is in MEM. -/
def State.memSizeOk (s : State) : Prop :=
  (∀ op ∈ s.prog, hostOpInMem s.params.memSize op = true) ∧
  ∀ t i, s.reaches t → t.busy = true → decode t.snap.cmd = .command i →
    ∀ r ∈ namedRegions i t.mem t.snap.args, inRange t.params.memSize r.base r.size = true

/-- A clean entry: the five launch premises of R216 together. `mem_size_ok` is asked for "if the claim relies on
success". -/
structure State.CleanEntry (named : Nat → Byte) (reliesOnSuccess : Prop) (s : State) : Prop where
  unitIdle : s.unitIdle
  noPendingDone : s.noPendingDone
  memLayout : s.memLayout named
  disjointFootprints : s.disjointFootprints
  memSizeOk : reliesOnSuccess → s.memSizeOk

/-! ### Words the statements use -/

/-- The state after the Complete step of `s` with the given code, MEM and RES: BUSY = 0, DONE = 1, FP empty, TAINT = NONE, and
every other field as in `s` (60_exceptions.md R178, 70_reset_and_hazards.md R205). -/
def State.completed (s : State) (code : ErrCode) (m : Memory) (res : Byte) : State :=
  { s with
    err := code
    mem := m
    res := res
    busy := false
    done := true
    fp := Footprint.empty
    taint := .none }

/-- The unit as every reset leaves it (10_state.md R37): every register and all hidden state that R37 gives a value. -/
def State.unitReset (s : State) : Prop :=
  s.ie = false ∧ s.busy = false ∧ s.done = false ∧ s.cmderr = false ∧ s.err = .success ∧ s.cmdLast = 0 ∧ s.res = 0 ∧
    (∀ i : Fin 8, s.args[i] = 0) ∧ s.fp = Footprint.empty ∧ s.taint = .none

/-- The table set at `tbl` holds, for K columns and P rows, the products of the coefficients `coef j i` in the layout of
42_coding.md R140. -/
def tableSetHolds (m : Memory) (tbl k p : Nat) (coef : Nat → Nat → Byte) : Prop :=
  ∀ j < p, ∀ i < k, ∀ n < 16,
    m.read (tbl + 32 * (j * k + i) + n) = gmul (coef j i) (BitVec.ofNat 8 n) ∧
    m.read (tbl + 32 * (j * k + i) + 16 + n) = gmul (coef j i) (BitVec.ofNat 8 (16 * n))

/-- The two memories agree on every address the predicate picks. -/
def memAgree (p : Nat → Bool) (m m' : Memory) : Prop := ∀ a, p a = true → m.read a = m'.read a

/-- The two states run the same command on the same operands and parameters, and their memories agree on its read set
FP.C ∪ FP.R (60_exceptions.md R181). -/
def sameInputs (i : Instr) (s t : State) : Prop :=
  s.params = t.params ∧ s.snap.args = t.snap.args ∧
    memAgree (footprintOf i s.params.memSize s.mem s.snap.args).inReadSet s.mem t.mem

end Sys2Proof.Machine
end

