-- ==== Sys2Proof/Certificates/Slice0/Obligations.lean ====
section
/-! DEFINITION. The statements for the provers (OBLIGATIONS.json lists them). -/
open Sys2Proof Sys2Proof.Machine

/-! ### Reset and the register block -/

/-- 70_reset_and_hazards.md R201, R202 (and 10_state.md R37): what a step that asserts the power-on reset leaves, from any state; the unit
accepts a command at once. `State.reset` is such a state for every choice of the parameters. SNAP is "unspecified" after reset: nothing
is said of it. The model's choice, log 16 (DEDUCED): MEM is unchanged from a state with BUSY = 1 too, and the HOST goes on. -/
def Obligations.PowerOnResetLeavesAnIdleUnit : Prop :=
  (∀ s : State, s.turn = .powerOn → ∃ t, step s = .next t ∧
    t.unitReset ∧ t.statusWord = 0 ∧ t.ctrlWord = 0 ∧ t.resultWord = 0 ∧ t.irq = false ∧
    t.mem = s.mem ∧ t.params = s.params ∧ t.prog = s.prog ∧ t.hpc = s.hpc ∧ t.hbytes = s.hbytes ∧
    t.last = s.last ∧ t.trace = s.trace ∧ t.halted = s.halted ∧
    ∀ w : Word, writeReg 0x0C w t = accept w t) ∧
  ∀ p : Params, (State.resetWith p).unitReset ∧ (State.resetWith p).unitIdle ∧ (State.resetWith p).noPendingDone

/-- 10_state.md R29 and R22, R27: unmapped offsets read 0 and ignore writes, ID and RESULT ignore writes, the reserved bits of
CTRL and STATUS read 0 and ignore writes, ID reads 0x47463238, RESULT reads RES in [7:0] and 0 in [31:8]. -/
def Obligations.ReadOnlyAndReservedBitsIgnoreWrites : Prop :=
  ∀ (s : State) (v : Word),
    (∀ off ∈ [0x14, 0x18, 0x1C], readReg off s = 0 ∧ writeReg off v s = s) ∧
    (∀ off ∈ [0x00, 0x10], writeReg off v s = s) ∧
    readReg 0x00 s = 0x47463238 ∧ readReg 0x10 s &&& 0xFFFFFF00 = 0 ∧
    readReg 0x10 s = s.res.setWidth 32 ∧
    readReg 0x04 s &&& 0xFFFFFFFE = 0 ∧ readReg 0x08 s &&& 0xFFFFF0F8 = 0 ∧
    writeReg 0x04 v s = writeReg 0x04 (v &&& 0x00000003) s ∧
    writeReg 0x08 v s = writeReg 0x08 (v &&& 0x00000006) s

/-- 10_state.md R24, 60_exceptions.md R170: the bits of a STATUS read, the numbers of the five codes in ERR, and a STATUS write. A write
changes DONE and CMDERR alone. -/
def Obligations.StatusBitsAndWriteOneToClear : Prop :=
  ErrCode.success.bits = 0 ∧ ErrCode.invalidParameters.bits = 1 ∧ ErrCode.unrecoverableLoss.bits = 2 ∧
  ErrCode.singularSubmatrix.bits = 3 ∧ ErrCode.illegalCommand.bits = 4 ∧
  ∀ (s : State) (v : Word),
    (readReg 0x08 s).getLsbD 0 = s.busy ∧ (readReg 0x08 s).getLsbD 1 = s.done ∧
    (readReg 0x08 s).getLsbD 2 = s.cmderr ∧ (readReg 0x08 s).extractLsb' 8 4 = s.err.bits ∧
    writeReg 0x08 v s =
      { s with
        done := if v.getLsbD 1 then false else s.done
        cmderr := if v.getLsbD 2 then false else s.cmderr }

/-- 10_state.md R28: every bit written to an ARG register is read back, the other ARG registers keep theirs, and nothing
else of the state changes. -/
def Obligations.ArgRegistersReadBack : Prop :=
  ∀ (s : State) (i j : Fin 8) (v : Word),
    readReg (Reg.arg i).offset (writeReg (Reg.arg i).offset v s) = v ∧
    (i ≠ j → readReg (Reg.arg j).offset (writeReg (Reg.arg i).offset v s) = readReg (Reg.arg j).offset s) ∧
    writeReg (Reg.arg i).offset v s = { s with args := s.args.set i v }

/-- 10_state.md R23, 70_reset_and_hazards.md R203: CTRL[0] reads IE; a CTRL write. With v[1] = 0 it sets IE alone. With v[1] = 1 it is a soft
reset: every register and all hidden state at the reset value, MEM unchanged when BUSY = 0, and when BUSY = 1 without a
race on FP.C every byte outside FP.W unchanged. The HOST's own state is not touched. -/
def Obligations.CtrlWriteEnablesOrSoftResets : Prop :=
  ∀ (s : State) (v : Word),
    (readReg 0x04 s).getLsbD 0 = s.ie ∧
    (v.getLsbD 1 = false → writeReg 0x04 v s = { s with ie := v.getLsbD 0 }) ∧
    (v.getLsbD 1 = true →
      (writeReg 0x04 v s).unitReset ∧
      (s.busy = false → (writeReg 0x04 v s).mem = s.mem) ∧
      (s.busy = true → s.taint ≠ .wild →
        ∀ a, s.fp.inWrite a = false → (writeReg 0x04 v s).mem.read a = s.mem.read a) ∧
      (writeReg 0x04 v s).params = s.params ∧ (writeReg 0x04 v s).prog = s.prog ∧
      (writeReg 0x04 v s).hpc = s.hpc ∧ (writeReg 0x04 v s).last = s.last ∧
      (writeReg 0x04 v s).trace = s.trace ∧ (writeReg 0x04 v s).halted = s.halted)

/-- 70_reset_and_hazards.md R204 with 60_exceptions.md R175: a CMD write while BUSY = 0 is the Accept step and nothing else; while
BUSY = 1 it sets CMDERR and nothing else. -/
def Obligations.CmdWriteAcceptsOrSetsCmderr : Prop :=
  ∀ (s : State) (w : Word),
    (s.busy = false →
      writeReg 0x0C w s =
        { s with
          snap := { cmd := w, args := s.args }
          cmdLast := w
          busy := true
          done := false
          err := .success
          fp := footprint s.params.memSize s.mem { cmd := w, args := s.args }
          taint := .none }) ∧
    (s.busy = true → writeReg 0x0C w s = { s with cmderr := true }) ∧
    readReg 0x0C s = s.cmdLast

/-- 60_exceptions.md R175: CMDERR is sticky. A step clears it only by a power-on reset, or by the HOST's write of 1 to STATUS bit 2 or
to CTRL.SRST. -/
def Obligations.CmderrIsSticky : Prop :=
  ∀ s t : State, step s = .next t → s.cmderr = true →
    t.cmderr = true ∨ s.turn = .powerOn ∨
    (s.turn = .host ∧ ∃ op, s.prog[s.hpc]? = some op ∧
      ((∃ v, op = .wr .status v ∧ v.getLsbD 2 = true) ∨ (∃ v, op = .wr .ctrl v ∧ v.getLsbD 1 = true) ∨
       ∃ addr v, op = .busWr 32 addr v ∧
        ((addr = s.params.regBase + 0x08 ∧ v.getLsbD 2 = true) ∨
         (addr = s.params.regBase + 0x04 ∧ v.getLsbD 1 = true))))

/-- 60_exceptions.md R179, R180: irq follows IE and DONE: it is IE after every completion (of a command, and of an illegal word), 0 after an acceptance, after a write of 1
to STATUS.DONE and while IE = 0, and masking leaves DONE as it was. -/
def Obligations.InterruptLevelFollowsDone : Prop :=
  (∀ (i : Instr) (s : State), ∃ t, exec i s = .next t ∧ t.irq = s.ie) ∧
  (∀ s : State, s.busy = true → ∃ t, unitStep s = .next t ∧ t.irq = s.ie) ∧
  (∀ (s : State) (w : Word), s.busy = false → (writeReg 0x0C w s).irq = false) ∧
  (∀ (s : State) (v : Word), v.getLsbD 1 = true → (writeReg 0x08 v s).irq = false) ∧
  (∀ (s : State) (v : Word), v.getLsbD 1 = false → v.getLsbD 0 = false →
    (writeReg 0x04 v s).irq = false ∧ (writeReg 0x04 v s).done = s.done) ∧
  (∀ (s : State) (v : Word), v.getLsbD 1 = false → v.getLsbD 0 = true → (writeReg 0x04 v s).irq = s.done)

/-- 10_state.md R21: a raw HOST access to the register block is answered exactly when it is 32 bits wide and at a multiple of 4; any
other is refused. That a raw read sets `last` and a raw access advances hpc, as `rd` and `wr` do, is log 27 (DESIGN CHOICE). -/
def Obligations.RegisterAccessWidthAndAlignment : Prop :=
  ∀ (s : State) (width addr : Nat) (v : Word),
    s.params.regBase ≤ addr → addr < s.params.regBase + 0x40 →
    ((width = 32 ∧ (addr - s.params.regBase) % 4 = 0) →
      hostOpStep (.busWr width addr v) s = .next (advanceHost (writeReg (addr - s.params.regBase) v s)) ∧
      ∃ t, hostOpStep (.busRd width addr) s = .next t ∧ t.last = readReg (addr - s.params.regBase) s) ∧
    (¬(width = 32 ∧ (addr - s.params.regBase) % 4 = 0) →
      hostOpStep (.busWr width addr v) s = .refused .registerAccess ∧
      hostOpStep (.busRd width addr) s = .refused .registerAccess)

/-! ### Encoding -/

/-- Decoding an encoded command gives it back (30_encoding.md R84, R90). -/
def Obligations.EncodeThenDecode : Prop :=
  ∀ i : Instr, i.wellFormed = true → decode (encode i) = .command i

/-- Each word has one meaning: a word decodes to a command exactly when it is that command's word (30_encoding.md R84, R89). -/
def Obligations.DecodesOnlyItsOwnWord : Prop :=
  ∀ (w : Word) (i : Instr), decode w = .command i ↔ encode i = w

/-- 30_encoding.md R90, R84: Decode returns the command whose match and mask select w, or Illegal; no two rows select the same word. -/
def Obligations.DecodeAgreesWithTheOpcodeMap : Prop :=
  (∀ w : Word, ∀ r ∈ opcodeMap, r.selects w = true ↔ ∃ i, decode w = .command i ∧ i.mnemonic = r.mnemonic) ∧
  (∀ w : Word, (∃ why, decode w = .illegal why) ↔ ∀ r ∈ opcodeMap, r.selects w = false) ∧
  (∀ w : Word, ∀ r ∈ opcodeMap, ∀ q ∈ opcodeMap, r.selects w = true → q.selects w = true → r = q)

/-- 30_encoding.md R84, R94 and 95_test_vectors.md V40, V41: words written out from the encoding decode to what they stand for. -/
def Obligations.WrittenOutWordsDecode : Prop :=
  decode 0x00000001 = .command .gfmul ∧ decode 0x00000010 = .command (.genm .cauchy) ∧
  decode 0x00000110 = .command (.genm .vandermonde) ∧ decode 0x00000012 = .command .tbls ∧
  decode 0x00000021 = .command .dec ∧ decode 0x00000101 = .illegal .modeBit ∧
  decode 0x00000210 = .illegal .reservedBits ∧ decode 0x00000013 = .illegal .undefinedOp

/-- 30_encoding.md R89, 60_exceptions.md R174: a word is illegal exactly when RSV ≠ 0, or its OP is not one of the eight, or M = 1 with an
OP other than GENM's; written to CMD while BUSY = 0 it is accepted like any word, and its Complete step gives IllegalCommand, MEM and
RESULT unchanged. That its footprint is empty is the model's reading of R89, log 14 (DEDUCED). -/
def Obligations.IllegalWordsCompleteWithCodeFour : Prop :=
  (∀ w : Word, (∃ why, decode w = .illegal why) ↔
    (w.toNat / 2 ^ 9 ≠ 0 ∨ w.toNat % 2 ^ 8 ∉ [0x01, 0x02, 0x03, 0x10, 0x11, 0x12, 0x20, 0x21] ∨
      (w.toNat / 2 ^ 8 % 2 = 1 ∧ w.toNat % 2 ^ 8 ≠ 0x10))) ∧
  (∀ (s : State) (w : Word) (why : IllegalWord), decode w = .illegal why → s.busy = false →
    let t := writeReg 0x0C w s
    t.busy = true ∧ t.cmdLast = w ∧ t.cmderr = s.cmderr ∧ t.fp = Footprint.empty ∧
    unitStep t = .next (t.completed .illegalCommand s.mem s.res)) ∧
  ErrCode.illegalCommand.bits = 4

/-! ### The field -/

/-- 40_field.md R102, all seven laws. -/
def Obligations.FieldMultiplicationLaws : Prop :=
  ∀ a b c : Byte,
    gmul a 0 = 0 ∧ gmul 0 a = 0 ∧ gmul a 1 = a ∧ gmul a b = gmul b a ∧
    gmul (gmul a b) c = gmul a (gmul b c) ∧ gmul a (b ^^^ c) = gmul a b ^^^ gmul a c ∧
    (a ≠ 0 → b ≠ 0 → gmul a b ≠ 0)

/-- 40_field.md R103: the powers of 0x02 are the nonzero elements, each once, and multiplication is addition of logarithms mod 255. -/
def Obligations.LogarithmFormAgrees : Prop :=
  (∀ a : Byte, a ≠ 0 → ∃ i < 255, gexp i = a ∧ glog a = some i ∧ ∀ j < 255, gexp j = a → j = i) ∧
  gexp 255 = 1 ∧
  (∀ a b : Byte, a ≠ 0 → b ≠ 0 → ∀ i j, glog a = some i → glog b = some j → gmul a b = gexp ((i + j) % 255))

/-- 40_field.md R104: for a ≠ 0, ginv(a) is the unique x with gmul(a, x) = 1, and it is gexp((255 − glog(a)) mod 255). Nothing is said of
ginv(0), which "has no value". -/
def Obligations.InverseIsTheUniqueSolution : Prop :=
  ∀ a : Byte, a ≠ 0 →
    gmul a (ginv a) = 1 ∧ (∀ x, gmul a x = 1 → x = ginv a) ∧
    (∀ i, glog a = some i → ginv a = gexp ((255 - i) % 255)) ∧ ginv (ginv a) = a

/-! ### The scalar commands -/

/-- 40_field.md R107: GFMUL. The operands are SNAP.ARG[0] and SNAP.ARG[1]; bits [31:8] must be 0. The next state is given whole. -/
def Obligations.GfmulCompletes : Prop :=
  decode 0x00000001 = .command .gfmul ∧ gmul 0x02 0x80 = 0x1D ∧
  (∀ a : Byte, gmul a 0 = 0 ∧ gmul 0 a = 0 ∧ gmul a 1 = a ∧ gmul 1 a = a) ∧
  ∀ s : State, s.taint = .none → s.fp = Footprint.empty →
    ((s.snap.args[0]).toNat < 256 → (s.snap.args[1]).toNat < 256 →
      exec .gfmul s = .next (s.completed .success s.mem
        (gmul ((s.snap.args[0]).setWidth 8) ((s.snap.args[1]).setWidth 8)))) ∧
    (256 ≤ (s.snap.args[0]).toNat ∨ 256 ≤ (s.snap.args[1]).toNat →
      exec .gfmul s = .next (s.completed .invalidParameters s.mem s.res))

/-- 40_field.md R108: GFDIV. Division by zero is an error, never a value. -/
def Obligations.GfdivCompletes : Prop :=
  decode 0x00000002 = .command .gfdiv ∧ gmul 0x07 (ginv 0x03) = 0xF6 ∧
  (∀ a : Byte, gmul a (ginv 1) = a ∧ (a ≠ 0 → gmul 0 (ginv a) = 0 ∧ gmul a (ginv a) = 1)) ∧
  ∀ s : State, s.taint = .none → s.fp = Footprint.empty →
    ((s.snap.args[0]).toNat < 256 → (s.snap.args[1]).toNat < 256 → s.snap.args[1] ≠ 0 →
      exec .gfdiv s = .next (s.completed .success s.mem
        (gmul ((s.snap.args[0]).setWidth 8) (ginv ((s.snap.args[1]).setWidth 8))))) ∧
    (256 ≤ (s.snap.args[0]).toNat ∨ 256 ≤ (s.snap.args[1]).toNat ∨ s.snap.args[1] = 0 →
      exec .gfdiv s = .next (s.completed .invalidParameters s.mem s.res))

/-- 40_field.md R109: GFINV. The inverse of zero is an error. -/
def Obligations.GfinvCompletes : Prop :=
  decode 0x00000003 = .command .gfinv ∧ ginv 0x03 = 0xF4 ∧ ginv 1 = 1 ∧ ginv 0x02 = 0x8E ∧ ginv 0x8E = 0x02 ∧
  (∀ a : Byte, a ≠ 0 → ginv (ginv a) = a) ∧
  ∀ s : State, s.taint = .none → s.fp = Footprint.empty →
    ((s.snap.args[0]).toNat < 256 → s.snap.args[0] ≠ 0 →
      exec .gfinv s = .next (s.completed .success s.mem (ginv ((s.snap.args[0]).setWidth 8)))) ∧
    (256 ≤ (s.snap.args[0]).toNat ∨ s.snap.args[0] = 0 →
      exec .gfinv s = .next (s.completed .invalidParameters s.mem s.res))

/-! ### Matrices -/

/-- 41_matrix.md R122, R123, R124: the identity rows; each Cauchy element is the inverse of x_i XOR y_j; each Vandermonde element is a
power of 2^(i−K), and the first parity row is all 1. -/
def Obligations.GeneratorMatrixElements : Prop :=
  ∀ (k p i j : Nat), 1 ≤ k → k + p ≤ 256 → i < k + p → j < k →
    (i < k → ∀ mode, genElem mode k i j = if i = j then 1 else 0) ∧
    (k ≤ i → gmul (genElem .cauchy k i j) (BitVec.ofNat 8 i ^^^ BitVec.ofNat 8 j) = 1) ∧
    (k ≤ i → genElem .vandermonde k i j = gpow 0x02 ((i - k) * j)) ∧
    (i = k → genElem .vandermonde k i j = 1)

/-- 41_matrix.md R121: GENM in both modes. With K, P, MAT in range it writes exactly the (K+P)·K bytes at MAT; otherwise it raises
InvalidParameters and writes nothing. The next state is given whole. -/
def Obligations.GenmCompletes : Prop :=
  ∀ (mode : GenMode) (s : State), s.taint = .none → s.mem.wf = true →
    let k := (s.snap.args[0]).toNat
    let p := (s.snap.args[1]).toNat
    let mat := (s.snap.args[2]).toNat
    (1 ≤ k → k + p ≤ 256 → mat + (k + p) * k ≤ s.params.memSize → s.fp.aliases = false →
      ∃ m : Memory, exec (.genm mode) s = .next (s.completed .success m s.res) ∧ m.wf = true ∧
        (∀ i < k + p, ∀ j < k, m.read (mat + i * k + j) = genElem mode k i j) ∧
        ∀ a, (a < mat ∨ mat + (k + p) * k ≤ a) → m.read a = s.mem.read a) ∧
    (k = 0 ∨ 256 < k + p ∨ s.params.memSize < mat + (k + p) * k →
      exec (.genm mode) s = .next (s.completed .invalidParameters s.mem s.res))

/-- 41_matrix.md R129: INVM. N = 0, N > 256 or a region out of range is InvalidParameters; a matrix GaussJordan fails on is
SingularSubmatrix; neither writes. Otherwise exactly the N·N bytes at DST become the inverse. -/
def Obligations.InvmCompletes : Prop :=
  ∀ s : State, s.taint = .none → s.mem.wf = true →
    let n := (s.snap.args[0]).toNat
    let src := (s.snap.args[1]).toNat
    let dst := (s.snap.args[2]).toNat
    (n = 0 ∨ 256 < n ∨ s.params.memSize < src + n * n ∨ s.params.memSize < dst + n * n →
      exec .invm s = .next (s.completed .invalidParameters s.mem s.res)) ∧
    (1 ≤ n → n ≤ 256 → src + n * n ≤ s.params.memSize → dst + n * n ≤ s.params.memSize →
      (gaussJordan (fun r c => s.mem.read (src + r * n + c)) n = none →
        exec .invm s = .next (s.completed .singularSubmatrix s.mem s.res)) ∧
      (∀ b, gaussJordan (fun r c => s.mem.read (src + r * n + c)) n = some b → s.fp.aliases = false →
        ∃ m : Memory, exec .invm s = .next (s.completed .success m s.res) ∧ m.wf = true ∧
          (∀ r < n, ∀ c < n, m.read (dst + r * n + c) = entry b r c) ∧
          ∀ a, (a < dst ∨ dst + n * n ≤ a) → m.read a = s.mem.read a))

/-- 41_matrix.md R128: GaussJordan fails exactly when A is singular (some nonzero vector is sent to 0), and what it returns is the one
two-sided inverse. -/
def Obligations.GaussJordanInvertsOrFindsSingular : Prop :=
  ∀ (a : Nat → Nat → Byte) (n : Nat), 1 ≤ n →
    (gaussJordan a n = none ↔
      ∃ v : Nat → Byte, (∃ c < n, v c ≠ 0) ∧ ∀ r < n, xorSum (fun c => gmul (a r c) (v c)) n = 0) ∧
    (∀ b, gaussJordan a n = some b →
      (∀ r < n, ∀ c < n, xorSum (fun t => gmul (entry b r t) (a t c)) n = if r = c then 1 else 0) ∧
      (∀ r < n, ∀ c < n, xorSum (fun t => gmul (a r t) (entry b t c)) n = if r = c then 1 else 0) ∧
      (∀ b' : Nat → Nat → Byte,
        (∀ r < n, ∀ c < n, xorSum (fun t => gmul (a r t) (b' t c)) n = if r = c then 1 else 0) →
        ∀ r < n, ∀ c < n, b' r c = entry b r c)) ∧
    (n = 1 → (a 0 0 = 0 → gaussJordan a n = none) ∧ (a 0 0 ≠ 0 → gaussJordan a n = some [[ginv (a 0 0)]]))

/-- 41_matrix.md R125: every K rows of a Cauchy generator matrix form an invertible submatrix. -/
def Obligations.CauchyMatrixIsMds : Prop :=
  ∀ (k p : Nat) (rows : List Nat), 1 ≤ k → k + p ≤ 256 → rows.length = k → rows.Nodup → (∀ r ∈ rows, r < k + p) →
    gaussJordan (fun r c => genElem .cauchy k (rows.getD r 0) c) k ≠ none

/-! ### Tables, encoder, recovery -/

/-- 42_coding.md R140, R141: TBLS. With its operands in range it writes exactly the 32·K·P bytes at TBL, the product tables of the parity
rows; otherwise InvalidParameters and no write. A region of size 0 passes wherever it stands. -/
def Obligations.TblsCompletes : Prop :=
  ∀ s : State, s.taint = .none → s.mem.wf = true →
    let k := (s.snap.args[0]).toNat
    let p := (s.snap.args[1]).toNat
    let mat := (s.snap.args[2]).toNat
    let tbl := (s.snap.args[3]).toNat
    let fits := p = 0 ∨ (mat + k * k + p * k ≤ s.params.memSize ∧ tbl + 32 * k * p ≤ s.params.memSize)
    (1 ≤ k → k + p ≤ 256 → fits → s.fp.aliases = false →
      ∃ m : Memory, exec .tbls s = .next (s.completed .success m s.res) ∧ m.wf = true ∧
        tableSetHolds m tbl k p (fun j i => s.mem.read (mat + (k + j) * k + i)) ∧
        ∀ a, (a < tbl ∨ tbl + 32 * k * p ≤ a) → m.read a = s.mem.read a) ∧
    (k = 0 ∨ 256 < k + p ∨ ¬fits → exec .tbls s = .next (s.completed .invalidParameters s.mem s.res))

/-- 42_coding.md R143: over an entry whose 32 bytes TBLS wrote from coefficient c, and which has not changed since (in whatever memory m'), the
lookup is multiplication by c. -/
def Obligations.TableLookupIsMultiplication : Prop :=
  ∀ (m m' : Memory) (tbl e : Nat) (c : Byte), m.wf = true →
    (∀ n < 32, m'.read (tbl + 32 * e + n) = (Memory.apply m (entryWrites (tbl + 32 * e) c)).read (tbl + 32 * e + n)) →
    ∀ d : Byte, tableLookup m' tbl e d = gmul c d

/-- 42_coding.md R144, R145: ENC. When every check passes, and the command does not alias, byte o of coding block j becomes the XOR over the
data blocks of the table lookups, and no byte outside the coding blocks changes. When a check fails, InvalidParameters and no write. -/
def Obligations.EncCompletes : Prop :=
  ∀ s : State, s.taint = .none → s.mem.wf = true →
    let len := (s.snap.args[0]).toNat
    let k := (s.snap.args[1]).toNat
    let p := (s.snap.args[2]).toNat
    let tbl := (s.snap.args[3]).toNat
    let cw := (s.snap.args[4]).toNat
    let addr := fun i => memRead s.mem (cw + 8 * i) 4
    let ok := 1 ≤ k ∧ k + p ≤ 256 ∧ (p = 0 ∨ tbl + 32 * k * p ≤ s.params.memSize) ∧
      cw + 8 * (k + p) ≤ s.params.memSize ∧
      ∀ i < k + p, memRead s.mem (cw + 8 * i + 4) 4 = len ∧ (len = 0 ∨ addr i + len ≤ s.params.memSize)
    (ok → s.fp = footprintOf .enc s.params.memSize s.mem s.snap.args → s.fp.aliases = false →
      ∃ m : Memory, exec .enc s = .next (s.completed .success m s.res) ∧ m.wf = true ∧
        (∀ j < p, ∀ o < len, m.read (addr (k + j) + o) =
          xorSum (fun i => tableLookup s.mem tbl (j * k + i) (s.mem.read (addr i + o))) k) ∧
        ∀ a, (∀ j < p, a < addr (k + j) ∨ addr (k + j) + len ≤ a) → m.read a = s.mem.read a) ∧
    (¬ok → exec .enc s = .next (s.completed .invalidParameters s.mem s.res))

/-- 42_coding.md R146: the encoder law. Over a table set that holds the products of a matrix's parity rows, an ENC that completes with
ERR = 0, without a race and without aliasing, leaves in each coding block the matrix-vector product, and the data blocks unchanged. -/
def Obligations.EncoderComputesTheMatrixProduct : Prop :=
  ∀ (s t : State) (coef : Nat → Nat → Byte), s.taint = .none → s.mem.wf = true →
    let len := (s.snap.args[0]).toNat
    let k := (s.snap.args[1]).toNat
    let p := (s.snap.args[2]).toNat
    let tbl := (s.snap.args[3]).toNat
    let cw := (s.snap.args[4]).toNat
    s.fp = footprintOf .enc s.params.memSize s.mem s.snap.args → s.fp.aliases = false →
    tableSetHolds s.mem tbl k p coef → exec .enc s = .next t → t.err = .success →
      (∀ j < p, ∀ o < len, t.mem.read (descAddr s.mem cw (k + j) + o) =
        xorSum (fun i => gmul (coef j i) (s.mem.read (descAddr s.mem cw i + o))) k) ∧
      ∀ i < k, ∀ o < len, t.mem.read (descAddr s.mem cw i + o) = s.mem.read (descAddr s.mem cw i + o)

/-- 42_coding.md R148, 60_exceptions.md R177: the checks of DEC in their order, each error leaving MEM and RESULT unchanged. An ECOUNT above P
is UnrecoverableLoss whatever the list holds. -/
def Obligations.DecReportsTheFirstFailedCheck : Prop :=
  ∀ s : State, s.taint = .none →
    let len := (s.snap.args[0]).toNat
    let k := (s.snap.args[1]).toNat
    let p := (s.snap.args[2]).toNat
    let mat := (s.snap.args[3]).toNat
    let cw := (s.snap.args[4]).toNat
    let eras := (s.snap.args[5]).toNat
    let ecount := (s.snap.args[6]).toNat
    let erased := (List.range ecount).map fun q => (s.mem.read (eras + q)).toNat
    let checked := mat + (k + p) * k ≤ s.params.memSize ∧ (ecount = 0 ∨ eras + ecount ≤ s.params.memSize) ∧
      (∀ e ∈ erased, e < k + p) ∧ erased.Nodup ∧ cw + 8 * (k + p) ≤ s.params.memSize ∧
      ∀ i < k + p, memRead s.mem (cw + 8 * i + 4) 4 = len ∧
        (len = 0 ∨ memRead s.mem (cw + 8 * i) 4 + len ≤ s.params.memSize)
    (k = 0 ∨ 256 < k + p → exec .dec s = .next (s.completed .invalidParameters s.mem s.res)) ∧
    (1 ≤ k → k + p ≤ 256 → p < ecount → exec .dec s = .next (s.completed .unrecoverableLoss s.mem s.res)) ∧
    (1 ≤ k → k + p ≤ 256 → ecount ≤ p → ¬checked →
      exec .dec s = .next (s.completed .invalidParameters s.mem s.res)) ∧
    (1 ≤ k → k + p ≤ 256 → ecount ≤ p → checked →
      gaussJordan (fun r c => s.mem.read (mat + (survivors (k + p) k erased).getD r 0 * k + c)) k = none →
      exec .dec s = .next (s.completed .singularSubmatrix s.mem s.res))

/-- 42_coding.md R150 to R152: DEC. When every check passes, the submatrix has an inverse and the command does not alias, byte o of erased
block e becomes the decoding row of e applied to the survivors, and no byte outside the erased blocks changes. -/
def Obligations.DecCompletes : Prop :=
  ∀ (s : State) (inv : Rows), s.taint = .none → s.mem.wf = true →
    let len := (s.snap.args[0]).toNat
    let k := (s.snap.args[1]).toNat
    let p := (s.snap.args[2]).toNat
    let mat := (s.snap.args[3]).toNat
    let cw := (s.snap.args[4]).toNat
    let erased := erasureList s.mem (s.snap.args[5]).toNat (s.snap.args[6]).toNat
    let surv := survivors (k + p) k erased
    let addr := descAddr s.mem cw
    let row := fun e c => if e < k then entry inv e c
      else xorSum (fun t => gmul (s.mem.read (mat + e * k + t)) (entry inv t c)) k
    validKP k p = true → (s.snap.args[6]).toNat ≤ p → inRange s.params.memSize mat ((k + p) * k) = true →
    inRange s.params.memSize (s.snap.args[5]).toNat (s.snap.args[6]).toNat = true → erasuresOk (k + p) erased = true →
    descriptorsOk s.params.memSize s.mem cw (k + p) len = true →
    gaussJordan (submatrix s.mem mat k surv) k = some inv →
    s.fp = footprintOf .dec s.params.memSize s.mem s.snap.args → s.fp.aliases = false →
      ∃ m : Memory, exec .dec s = .next (s.completed .success m s.res) ∧ m.wf = true ∧
        (∀ e ∈ erased, ∀ o < len, m.read (addr e + o) =
          xorSum (fun c => gmul (row e c) (s.mem.read (addr (surv.getD c 0) + o))) k) ∧
        ∀ a, (∀ e ∈ erased, a < addr e ∨ addr e + len ≤ a) → m.read a = s.mem.read a

/-- 42_coding.md R149: the survivors are K distinct indices that are not erased, ascending, and the smallest such. -/
def Obligations.SurvivorsAreTheSmallestUnerased : Prop :=
  ∀ (n k : Nat) (erased : List Nat), erased.Nodup → (∀ e ∈ erased, e < n) → k + erased.length ≤ n →
    (survivors n k erased).length = k ∧ (survivors n k erased).Pairwise (· < ·) ∧
    (∀ i ∈ survivors n k erased, i < n ∧ i ∉ erased) ∧
    ∀ i < n, i ∉ erased → i ∉ survivors n k erased → ∀ j ∈ survivors n k erased, j < i

/-- 42_coding.md R154, 20_memory.md R64: the order of the erasure list does not matter: a list in another order passes the same checks, has the
same survivors, and, when the erased blocks do not overlap, the writes of its DEC leave the same MEM. -/
def Obligations.ErasureOrderDoesNotMatter : Prop :=
  (∀ (n k : Nat) (es es' : List Nat), es.Perm es' →
    survivors n k es = survivors n k es' ∧ erasuresOk n es = erasuresOk n es') ∧
  ∀ (m : Memory) (len mat k p cw : Nat) (inv : Rows) (es es' : List Nat), m.wf = true → es.Perm es' → es.Nodup →
    (∀ e ∈ es, ∀ e' ∈ es, e ≠ e' →
      (⟨descAddr m cw e, len⟩ : Region).overlaps ⟨descAddr m cw e', len⟩ = false) →
    Memory.apply m (decodeWrites m len mat k cw (survivors (k + p) k es) inv es) =
      Memory.apply m (decodeWrites m len mat k cw (survivors (k + p) k es') inv es')

/-- 42_coding.md R153: the round trip. `word i o` is the byte at offset o of block i before the loss, the coding blocks being the products of
the matrix's parity rows with the data blocks. DEC restores every erased block exactly. -/
def Obligations.RecoveryRestoresErasedBlocks : Prop :=
  ∀ (s : State) (word : Nat → Nat → Byte), s.taint = .none → s.mem.wf = true →
    let len := (s.snap.args[0]).toNat
    let k := (s.snap.args[1]).toNat
    let p := (s.snap.args[2]).toNat
    let mat := (s.snap.args[3]).toNat
    let cw := (s.snap.args[4]).toNat
    let erased := erasureList s.mem (s.snap.args[5]).toNat (s.snap.args[6]).toNat
    validKP k p = true → (s.snap.args[6]).toNat ≤ p → inRange s.params.memSize mat ((k + p) * k) = true →
    inRange s.params.memSize (s.snap.args[5]).toNat (s.snap.args[6]).toNat = true → erasuresOk (k + p) erased = true →
    descriptorsOk s.params.memSize s.mem cw (k + p) len = true →
    s.fp = footprintOf .dec s.params.memSize s.mem s.snap.args → s.fp.aliases = false →
    (∀ i < k, ∀ j < k, matRead s.mem mat k i j = if i = j then 1 else 0) →
    (∀ i < k + p, k ≤ i → ∀ o < len,
      word i o = xorSum (fun c => gmul (matRead s.mem mat k i c) (word c o)) k) →
    (∀ i < k + p, i ∉ erased → ∀ o < len, s.mem.read (descAddr s.mem cw i + o) = word i o) →
    gaussJordan (submatrix s.mem mat k (survivors (k + p) k erased)) k ≠ none →
      ∃ t, exec .dec s = .next t ∧ t.err = .success ∧
        ∀ e ∈ erased, ∀ o < len, t.mem.read (descAddr s.mem cw e + o) = word e o

/-! ### All commands -/

/-- 60_exceptions.md R178, 10_state.md R36, 70_reset_and_hazards.md R205: the Complete step of every command, on every state: BUSY = 0, DONE = 1, a code
the command can produce, FP empty, TAINT = NONE; CTRL, the ARG registers, CMD_LAST, SNAP, CMDERR, the parameters and the HOST unchanged;
RESULT changed only by a scalar command that succeeds. MEM: without a WILD race, and with the footprint of its acceptance, every byte
outside the command's write set reads as before. -/
def Obligations.EveryCommandCompletes : Prop :=
  ∀ (i : Instr) (s : State), ∃ t, exec i s = .next t ∧
    t.busy = false ∧ t.done = true ∧ t.err ∈ codesOf i ∧ t.fp = Footprint.empty ∧ t.taint = .none ∧
    t.ie = s.ie ∧ t.args = s.args ∧ t.cmdLast = s.cmdLast ∧ t.snap = s.snap ∧ t.cmderr = s.cmderr ∧
    t.params = s.params ∧ t.prog = s.prog ∧ t.hpc = s.hpc ∧ t.hbytes = s.hbytes ∧ t.last = s.last ∧
    t.trace = s.trace ∧ t.halted = s.halted ∧ t.sched = s.sched ∧
    (t.res ≠ s.res → (i = .gfmul ∨ i = .gfdiv ∨ i = .gfinv) ∧ t.err = .success) ∧
    (s.taint ≠ .wild → s.fp = footprintOf i s.params.memSize s.mem s.snap.args →
      ∀ a, s.fp.inWrite a = false → t.mem.read a = s.mem.read a)

/-- 60_exceptions.md R176: a command that raises an error writes no byte of MEM and leaves RESULT unchanged, for every code; a race is not an
error. The second part says it of the Complete step, so of an illegal word too. -/
def Obligations.ErrorsWriteNothing : Prop :=
  (∀ (i : Instr) (s t : State), s.taint = .none → exec i s = .next t → t.err ≠ .success →
    t.mem = s.mem ∧ t.res = s.res ∧ t.draws = s.draws) ∧
  ∀ s t : State, s.taint = .none → s.busy = true → unitStep s = .next t → t.err ≠ .success →
    t.mem = s.mem ∧ t.res = s.res ∧ t.draws = s.draws

/-- 20_memory.md R66: without a race, the code is the one the checks give, whether the command aliases or not; when it aliases and the code is 0,
every byte outside FP.W is unchanged, for a command that has the footprint of its acceptance. -/
def Obligations.AliasingNeverChangesTheCode : Prop :=
  ∀ (i : Instr) (s t : State), s.taint = .none →
    s.fp = footprintOf i s.params.memSize s.mem s.snap.args → exec i s = .next t →
    t.err = (runOf i s).code ∧
    (t.err ≠ .success → t.mem = s.mem) ∧
    ∀ a, s.fp.inWrite a = false → t.mem.read a = s.mem.read a

/-- 20_memory.md R60: a command writes MEM only at addresses in FP.W, each in a write region that passed InRange; and FP.W (R59) holds no
more than that: a command whose checks pass writes every byte of it. -/
def Obligations.WritesStayInTheWriteSet : Prop :=
  ∀ (i : Instr) (s : State),
    (∀ w ∈ (runOf i s).writes,
      (footprintOf i s.params.memSize s.mem s.snap.args).inWrite w.1 = true ∧ w.1 < s.params.memSize) ∧
    ((runOf i s).code = .success →
      ∀ a, (footprintOf i s.params.memSize s.mem s.snap.args).inWrite a = true →
        ∃ w ∈ (runOf i s).writes, w.1 = a)

/-- 60_exceptions.md R181 (and the reads of 20_memory.md R60): with the same operands and the same MEM contents in the read set, a command gives the
same code, the same writes and the same result byte. -/
def Obligations.ResultDependsOnTheReadSetAlone : Prop :=
  ∀ (i : Instr) (s t : State), sameInputs i s t → runOf i s = runOf i t

/-- 10_state.md R28, 70_reset_and_hazards.md R212: a write to the ARG registers does not affect a command already accepted. -/
def Obligations.ArgWritesDoNotReachACommandInFlight : Prop :=
  ∀ (i : Instr) (s : State) (v : Vector Word 8), ∃ t,
    exec i s = .next t ∧ exec i { s with args := v } = .next { t with args := v }

/-- 70_reset_and_hazards.md R205: the Complete step under a race. The code is one the command can produce and RESULT is unchanged; under DATA every
byte outside FP.W is unchanged. -/
def Obligations.RacedCommandsCompleteWithinTheirCodes : Prop :=
  ∀ (i : Instr) (s : State), s.taint ≠ .none →
    ∃ t, exec i s = .next t ∧ t.err ∈ codesOf i ∧ t.res = s.res ∧
      (s.taint = .data → ∀ a, s.fp.inWrite a = false → t.mem.read a = s.mem.read a)

/-! ### Races and the HOST -/

/-- 20_memory.md R69, 30_encoding.md R93 (one step per byte): an access to MEM while BUSY = 1, at whatever byte of an `mw` or `mr` the HOST has come
to. TAINT is raised to WILD by a write in FP.C, to at least DATA by one elsewhere in FP, and not by one outside; a read of a byte of FP.W
is a draw, `Config.drawByte`, of which nothing can be proved. A byte written by another agent races in the same way (log 17, DESIGN CHOICE).
That the byte of a racing write lands in MEM is log 15 (DEDUCED). -/
def Obligations.HostRacesFollowTheFootprint : Prop :=
  ∀ s : State, s.busy = true →
    let stored := fun (a : Nat) (b : Byte) (t : State) =>
      t.mem = s.mem.write a b ∧ t.fp = s.fp ∧ t.busy = true ∧
      (s.fp.inCtrl a = true → t.taint = .wild) ∧
      (s.fp.inCtrl a = false → (s.fp.inReadSet a = true ∨ s.fp.inWrite a = true) →
        t.taint = if s.taint = .wild then .wild else .data) ∧
      (s.fp.inReadSet a = false → s.fp.inWrite a = false → t.taint = s.taint)
    (∀ addr bytes b, bytes[s.hbytes]? = some b → addr + s.hbytes < s.params.memSize →
      ∃ t, hostOpStep (.mw addr bytes) s = .next t ∧ stored (addr + s.hbytes) b t) ∧
    (∀ a b, s.turn = .platformWrite a b → a < s.params.memSize → ∃ t, step s = .next t ∧ stored a b t) ∧
    (∀ addr count, s.hbytes < count → addr + s.hbytes < s.params.memSize →
      ∃ t, hostOpStep (.mr addr count) s = .next t ∧ t.mem = s.mem ∧ t.fp = s.fp ∧ t.taint = s.taint ∧ t.busy = true ∧
        (s.fp.inWrite (addr + s.hbytes) = true →
          t.trace = s.trace ++ [.byte (Config.drawByte s.draws)] ∧ t.draws = s.draws + 1) ∧
        (s.fp.inWrite (addr + s.hbytes) = false →
          t.trace = s.trace ++ [.byte (s.mem.read (addr + s.hbytes))] ∧ t.draws = s.draws))

/-- 70_reset_and_hazards.md R208, R209: a HOST that respects the hazards never raises TAINT and never sets CMDERR. -/
def Obligations.RespectfulHostNeverRaces : Prop :=
  ∀ s t : State, s.hostRespects = true → hostStep s = .next t →
    (s.taint = .none → t.taint = .none) ∧ (s.cmderr = false → t.cmderr = false)

/-- 30_encoding.md R93: the host operations. `wr` and `rd` are the register accesses, `bbusy` branches on last[0], `halt` stops the HOST; each but
`halt` and a taken `bbusy` moves hpc on; `mw` and `mr` move it on at their last byte. The HOST is not halted and hpc names the operation.
The model's choices: the byte of an `mw` during BUSY that races lands in MEM, log 15 (DEDUCED; with BUSY = 0 it is 20_memory.md R56), and
`bbusy` tests bit 0 of the last value read, of whichever register, log 13 (DEDUCED). -/
def Obligations.HostOperationsMoveHpc : Prop :=
  ∀ (s : State) (op : HostOp), s.halted = false → s.prog[s.hpc]? = some op →
    (∀ r v, op = .wr r v → hostStep s = .next (advanceHost (writeReg r.offset v s))) ∧
    (∀ r, op = .rd r → ∃ t, hostStep s = .next t ∧ t.last = readReg r.offset s ∧
      t.trace = s.trace ++ [.word (readReg r.offset s)] ∧ t.hpc = s.hpc + 1 ∧ t.mem = s.mem) ∧
    (∀ label, op = .bbusy label → ∃ t, hostStep s = .next t ∧ t.mem = s.mem ∧ t.trace = s.trace ∧
      t.hpc = if s.last.getLsbD 0 then label else s.hpc + 1) ∧
    (op = .halt → hostStep s = .next { s with halted := true }) ∧
    (∀ addr bytes b, op = .mw addr bytes → bytes[s.hbytes]? = some b → addr + s.hbytes < s.params.memSize →
      ∃ t, hostStep s = .next t ∧ t.mem = s.mem.write (addr + s.hbytes) b ∧
        (s.hbytes + 1 < bytes.length → t.hpc = s.hpc ∧ t.hbytes = s.hbytes + 1) ∧
        (s.hbytes + 1 = bytes.length → t.hpc = s.hpc + 1 ∧ t.hbytes = 0)) ∧
    (∀ addr count, op = .mr addr count → s.hbytes < count → addr + s.hbytes < s.params.memSize → s.busy = false →
      ∃ t, hostStep s = .next t ∧ t.mem = s.mem ∧ t.trace = s.trace ++ [.byte (s.mem.read (addr + s.hbytes))] ∧
        (s.hbytes + 1 < count → t.hpc = s.hpc ∧ t.hbytes = s.hbytes + 1) ∧
        (s.hbytes + 1 = count → t.hpc = s.hpc + 1 ∧ t.hbytes = 0))

/-! ### Steps of the whole system -/

/-- A step runs the decoded command (70_reset_and_hazards.md R205): when it is the UNIT's turn, a command is in flight and its word decodes to a
well-formed i, the step is exec of i on the state with the turn taken. -/
def Obligations.StepRunsTheDecodedCommand : Prop :=
  ∀ (s : State) (i : Instr), s.turn = .unit → s.busy = true → decode s.snap.cmd = .command i → i.wellFormed = true →
    step s = exec i { s with sched := s.sched.tail }

/-- 70_reset_and_hazards.md R206: Complete is enabled whenever BUSY = 1: when it is the UNIT's turn, and so when the list of turns is used up (log 1),
the command in flight completes in this step. -/
def Obligations.ABusyUnitCompletesOnItsTurn : Prop :=
  ∀ s : State, s.busy = true → (s.turn = .unit ∨ s.sched = []) →
    ∃ t, step s = .next t ∧ t.busy = false ∧ t.done = true

/-- 70_reset_and_hazards.md R206: nothing a HOST does, short of a soft reset, stops a command from completing: a step takes BUSY from 1 to 0 only as the
UNIT's Complete, a power-on reset, or the HOST's soft reset. -/
def Obligations.OnlyCompletionOrResetEndsBusy : Prop :=
  ∀ s t : State, step s = .next t → s.busy = true → t.busy = false →
    (s.turn = .unit ∧ t.done = true) ∨ s.turn = .powerOn ∨
    (s.turn = .host ∧ ∃ v : Word, v.getLsbD 1 = true ∧
      (s.prog[s.hpc]? = some (.wr .ctrl v) ∨
        s.prog[s.hpc]? = some (.busWr 32 (s.params.regBase + 0x04) v)))

/-- 70_reset_and_hazards.md R214: a run that has ended stays ended: a turn of the HOST or of the UNIT changes nothing (log 12). -/
def Obligations.AnEndedRunStaysEnded : Prop :=
  ∀ s : State, s.halted = true → s.busy = false → (s.turn = .host ∨ s.turn = .unit) →
    step s = .next { s with sched := s.sched.tail }

/-- The invariant holds right after reset, for every MEM_SIZE the spec allows (70_reset_and_hazards.md R201, R216). -/
def Obligations.InvariantHoldsAtReset : Prop :=
  State.reset.Inv ∧ State.reset.footprintCurrent ∧
  ∀ p : Params, 1 ≤ p.memSize → p.memSize ≤ 2 ^ 32 → (State.resetWith p).Inv ∧ (State.resetWith p).footprintCurrent

/-- Every step keeps the invariant `State.Inv`: MEM canonical and inside MEM_SIZE, nothing in flight while BUSY = 0, DONE and ERR 0 while BUSY = 1,
the footprint inside MEM, the scalar commands and illegal words never tainted (10_state.md R24, R31; 20_memory.md R50, R59; 70_reset_and_hazards.md
R205). -/
def Obligations.EveryStepKeepsTheInvariant : Prop :=
  ∀ s t : State, s.Inv → step s = .next t → t.Inv

/-- Every step keeps the footprint current: as long as TAINT is not WILD, FP, fixed at acceptance (10_state.md R31), is the footprint the snapshot and
the MEM of now give (20_memory.md R59). So a Complete step without a WILD race works on what was accepted. -/
def Obligations.EveryStepKeepsTheFootprintCurrent : Prop :=
  ∀ s t : State, s.footprintCurrent → step s = .next t → t.footprintCurrent

/-! ### Footprints -/

/-- 20_memory.md R59: the table of footprints, byte by byte, for K + P ≤ 256 and N ≤ 256. `inside m a n x` says that x is a byte of the region
(a, n) and the region passes InRange (one that fails is left out). For DEC: the erasure list passes InRange and names blocks below K + P;
what its footprint is otherwise is log 14, and so is S when ECOUNT > P, which R149 does not define (DESIGN CHOICE). -/
def Obligations.FootprintFollowsTheTable : Prop :=
  ∀ (size : Nat) (m : Memory) (args : Vector Word 8) (x : Nat),
    let v := fun q : Fin 8 => (args[q]).toNat
    let inside := fun a n : Nat => a ≤ x ∧ x < a + n ∧ a + n ≤ size
    let blk := fun cw i len : Nat => inside (memRead m (cw + 8 * i) 4) len
    (∀ i, i = .gfmul ∨ i = .gfdiv ∨ i = .gfinv → footprintOf i size m args = Footprint.empty) ∧
    (v 0 + v 1 ≤ 256 → ∀ mode,
      let fp := footprintOf (.genm mode) size m args
      fp.inReadSet x = false ∧ (fp.inWrite x = true ↔ inside (v 2) ((v 0 + v 1) * v 0))) ∧
    (v 0 ≤ 256 →
      let fp := footprintOf .invm size m args
      fp.inCtrl x = false ∧ (fp.inReadSet x = true ↔ inside (v 1) (v 0 * v 0)) ∧
      (fp.inWrite x = true ↔ inside (v 2) (v 0 * v 0))) ∧
    (v 0 + v 1 ≤ 256 →
      let fp := footprintOf .tbls size m args
      fp.inCtrl x = false ∧ (fp.inReadSet x = true ↔ inside (v 2 + v 0 * v 0) (v 1 * v 0)) ∧
      (fp.inWrite x = true ↔ inside (v 3) (32 * v 0 * v 1))) ∧
    (v 1 + v 2 ≤ 256 →
      let fp := footprintOf .enc size m args
      (fp.inCtrl x = true ↔ inside (v 4) (8 * (v 1 + v 2))) ∧
      (fp.inReadSet x = true ↔ fp.inCtrl x = true ∨ inside (v 3) (32 * v 1 * v 2) ∨
        (v 4 + 8 * (v 1 + v 2) ≤ size ∧ ∃ i < v 1, blk (v 4) i (v 0))) ∧
      (fp.inWrite x = true ↔
        v 4 + 8 * (v 1 + v 2) ≤ size ∧ ∃ i < v 1 + v 2, v 1 ≤ i ∧ blk (v 4) i (v 0))) ∧
    (v 1 + v 2 ≤ 256 → (v 6 = 0 ∨ v 5 + v 6 ≤ size) →
      (∀ e ∈ erasureList m (v 5) (v 6), e < v 1 + v 2) →
      let fp := footprintOf .dec size m args
      let es := erasureList m (v 5) (v 6)
      (fp.inCtrl x = true ↔ inside (v 4) (8 * (v 1 + v 2)) ∨ inside (v 5) (v 6)) ∧
      (fp.inReadSet x = true ↔ fp.inCtrl x = true ∨ inside (v 3) ((v 1 + v 2) * v 1) ∨
        (v 4 + 8 * (v 1 + v 2) ≤ size ∧ ∃ i ∈ survivors (v 1 + v 2) (v 1) es, blk (v 4) i (v 0))) ∧
      (fp.inWrite x = true ↔
        v 4 + 8 * (v 1 + v 2) ≤ size ∧ ∃ e ∈ es, blk (v 4) e (v 0)))

/-! ### Launch premises (70_reset_and_hazards.md R216) -/

/-- 70_reset_and_hazards.md R216: the power-on reset and the soft reset establish unit_idle and no_pending_done. -/
def Obligations.ResetsEstablishTheLaunchPremises : Prop :=
  (∀ s : State, s.turn = .powerOn → ∃ t, step s = .next t ∧ t.unitIdle ∧ t.noPendingDone) ∧
  ∀ (s : State) (v : Word), v.getLsbD 1 = true →
    (writeReg 0x04 v s).unitIdle ∧ (writeReg 0x04 v s).noPendingDone

/-- 70_reset_and_hazards.md R216 with 20_memory.md R66, R69: over a run that starts idle and keeps its footprints disjoint, and in which no other agent
writes MEM (log 17), no command is ever tainted, and each Complete step of a command is exactly what its checks and writes give: no draw. -/
def Obligations.DisjointFootprintsMakeEveryCompletionExact : Prop :=
  ∀ s : State, s.unitIdle → s.disjointFootprints → (∀ a b, Turn.platformWrite a b ∉ s.sched) →
    ∀ t, s.reaches t → t.taint = .none ∧
      ∀ i, t.turn = .unit → t.busy = true → decode t.snap.cmd = .command i →
        step t = .next (t.popTurn.completed (runOf i t).code (Memory.apply t.mem (runOf i t).writes)
          ((runOf i t).result.getD t.res))

/-- 70_reset_and_hazards.md R216, 60_exceptions.md R171: with every region the command names in MEM (mem_size_ok), no check of a region fails: only the
other checks can raise InvalidParameters. -/
def Obligations.RegionsInMemLeaveOnlyTheOtherChecks : Prop :=
  ∀ (i : Instr) (s : State),
    (∀ r ∈ namedRegions i s.mem s.snap.args, inRange s.params.memSize r.base r.size = true) →
    let v := fun q : Fin 8 => (s.snap.args[q]).toNat
    let lengthsOk := ∀ b < v 1 + v 2, memRead s.mem (v 4 + 8 * b + 4) 4 = v 0
    (∀ mode, i = .genm mode → 1 ≤ v 0 → v 0 + v 1 ≤ 256 → (runOf i s).code = .success) ∧
    (i = .invm → 1 ≤ v 0 → v 0 ≤ 256 →
      (runOf i s).code = .success ∨ (runOf i s).code = .singularSubmatrix) ∧
    (i = .tbls → 1 ≤ v 0 → v 0 + v 1 ≤ 256 → (runOf i s).code = .success) ∧
    (i = .enc → 1 ≤ v 1 → v 1 + v 2 ≤ 256 → lengthsOk → (runOf i s).code = .success) ∧
    (i = .dec → 1 ≤ v 1 → v 1 + v 2 ≤ 256 → v 6 ≤ v 2 → lengthsOk →
      (∀ e ∈ erasureList s.mem (v 5) (v 6), e < v 1 + v 2) → (erasureList s.mem (v 5) (v 6)).Nodup →
      (runOf i s).code = .success ∨ (runOf i s).code = .singularSubmatrix)

/-- 70_reset_and_hazards.md R216: a clean entry whose claim relies on success has every region the program names in MEM, so no `mw` or `mr` of the
program and no command of the run stops on the size of MEM: a turn of the HOST at an `mw` or `mr` that is not done answers a next state. -/
def Obligations.CleanEntryNeverLeavesMem : Prop :=
  ∀ (s : State) (named : Nat → Byte), s.CleanEntry named True →
    ∀ t, s.reaches t → t.turn = .host →
      ∀ op, t.prog[t.hpc]? = some op → (∀ width addr v, op ≠ .busWr width addr v) → (∀ width addr, op ≠ .busRd width addr) →
        ∃ u, step t = .next u

/-- 70_reset_and_hazards.md R216 with 60_exceptions.md R181: mem_layout fixes the first command. From an idle entry whose layout holds, and when the
bytes the command reads are still as they were at entry, every MEM that holds the named values where the command reads gives the same code, writes and result. -/
def Obligations.MemLayoutFixesTheFirstCommand : Prop :=
  ∀ (s t : State) (named : Nat → Byte) (i : Instr), s.unitIdle → s.memLayout named → s.firstAccepts t →
    (∀ a, t.fp.inReadSet a = true → t.mem.read a = s.mem.read a) →
    decode t.snap.cmd = .command i →
    ∀ m : Memory, (∀ a, t.fp.inReadSet a = true → m.read a = named a) → runOf i { t with mem := m } = runOf i t
end

