-- ==== Sys2Proof/Laws/State.lean ====
section
/-! SUPPORT. One lemma per field per named update of State, true by rfl. -/
namespace Sys2Proof.Machine

/-! ### drawBytes -/

@[simp] theorem drawBytes_params (addrs : List Nat) (s : State) : (drawBytes addrs s).params = s.params := rfl
@[simp] theorem drawBytes_ie (addrs : List Nat) (s : State) : (drawBytes addrs s).ie = s.ie := rfl
@[simp] theorem drawBytes_busy (addrs : List Nat) (s : State) : (drawBytes addrs s).busy = s.busy := rfl
@[simp] theorem drawBytes_done (addrs : List Nat) (s : State) : (drawBytes addrs s).done = s.done := rfl
@[simp] theorem drawBytes_cmderr (addrs : List Nat) (s : State) : (drawBytes addrs s).cmderr = s.cmderr := rfl
@[simp] theorem drawBytes_err (addrs : List Nat) (s : State) : (drawBytes addrs s).err = s.err := rfl
@[simp] theorem drawBytes_cmdLast (addrs : List Nat) (s : State) : (drawBytes addrs s).cmdLast = s.cmdLast := rfl
@[simp] theorem drawBytes_res (addrs : List Nat) (s : State) : (drawBytes addrs s).res = s.res := rfl
@[simp] theorem drawBytes_args (addrs : List Nat) (s : State) : (drawBytes addrs s).args = s.args := rfl
@[simp] theorem drawBytes_snap (addrs : List Nat) (s : State) : (drawBytes addrs s).snap = s.snap := rfl
@[simp] theorem drawBytes_fp (addrs : List Nat) (s : State) : (drawBytes addrs s).fp = s.fp := rfl
@[simp] theorem drawBytes_taint (addrs : List Nat) (s : State) : (drawBytes addrs s).taint = s.taint := rfl
@[simp] theorem drawBytes_mem (addrs : List Nat) (s : State) : (drawBytes addrs s).mem = s.mem.scramble s.draws addrs := rfl
@[simp] theorem drawBytes_prog (addrs : List Nat) (s : State) : (drawBytes addrs s).prog = s.prog := rfl
@[simp] theorem drawBytes_hpc (addrs : List Nat) (s : State) : (drawBytes addrs s).hpc = s.hpc := rfl
@[simp] theorem drawBytes_hbytes (addrs : List Nat) (s : State) : (drawBytes addrs s).hbytes = s.hbytes := rfl
@[simp] theorem drawBytes_last (addrs : List Nat) (s : State) : (drawBytes addrs s).last = s.last := rfl
@[simp] theorem drawBytes_trace (addrs : List Nat) (s : State) : (drawBytes addrs s).trace = s.trace := rfl
@[simp] theorem drawBytes_halted (addrs : List Nat) (s : State) : (drawBytes addrs s).halted = s.halted := rfl
@[simp] theorem drawBytes_sched (addrs : List Nat) (s : State) : (drawBytes addrs s).sched = s.sched := rfl
@[simp] theorem drawBytes_draws (addrs : List Nat) (s : State) : (drawBytes addrs s).draws = s.draws + addrs.length := rfl

/-! ### drawErr -/

@[simp] theorem drawErr_params (codes : List ErrCode) (s : State) : (drawErr codes s).params = s.params := rfl
@[simp] theorem drawErr_ie (codes : List ErrCode) (s : State) : (drawErr codes s).ie = s.ie := rfl
@[simp] theorem drawErr_busy (codes : List ErrCode) (s : State) : (drawErr codes s).busy = s.busy := rfl
@[simp] theorem drawErr_done (codes : List ErrCode) (s : State) : (drawErr codes s).done = s.done := rfl
@[simp] theorem drawErr_cmderr (codes : List ErrCode) (s : State) : (drawErr codes s).cmderr = s.cmderr := rfl
@[simp] theorem drawErr_err (codes : List ErrCode) (s : State) : (drawErr codes s).err = codes.getD (Config.drawIndex s.draws % codes.length) .success := rfl
@[simp] theorem drawErr_cmdLast (codes : List ErrCode) (s : State) : (drawErr codes s).cmdLast = s.cmdLast := rfl
@[simp] theorem drawErr_res (codes : List ErrCode) (s : State) : (drawErr codes s).res = s.res := rfl
@[simp] theorem drawErr_args (codes : List ErrCode) (s : State) : (drawErr codes s).args = s.args := rfl
@[simp] theorem drawErr_snap (codes : List ErrCode) (s : State) : (drawErr codes s).snap = s.snap := rfl
@[simp] theorem drawErr_fp (codes : List ErrCode) (s : State) : (drawErr codes s).fp = s.fp := rfl
@[simp] theorem drawErr_taint (codes : List ErrCode) (s : State) : (drawErr codes s).taint = s.taint := rfl
@[simp] theorem drawErr_mem (codes : List ErrCode) (s : State) : (drawErr codes s).mem = s.mem := rfl
@[simp] theorem drawErr_prog (codes : List ErrCode) (s : State) : (drawErr codes s).prog = s.prog := rfl
@[simp] theorem drawErr_hpc (codes : List ErrCode) (s : State) : (drawErr codes s).hpc = s.hpc := rfl
@[simp] theorem drawErr_hbytes (codes : List ErrCode) (s : State) : (drawErr codes s).hbytes = s.hbytes := rfl
@[simp] theorem drawErr_last (codes : List ErrCode) (s : State) : (drawErr codes s).last = s.last := rfl
@[simp] theorem drawErr_trace (codes : List ErrCode) (s : State) : (drawErr codes s).trace = s.trace := rfl
@[simp] theorem drawErr_halted (codes : List ErrCode) (s : State) : (drawErr codes s).halted = s.halted := rfl
@[simp] theorem drawErr_sched (codes : List ErrCode) (s : State) : (drawErr codes s).sched = s.sched := rfl
@[simp] theorem drawErr_draws (codes : List ErrCode) (s : State) : (drawErr codes s).draws = s.draws + 1 := rfl

/-! ### retire -/

@[simp] theorem retire_params (s : State) : (retire s).params = s.params := rfl
@[simp] theorem retire_ie (s : State) : (retire s).ie = s.ie := rfl
@[simp] theorem retire_busy (s : State) : (retire s).busy = false := rfl
@[simp] theorem retire_done (s : State) : (retire s).done = true := rfl
@[simp] theorem retire_cmderr (s : State) : (retire s).cmderr = s.cmderr := rfl
@[simp] theorem retire_err (s : State) : (retire s).err = s.err := rfl
@[simp] theorem retire_cmdLast (s : State) : (retire s).cmdLast = s.cmdLast := rfl
@[simp] theorem retire_res (s : State) : (retire s).res = s.res := rfl
@[simp] theorem retire_args (s : State) : (retire s).args = s.args := rfl
@[simp] theorem retire_snap (s : State) : (retire s).snap = s.snap := rfl
@[simp] theorem retire_fp (s : State) : (retire s).fp = Footprint.empty := rfl
@[simp] theorem retire_taint (s : State) : (retire s).taint = .none := rfl
@[simp] theorem retire_mem (s : State) : (retire s).mem = s.mem := rfl
@[simp] theorem retire_prog (s : State) : (retire s).prog = s.prog := rfl
@[simp] theorem retire_hpc (s : State) : (retire s).hpc = s.hpc := rfl
@[simp] theorem retire_hbytes (s : State) : (retire s).hbytes = s.hbytes := rfl
@[simp] theorem retire_last (s : State) : (retire s).last = s.last := rfl
@[simp] theorem retire_trace (s : State) : (retire s).trace = s.trace := rfl
@[simp] theorem retire_halted (s : State) : (retire s).halted = s.halted := rfl
@[simp] theorem retire_sched (s : State) : (retire s).sched = s.sched := rfl
@[simp] theorem retire_draws (s : State) : (retire s).draws = s.draws := rfl

/-! ### resetUnit -/

@[simp] theorem resetUnit_params (s : State) : (resetUnit s).params = s.params := rfl
@[simp] theorem resetUnit_ie (s : State) : (resetUnit s).ie = false := rfl
@[simp] theorem resetUnit_busy (s : State) : (resetUnit s).busy = false := rfl
@[simp] theorem resetUnit_done (s : State) : (resetUnit s).done = false := rfl
@[simp] theorem resetUnit_cmderr (s : State) : (resetUnit s).cmderr = false := rfl
@[simp] theorem resetUnit_err (s : State) : (resetUnit s).err = .success := rfl
@[simp] theorem resetUnit_cmdLast (s : State) : (resetUnit s).cmdLast = 0 := rfl
@[simp] theorem resetUnit_res (s : State) : (resetUnit s).res = 0 := rfl
@[simp] theorem resetUnit_args (s : State) : (resetUnit s).args = Vector.replicate 8 0 := rfl
@[simp] theorem resetUnit_snap (s : State) : (resetUnit s).snap = { cmd := 0, args := Vector.replicate 8 0 } := rfl
@[simp] theorem resetUnit_fp (s : State) : (resetUnit s).fp = Footprint.empty := rfl
@[simp] theorem resetUnit_taint (s : State) : (resetUnit s).taint = .none := rfl
@[simp] theorem resetUnit_mem (s : State) : (resetUnit s).mem = s.mem := rfl
@[simp] theorem resetUnit_prog (s : State) : (resetUnit s).prog = s.prog := rfl
@[simp] theorem resetUnit_hpc (s : State) : (resetUnit s).hpc = s.hpc := rfl
@[simp] theorem resetUnit_hbytes (s : State) : (resetUnit s).hbytes = s.hbytes := rfl
@[simp] theorem resetUnit_last (s : State) : (resetUnit s).last = s.last := rfl
@[simp] theorem resetUnit_trace (s : State) : (resetUnit s).trace = s.trace := rfl
@[simp] theorem resetUnit_halted (s : State) : (resetUnit s).halted = s.halted := rfl
@[simp] theorem resetUnit_sched (s : State) : (resetUnit s).sched = s.sched := rfl
@[simp] theorem resetUnit_draws (s : State) : (resetUnit s).draws = s.draws := rfl

/-! ### accept -/

@[simp] theorem accept_params (w : Word) (s : State) : (accept w s).params = s.params := rfl
@[simp] theorem accept_ie (w : Word) (s : State) : (accept w s).ie = s.ie := rfl
@[simp] theorem accept_busy (w : Word) (s : State) : (accept w s).busy = true := rfl
@[simp] theorem accept_done (w : Word) (s : State) : (accept w s).done = false := rfl
@[simp] theorem accept_cmderr (w : Word) (s : State) : (accept w s).cmderr = s.cmderr := rfl
@[simp] theorem accept_err (w : Word) (s : State) : (accept w s).err = .success := rfl
@[simp] theorem accept_cmdLast (w : Word) (s : State) : (accept w s).cmdLast = w := rfl
@[simp] theorem accept_res (w : Word) (s : State) : (accept w s).res = s.res := rfl
@[simp] theorem accept_args (w : Word) (s : State) : (accept w s).args = s.args := rfl
@[simp] theorem accept_snap (w : Word) (s : State) : (accept w s).snap = { cmd := w, args := s.args } := rfl
@[simp] theorem accept_fp (w : Word) (s : State) : (accept w s).fp = footprint s.params.memSize s.mem { cmd := w, args := s.args } := rfl
@[simp] theorem accept_taint (w : Word) (s : State) : (accept w s).taint = .none := rfl
@[simp] theorem accept_mem (w : Word) (s : State) : (accept w s).mem = s.mem := rfl
@[simp] theorem accept_prog (w : Word) (s : State) : (accept w s).prog = s.prog := rfl
@[simp] theorem accept_hpc (w : Word) (s : State) : (accept w s).hpc = s.hpc := rfl
@[simp] theorem accept_hbytes (w : Word) (s : State) : (accept w s).hbytes = s.hbytes := rfl
@[simp] theorem accept_last (w : Word) (s : State) : (accept w s).last = s.last := rfl
@[simp] theorem accept_trace (w : Word) (s : State) : (accept w s).trace = s.trace := rfl
@[simp] theorem accept_halted (w : Word) (s : State) : (accept w s).halted = s.halted := rfl
@[simp] theorem accept_sched (w : Word) (s : State) : (accept w s).sched = s.sched := rfl
@[simp] theorem accept_draws (w : Word) (s : State) : (accept w s).draws = s.draws := rfl

/-! ### writeStatus -/

@[simp] theorem writeStatus_params (v : Word) (s : State) : (writeStatus v s).params = s.params := rfl
@[simp] theorem writeStatus_ie (v : Word) (s : State) : (writeStatus v s).ie = s.ie := rfl
@[simp] theorem writeStatus_busy (v : Word) (s : State) : (writeStatus v s).busy = s.busy := rfl
@[simp] theorem writeStatus_done (v : Word) (s : State) : (writeStatus v s).done = (s.done && !v.getLsbD 1) := rfl
@[simp] theorem writeStatus_cmderr (v : Word) (s : State) : (writeStatus v s).cmderr = (s.cmderr && !v.getLsbD 2) := rfl
@[simp] theorem writeStatus_err (v : Word) (s : State) : (writeStatus v s).err = s.err := rfl
@[simp] theorem writeStatus_cmdLast (v : Word) (s : State) : (writeStatus v s).cmdLast = s.cmdLast := rfl
@[simp] theorem writeStatus_res (v : Word) (s : State) : (writeStatus v s).res = s.res := rfl
@[simp] theorem writeStatus_args (v : Word) (s : State) : (writeStatus v s).args = s.args := rfl
@[simp] theorem writeStatus_snap (v : Word) (s : State) : (writeStatus v s).snap = s.snap := rfl
@[simp] theorem writeStatus_fp (v : Word) (s : State) : (writeStatus v s).fp = s.fp := rfl
@[simp] theorem writeStatus_taint (v : Word) (s : State) : (writeStatus v s).taint = s.taint := rfl
@[simp] theorem writeStatus_mem (v : Word) (s : State) : (writeStatus v s).mem = s.mem := rfl
@[simp] theorem writeStatus_prog (v : Word) (s : State) : (writeStatus v s).prog = s.prog := rfl
@[simp] theorem writeStatus_hpc (v : Word) (s : State) : (writeStatus v s).hpc = s.hpc := rfl
@[simp] theorem writeStatus_hbytes (v : Word) (s : State) : (writeStatus v s).hbytes = s.hbytes := rfl
@[simp] theorem writeStatus_last (v : Word) (s : State) : (writeStatus v s).last = s.last := rfl
@[simp] theorem writeStatus_trace (v : Word) (s : State) : (writeStatus v s).trace = s.trace := rfl
@[simp] theorem writeStatus_halted (v : Word) (s : State) : (writeStatus v s).halted = s.halted := rfl
@[simp] theorem writeStatus_sched (v : Word) (s : State) : (writeStatus v s).sched = s.sched := rfl
@[simp] theorem writeStatus_draws (v : Word) (s : State) : (writeStatus v s).draws = s.draws := rfl

/-! ### advanceHost -/

@[simp] theorem advanceHost_params (s : State) : (advanceHost s).params = s.params := rfl
@[simp] theorem advanceHost_ie (s : State) : (advanceHost s).ie = s.ie := rfl
@[simp] theorem advanceHost_busy (s : State) : (advanceHost s).busy = s.busy := rfl
@[simp] theorem advanceHost_done (s : State) : (advanceHost s).done = s.done := rfl
@[simp] theorem advanceHost_cmderr (s : State) : (advanceHost s).cmderr = s.cmderr := rfl
@[simp] theorem advanceHost_err (s : State) : (advanceHost s).err = s.err := rfl
@[simp] theorem advanceHost_cmdLast (s : State) : (advanceHost s).cmdLast = s.cmdLast := rfl
@[simp] theorem advanceHost_res (s : State) : (advanceHost s).res = s.res := rfl
@[simp] theorem advanceHost_args (s : State) : (advanceHost s).args = s.args := rfl
@[simp] theorem advanceHost_snap (s : State) : (advanceHost s).snap = s.snap := rfl
@[simp] theorem advanceHost_fp (s : State) : (advanceHost s).fp = s.fp := rfl
@[simp] theorem advanceHost_taint (s : State) : (advanceHost s).taint = s.taint := rfl
@[simp] theorem advanceHost_mem (s : State) : (advanceHost s).mem = s.mem := rfl
@[simp] theorem advanceHost_prog (s : State) : (advanceHost s).prog = s.prog := rfl
@[simp] theorem advanceHost_hpc (s : State) : (advanceHost s).hpc = s.hpc + 1 := rfl
@[simp] theorem advanceHost_hbytes (s : State) : (advanceHost s).hbytes = 0 := rfl
@[simp] theorem advanceHost_last (s : State) : (advanceHost s).last = s.last := rfl
@[simp] theorem advanceHost_trace (s : State) : (advanceHost s).trace = s.trace := rfl
@[simp] theorem advanceHost_halted (s : State) : (advanceHost s).halted = s.halted := rfl
@[simp] theorem advanceHost_sched (s : State) : (advanceHost s).sched = s.sched := rfl
@[simp] theorem advanceHost_draws (s : State) : (advanceHost s).draws = s.draws := rfl

/-! ### record -/

@[simp] theorem record_params (x : TraceItem) (s : State) : (record x s).params = s.params := rfl
@[simp] theorem record_ie (x : TraceItem) (s : State) : (record x s).ie = s.ie := rfl
@[simp] theorem record_busy (x : TraceItem) (s : State) : (record x s).busy = s.busy := rfl
@[simp] theorem record_done (x : TraceItem) (s : State) : (record x s).done = s.done := rfl
@[simp] theorem record_cmderr (x : TraceItem) (s : State) : (record x s).cmderr = s.cmderr := rfl
@[simp] theorem record_err (x : TraceItem) (s : State) : (record x s).err = s.err := rfl
@[simp] theorem record_cmdLast (x : TraceItem) (s : State) : (record x s).cmdLast = s.cmdLast := rfl
@[simp] theorem record_res (x : TraceItem) (s : State) : (record x s).res = s.res := rfl
@[simp] theorem record_args (x : TraceItem) (s : State) : (record x s).args = s.args := rfl
@[simp] theorem record_snap (x : TraceItem) (s : State) : (record x s).snap = s.snap := rfl
@[simp] theorem record_fp (x : TraceItem) (s : State) : (record x s).fp = s.fp := rfl
@[simp] theorem record_taint (x : TraceItem) (s : State) : (record x s).taint = s.taint := rfl
@[simp] theorem record_mem (x : TraceItem) (s : State) : (record x s).mem = s.mem := rfl
@[simp] theorem record_prog (x : TraceItem) (s : State) : (record x s).prog = s.prog := rfl
@[simp] theorem record_hpc (x : TraceItem) (s : State) : (record x s).hpc = s.hpc := rfl
@[simp] theorem record_hbytes (x : TraceItem) (s : State) : (record x s).hbytes = s.hbytes := rfl
@[simp] theorem record_last (x : TraceItem) (s : State) : (record x s).last = s.last := rfl
@[simp] theorem record_trace (x : TraceItem) (s : State) : (record x s).trace = s.trace ++ [x] := rfl
@[simp] theorem record_halted (x : TraceItem) (s : State) : (record x s).halted = s.halted := rfl
@[simp] theorem record_sched (x : TraceItem) (s : State) : (record x s).sched = s.sched := rfl
@[simp] theorem record_draws (x : TraceItem) (s : State) : (record x s).draws = s.draws := rfl

/-! ### popTurn -/

@[simp] theorem popTurn_params (s : State) : (s.popTurn).params = s.params := rfl
@[simp] theorem popTurn_ie (s : State) : (s.popTurn).ie = s.ie := rfl
@[simp] theorem popTurn_busy (s : State) : (s.popTurn).busy = s.busy := rfl
@[simp] theorem popTurn_done (s : State) : (s.popTurn).done = s.done := rfl
@[simp] theorem popTurn_cmderr (s : State) : (s.popTurn).cmderr = s.cmderr := rfl
@[simp] theorem popTurn_err (s : State) : (s.popTurn).err = s.err := rfl
@[simp] theorem popTurn_cmdLast (s : State) : (s.popTurn).cmdLast = s.cmdLast := rfl
@[simp] theorem popTurn_res (s : State) : (s.popTurn).res = s.res := rfl
@[simp] theorem popTurn_args (s : State) : (s.popTurn).args = s.args := rfl
@[simp] theorem popTurn_snap (s : State) : (s.popTurn).snap = s.snap := rfl
@[simp] theorem popTurn_fp (s : State) : (s.popTurn).fp = s.fp := rfl
@[simp] theorem popTurn_taint (s : State) : (s.popTurn).taint = s.taint := rfl
@[simp] theorem popTurn_mem (s : State) : (s.popTurn).mem = s.mem := rfl
@[simp] theorem popTurn_prog (s : State) : (s.popTurn).prog = s.prog := rfl
@[simp] theorem popTurn_hpc (s : State) : (s.popTurn).hpc = s.hpc := rfl
@[simp] theorem popTurn_hbytes (s : State) : (s.popTurn).hbytes = s.hbytes := rfl
@[simp] theorem popTurn_last (s : State) : (s.popTurn).last = s.last := rfl
@[simp] theorem popTurn_trace (s : State) : (s.popTurn).trace = s.trace := rfl
@[simp] theorem popTurn_halted (s : State) : (s.popTurn).halted = s.halted := rfl
@[simp] theorem popTurn_sched (s : State) : (s.popTurn).sched = s.sched.tail := rfl
@[simp] theorem popTurn_draws (s : State) : (s.popTurn).draws = s.draws := rfl

/-! ### completed -/

@[simp] theorem completed_params (s : State) (code : ErrCode) (m : Memory) (r : Byte) : (s.completed code m r).params = s.params := rfl
@[simp] theorem completed_ie (s : State) (code : ErrCode) (m : Memory) (r : Byte) : (s.completed code m r).ie = s.ie := rfl
@[simp] theorem completed_busy (s : State) (code : ErrCode) (m : Memory) (r : Byte) : (s.completed code m r).busy = false := rfl
@[simp] theorem completed_done (s : State) (code : ErrCode) (m : Memory) (r : Byte) : (s.completed code m r).done = true := rfl
@[simp] theorem completed_cmderr (s : State) (code : ErrCode) (m : Memory) (r : Byte) : (s.completed code m r).cmderr = s.cmderr := rfl
@[simp] theorem completed_err (s : State) (code : ErrCode) (m : Memory) (r : Byte) : (s.completed code m r).err = code := rfl
@[simp] theorem completed_cmdLast (s : State) (code : ErrCode) (m : Memory) (r : Byte) : (s.completed code m r).cmdLast = s.cmdLast := rfl
@[simp] theorem completed_res (s : State) (code : ErrCode) (m : Memory) (r : Byte) : (s.completed code m r).res = r := rfl
@[simp] theorem completed_args (s : State) (code : ErrCode) (m : Memory) (r : Byte) : (s.completed code m r).args = s.args := rfl
@[simp] theorem completed_snap (s : State) (code : ErrCode) (m : Memory) (r : Byte) : (s.completed code m r).snap = s.snap := rfl
@[simp] theorem completed_fp (s : State) (code : ErrCode) (m : Memory) (r : Byte) : (s.completed code m r).fp = Footprint.empty := rfl
@[simp] theorem completed_taint (s : State) (code : ErrCode) (m : Memory) (r : Byte) : (s.completed code m r).taint = .none := rfl
@[simp] theorem completed_mem (s : State) (code : ErrCode) (m : Memory) (r : Byte) : (s.completed code m r).mem = m := rfl
@[simp] theorem completed_prog (s : State) (code : ErrCode) (m : Memory) (r : Byte) : (s.completed code m r).prog = s.prog := rfl
@[simp] theorem completed_hpc (s : State) (code : ErrCode) (m : Memory) (r : Byte) : (s.completed code m r).hpc = s.hpc := rfl
@[simp] theorem completed_hbytes (s : State) (code : ErrCode) (m : Memory) (r : Byte) : (s.completed code m r).hbytes = s.hbytes := rfl
@[simp] theorem completed_last (s : State) (code : ErrCode) (m : Memory) (r : Byte) : (s.completed code m r).last = s.last := rfl
@[simp] theorem completed_trace (s : State) (code : ErrCode) (m : Memory) (r : Byte) : (s.completed code m r).trace = s.trace := rfl
@[simp] theorem completed_halted (s : State) (code : ErrCode) (m : Memory) (r : Byte) : (s.completed code m r).halted = s.halted := rfl
@[simp] theorem completed_sched (s : State) (code : ErrCode) (m : Memory) (r : Byte) : (s.completed code m r).sched = s.sched := rfl
@[simp] theorem completed_draws (s : State) (code : ErrCode) (m : Memory) (r : Byte) : (s.completed code m r).draws = s.draws := rfl

end Sys2Proof.Machine
end

