-- ==== Sys2Proof/Laws/Memory.lean ====
section
/-! SUPPORT. The laws of MEM: read after write, the canonical form, lists of writes and draws, regions. -/
namespace Sys2Proof.Machine

/-! ### Read after write -/

theorem Memory.read_put (a : Nat) (b : Byte) (m : Memory) (x : Nat) (h : m.read a = Memory.unlisted) :
    (Memory.put a b m).read x = if x = a then b else m.read x := by
  unfold Memory.put
  split
  · next hb => split <;> simp_all
  · simp [Memory.read]

theorem Memory.read_below {lo : Nat} {m : Memory} (h : Memory.wfFrom lo m = true) {a : Nat} (ha : a < lo) :
    m.read a = Memory.unlisted := by
  induction m generalizing lo with
  | nil => rfl
  | cons c m ih =>
    obtain ⟨x, b⟩ := c
    simp only [Memory.wfFrom, Bool.and_eq_true, decide_eq_true_eq] at h
    obtain ⟨⟨hx, -⟩, hm⟩ := h
    simp only [Memory.read]
    rw [if_neg (by omega)]
    exact ih hm (by omega)

theorem Memory.wfFrom_mono {lo lo' : Nat} {m : Memory} (h : Memory.wfFrom lo m = true) (hle : lo' ≤ lo) :
    Memory.wfFrom lo' m = true := by
  cases m with
  | nil => rfl
  | cons c m =>
    obtain ⟨x, b⟩ := c
    simp only [Memory.wfFrom, Bool.and_eq_true, decide_eq_true_eq] at h ⊢
    exact ⟨⟨by omega, h.1.2⟩, h.2⟩

theorem Memory.wfFrom_put {lo a : Nat} {b : Byte} {m : Memory} (hlo : lo ≤ a)
    (h : Memory.wfFrom (a + 1) m = true) : Memory.wfFrom lo (Memory.put a b m) = true := by
  unfold Memory.put
  split
  · exact Memory.wfFrom_mono h (by omega)
  · next hb => simp [Memory.wfFrom, h, hlo, hb]

theorem Memory.wfFrom_write {lo : Nat} {m : Memory} (h : Memory.wfFrom lo m = true) {a : Nat} (ha : lo ≤ a)
    (b : Byte) : Memory.wfFrom lo (m.write a b) = true := by
  induction m generalizing lo with
  | nil => exact Memory.wfFrom_put ha rfl
  | cons c m ih =>
    obtain ⟨x, v⟩ := c
    have h' := h
    simp only [Memory.wfFrom, Bool.and_eq_true, decide_eq_true_eq] at h
    obtain ⟨⟨hx, hv⟩, hm⟩ := h
    simp only [Memory.write]
    split
    · refine Memory.wfFrom_put ha ?_
      simp only [Memory.wfFrom, Bool.and_eq_true, decide_eq_true_eq]
      exact ⟨⟨by omega, hv⟩, hm⟩
    · split
      · next heq => exact Memory.wfFrom_put ha (heq ▸ hm)
      · simp only [Memory.wfFrom, Bool.and_eq_true, decide_eq_true_eq]
        exact ⟨⟨hx, hv⟩, ih hm (by omega)⟩

/-- A write keeps the canonical form. -/
theorem Memory.wf_write {m : Memory} (h : m.wf = true) (a : Nat) (b : Byte) : (m.write a b).wf = true :=
  Memory.wfFrom_write h (Nat.zero_le a) b

theorem Memory.read_write_from {lo : Nat} {m : Memory} (h : Memory.wfFrom lo m = true) (a : Nat) (b : Byte)
    (x : Nat) : (m.write a b).read x = if x = a then b else m.read x := by
  induction m generalizing lo with
  | nil => exact Memory.read_put a b [] x rfl
  | cons c m ih =>
    obtain ⟨y, v⟩ := c
    have h' := h
    simp only [Memory.wfFrom, Bool.and_eq_true, decide_eq_true_eq] at h
    obtain ⟨⟨hy, hv⟩, hm⟩ := h
    simp only [Memory.write]
    split
    · next hlt =>
      refine Memory.read_put a b _ x (Memory.read_below (lo := y) ?_ hlt)
      simp only [Memory.wfFrom, Bool.and_eq_true, decide_eq_true_eq]
      exact ⟨⟨le_refl y, hv⟩, hm⟩
    · split
      · next heq =>
        subst heq
        rw [Memory.read_put a b m x (Memory.read_below hm (by omega))]
        simp only [Memory.read]
        split <;> rfl
      · next hne =>
        simp only [Memory.read]
        split
        · next hxy => subst hxy; rw [if_neg (by omega)]
        · exact ih hm

/-- What one byte reads as after a write of one byte (20_memory.md R56). -/
theorem Memory.read_write {m : Memory} (h : m.wf = true) (a : Nat) (b : Byte) (x : Nat) :
    (m.write a b).read x = if x = a then b else m.read x := Memory.read_write_from h a b x

theorem Memory.read_write_same {m : Memory} (h : m.wf = true) (a : Nat) (b : Byte) :
    (m.write a b).read a = b := by simp [Memory.read_write h]

theorem Memory.read_put_other {a x : Nat} (hx : x ≠ a) (b : Byte) (m : Memory) :
    (Memory.put a b m).read x = m.read x := by
  unfold Memory.put
  split
  · rfl
  · simp [Memory.read, hx]

/-- A write leaves every other address alone, in any list. -/
theorem Memory.read_write_other (m : Memory) {a x : Nat} (hx : x ≠ a) (b : Byte) :
    (m.write a b).read x = m.read x := by
  induction m with
  | nil => exact Memory.read_put_other hx b []
  | cons c m ih =>
    obtain ⟨y, v⟩ := c
    simp only [Memory.write]
    split
    · exact Memory.read_put_other hx b _
    · split
      · next heq => rw [Memory.read_put_other hx, Memory.read, if_neg (by omega)]
      · simp only [Memory.read, ih]

/-! ### Addresses stay inside MEM -/

theorem Memory.within_put {n a : Nat} {m : Memory} (h : m.within n = true) (ha : a < n) (b : Byte) :
    (Memory.put a b m).within n = true := by
  unfold Memory.put
  split
  · exact h
  · simpa [Memory.within, ha] using h

theorem Memory.within_write {n : Nat} {m : Memory} (h : m.within n = true) {a : Nat} (ha : a < n) (b : Byte) :
    (m.write a b).within n = true := by
  induction m with
  | nil => exact Memory.within_put rfl ha b
  | cons c m ih =>
    obtain ⟨x, v⟩ := c
    have hc : decide (x < n) = true ∧ Memory.within n m = true := by
      simpa [Memory.within] using h
    simp only [Memory.write]
    split
    · exact Memory.within_put h ha b
    · split
      · exact Memory.within_put hc.2 ha b
      · have := ih hc.2
        simp only [Memory.within, List.all_cons, Bool.and_eq_true]
        exact ⟨hc.1, this⟩

/-! ### Lists of writes -/

theorem Memory.wf_apply {m : Memory} (h : m.wf = true) (ws : List (Nat × Byte)) : (Memory.apply m ws).wf = true := by
  induction ws generalizing m with
  | nil => exact h
  | cons w ws ih => exact ih (Memory.wf_write h w.1 w.2)

theorem Memory.within_apply {n : Nat} {m : Memory} (h : m.within n = true) {ws : List (Nat × Byte)}
    (hw : ∀ w ∈ ws, w.1 < n) : (Memory.apply m ws).within n = true := by
  induction ws generalizing m with
  | nil => exact h
  | cons w ws ih =>
    exact ih (Memory.within_write h (hw w (by simp)) w.2) (fun v hv => hw v (by simp [hv]))

theorem Memory.apply_append (m : Memory) (ws vs : List (Nat × Byte)) :
    Memory.apply m (ws ++ vs) = Memory.apply (Memory.apply m ws) vs := by
  induction ws generalizing m with
  | nil => rfl
  | cons w ws ih => exact ih (m.write w.1 w.2)

/-- An address no write names reads as before. -/
theorem Memory.read_apply_other (m : Memory) {ws : List (Nat × Byte)} {x : Nat}
    (hx : ∀ w ∈ ws, w.1 ≠ x) : (Memory.apply m ws).read x = m.read x := by
  induction ws generalizing m with
  | nil => rfl
  | cons w ws ih =>
    rw [Memory.apply, ih _ (fun v hv => hx v (by simp [hv]))]
    exact Memory.read_write_other m (Ne.symm (hx w (by simp))) w.2

/-- An address all of whose writes give the same byte reads as that byte, when there is one. -/
theorem Memory.read_apply_same {m : Memory} (h : m.wf = true) {ws : List (Nat × Byte)} {x : Nat} {b : Byte}
    (hin : (x, b) ∈ ws) (hall : ∀ w ∈ ws, w.1 = x → w.2 = b) : (Memory.apply m ws).read x = b := by
  induction ws generalizing m with
  | nil => simp at hin
  | cons w ws ih =>
    have hw := Memory.wf_write h w.1 w.2
    rw [Memory.apply]
    by_cases hin' : (x, b) ∈ ws
    · exact ih hw hin' (fun v hv => hall v (by simp [hv]))
    · have hwx : w = (x, b) := by
        rcases List.mem_cons.1 hin with h1 | h1
        · exact h1.symm
        · exact absurd h1 hin'
      have hno : ∀ v ∈ ws, v.1 ≠ x := by
        intro v hv hvx
        have : v.2 = b := hall v (by simp [hv]) hvx
        exact hin' (by rw [← hvx, ← this]; exact hv)
      rw [Memory.read_apply_other _ hno]
      subst hwx
      exact Memory.read_write_same h x b

/-! ### Draws -/

theorem Memory.wf_scramble {m : Memory} (h : m.wf = true) (n : Nat) (as : List Nat) :
    (m.scramble n as).wf = true := by
  induction as generalizing m n with
  | nil => exact h
  | cons a as ih => exact ih (Memory.wf_write h _ _) _

theorem Memory.within_scramble {k : Nat} {m : Memory} (h : m.within k = true) (n : Nat) {as : List Nat}
    (ha : ∀ a ∈ as, a < k) : (m.scramble n as).within k = true := by
  induction as generalizing m n with
  | nil => exact h
  | cons a as ih =>
    exact ih (Memory.within_write h (ha a (by simp)) _) _ (fun x hx => ha x (by simp [hx]))

/-- An address that is not drawn reads as before. -/
theorem Memory.read_scramble_other (m : Memory) (n : Nat) {as : List Nat} {x : Nat}
    (hx : x ∉ as) : (m.scramble n as).read x = m.read x := by
  induction as generalizing m n with
  | nil => rfl
  | cons a as ih =>
    rw [Memory.scramble, ih _ _ (fun hc => hx (by simp [hc]))]
    exact Memory.read_write_other m (fun hc => hx (by simp [hc])) _

/-! ### Canonical memories that read alike are equal -/

theorem Memory.eq_of_read_from {lo : Nat} {m m' : Memory} (h : Memory.wfFrom lo m = true)
    (h' : Memory.wfFrom lo m' = true) (hr : ∀ a, m.read a = m'.read a) : m = m' := by
  induction m generalizing lo m' with
  | nil =>
    cases m' with
    | nil => rfl
    | cons c m' =>
      obtain ⟨x, b⟩ := c
      have := hr x
      simp only [Memory.wfFrom, Bool.and_eq_true, bne_iff_ne] at h'
      simp only [Memory.read, if_pos] at this
      exact absurd this.symm h'.1.2
  | cons c m ih =>
    obtain ⟨x, b⟩ := c
    simp only [Memory.wfFrom, Bool.and_eq_true, decide_eq_true_eq, bne_iff_ne] at h
    cases m' with
    | nil =>
      have := hr x
      simp only [Memory.read, if_pos] at this
      exact absurd this h.1.2
    | cons c' m' =>
      obtain ⟨y, v⟩ := c'
      simp only [Memory.wfFrom, Bool.and_eq_true, decide_eq_true_eq, bne_iff_ne] at h'
      have hxy : x = y := by
        rcases Nat.lt_trichotomy x y with hlt | heq | hgt
        · have := hr x
          simp only [Memory.read, if_pos] at this
          rw [if_neg (by omega), Memory.read_below h'.2 (by omega)] at this
          exact absurd this h.1.2
        · exact heq
        · have := hr y
          simp only [Memory.read, if_pos] at this
          rw [if_neg (by omega), Memory.read_below h.2 (by omega)] at this
          exact absurd this.symm h'.1.2
      subst hxy
      have hb : b = v := by simpa [Memory.read] using hr x
      subst hb
      have : m = m' := by
        refine ih h.2 h'.2 (fun a => ?_)
        by_cases hax : a = x
        · subst hax
          rw [Memory.read_below h.2 (by omega), Memory.read_below h'.2 (by omega)]
        · simpa [Memory.read, hax] using hr a
      rw [this]

/-- The canonical form is canonical: equal reads, equal data. -/
theorem Memory.eq_of_read {m m' : Memory} (h : m.wf = true) (h' : m'.wf = true)
    (hr : ∀ a, m.read a = m'.read a) : m = m' := Memory.eq_of_read_from h h' hr

/-! ### Regions -/

theorem Region.mem_addresses (r : Region) (a : Nat) : a ∈ r.addresses ↔ r.contains a = true := by
  simp [Region.addresses, Region.contains, List.mem_range'_1]

theorem regionsContain_iff (rs : List Region) (a : Nat) :
    regionsContain rs a = true ↔ ∃ r ∈ rs, r.base ≤ a ∧ a < r.base + r.size := by
  simp [regionsContain, Region.contains]

theorem Footprint.mem_writeAddresses (fp : Footprint) (a : Nat) :
    a ∈ fp.writeAddresses ↔ fp.inWrite a = true := by
  simp [Footprint.writeAddresses, Footprint.inWrite, regionsContain, Region.mem_addresses]

/-- Two regions overlap exactly when they share an address. -/
theorem Region.overlaps_iff (r q : Region) :
    r.overlaps q = true ↔ ∃ a, r.contains a = true ∧ q.contains a = true := by
  simp only [Region.overlaps, Region.contains, Bool.and_eq_true, decide_eq_true_eq]
  constructor
  · intro h
    exact ⟨max r.base q.base, by omega, by omega⟩
  · rintro ⟨a, h1, h2⟩
    omega

theorem inRange_iff (memSize a size : Nat) : inRange memSize a size = true ↔ size = 0 ∨ a + size ≤ memSize := by
  simp [inRange]

theorem mem_regionIfIn {memSize a size : Nat} {r : Region} (h : r ∈ regionIfIn memSize a size) :
    inRange memSize r.base r.size = true := by
  unfold regionIfIn at h
  split at h
  · simp only [List.mem_singleton] at h
    subst h
    assumption
  · simp at h

end Sys2Proof.Machine
end

