-- ==== Sys2Proof/Laws/Complete.lean ====
section
/-! SUPPORT. What the Complete step can do (70_reset_and_hazards.md R205): its frame, its code, its MEM; exec of every command is Complete of that command's Exec. -/
namespace Sys2Proof.Machine

/-- exec is the Complete step of what Exec yields (70_reset_and_hazards.md R205). -/
theorem exec_eq_complete (i : Instr) (s : State) : exec i s = .next (complete (codesOf i) (runOf i s) s) := by
  cases i <;> rfl

/-! ### The frame -/

@[simp] theorem settleClean_params (e : Effect) (s : State) : (settleClean e s).params = s.params := by
  unfold settleClean; split <;> rfl

@[simp] theorem settleClean_ie (e : Effect) (s : State) : (settleClean e s).ie = s.ie := by
  unfold settleClean; split <;> rfl

@[simp] theorem settleClean_cmderr (e : Effect) (s : State) : (settleClean e s).cmderr = s.cmderr := by
  unfold settleClean; split <;> rfl

@[simp] theorem settleClean_cmdLast (e : Effect) (s : State) : (settleClean e s).cmdLast = s.cmdLast := by
  unfold settleClean; split <;> rfl

@[simp] theorem settleClean_args (e : Effect) (s : State) : (settleClean e s).args = s.args := by
  unfold settleClean; split <;> rfl

@[simp] theorem settleClean_snap (e : Effect) (s : State) : (settleClean e s).snap = s.snap := by
  unfold settleClean; split <;> rfl

@[simp] theorem settleClean_prog (e : Effect) (s : State) : (settleClean e s).prog = s.prog := by
  unfold settleClean; split <;> rfl

@[simp] theorem settleClean_hpc (e : Effect) (s : State) : (settleClean e s).hpc = s.hpc := by
  unfold settleClean; split <;> rfl

@[simp] theorem settleClean_hbytes (e : Effect) (s : State) : (settleClean e s).hbytes = s.hbytes := by
  unfold settleClean; split <;> rfl

@[simp] theorem settleClean_last (e : Effect) (s : State) : (settleClean e s).last = s.last := by
  unfold settleClean; split <;> rfl

@[simp] theorem settleClean_trace (e : Effect) (s : State) : (settleClean e s).trace = s.trace := by
  unfold settleClean; split <;> rfl

@[simp] theorem settleClean_halted (e : Effect) (s : State) : (settleClean e s).halted = s.halted := by
  unfold settleClean; split <;> rfl

@[simp] theorem settleClean_sched (e : Effect) (s : State) : (settleClean e s).sched = s.sched := by
  unfold settleClean; split <;> rfl

@[simp] theorem settleClean_err (e : Effect) (s : State) : (settleClean e s).err = e.code := by
  unfold settleClean; split <;> rfl

@[simp] theorem settleClean_res (e : Effect) (s : State) : (settleClean e s).res = e.result.getD s.res := by
  unfold settleClean; split <;> rfl

@[simp] theorem complete_params (codes : List ErrCode) (e : Effect) (s : State) : (complete codes e s).params = s.params := by
  unfold complete; split <;> simp [drawAllMem, drawWriteSet]

@[simp] theorem complete_ie (codes : List ErrCode) (e : Effect) (s : State) : (complete codes e s).ie = s.ie := by
  unfold complete; split <;> simp [drawAllMem, drawWriteSet]

@[simp] theorem complete_cmderr (codes : List ErrCode) (e : Effect) (s : State) : (complete codes e s).cmderr = s.cmderr := by
  unfold complete; split <;> simp [drawAllMem, drawWriteSet]

@[simp] theorem complete_cmdLast (codes : List ErrCode) (e : Effect) (s : State) : (complete codes e s).cmdLast = s.cmdLast := by
  unfold complete; split <;> simp [drawAllMem, drawWriteSet]

@[simp] theorem complete_args (codes : List ErrCode) (e : Effect) (s : State) : (complete codes e s).args = s.args := by
  unfold complete; split <;> simp [drawAllMem, drawWriteSet]

@[simp] theorem complete_snap (codes : List ErrCode) (e : Effect) (s : State) : (complete codes e s).snap = s.snap := by
  unfold complete; split <;> simp [drawAllMem, drawWriteSet]

@[simp] theorem complete_prog (codes : List ErrCode) (e : Effect) (s : State) : (complete codes e s).prog = s.prog := by
  unfold complete; split <;> simp [drawAllMem, drawWriteSet]

@[simp] theorem complete_hpc (codes : List ErrCode) (e : Effect) (s : State) : (complete codes e s).hpc = s.hpc := by
  unfold complete; split <;> simp [drawAllMem, drawWriteSet]

@[simp] theorem complete_hbytes (codes : List ErrCode) (e : Effect) (s : State) : (complete codes e s).hbytes = s.hbytes := by
  unfold complete; split <;> simp [drawAllMem, drawWriteSet]

@[simp] theorem complete_last (codes : List ErrCode) (e : Effect) (s : State) : (complete codes e s).last = s.last := by
  unfold complete; split <;> simp [drawAllMem, drawWriteSet]

@[simp] theorem complete_trace (codes : List ErrCode) (e : Effect) (s : State) : (complete codes e s).trace = s.trace := by
  unfold complete; split <;> simp [drawAllMem, drawWriteSet]

@[simp] theorem complete_halted (codes : List ErrCode) (e : Effect) (s : State) : (complete codes e s).halted = s.halted := by
  unfold complete; split <;> simp [drawAllMem, drawWriteSet]

@[simp] theorem complete_sched (codes : List ErrCode) (e : Effect) (s : State) : (complete codes e s).sched = s.sched := by
  unfold complete; split <;> simp [drawAllMem, drawWriteSet]

@[simp] theorem complete_busy (codes : List ErrCode) (e : Effect) (s : State) : (complete codes e s).busy = false := by
  unfold complete; split <;> rfl

@[simp] theorem complete_done (codes : List ErrCode) (e : Effect) (s : State) : (complete codes e s).done = true := by
  unfold complete; split <;> rfl

@[simp] theorem complete_fp (codes : List ErrCode) (e : Effect) (s : State) : (complete codes e s).fp = Footprint.empty := by
  unfold complete; split <;> rfl

@[simp] theorem complete_taint (codes : List ErrCode) (e : Effect) (s : State) : (complete codes e s).taint = .none := by
  unfold complete; split <;> rfl

/-! ### The code -/

theorem drawErr_err_mem {codes : List ErrCode} (h : codes ≠ []) (s : State) : (drawErr codes s).err ∈ codes := by
  have hl : 0 < codes.length := List.length_pos_iff.2 h
  have hlt := Nat.mod_lt (Config.drawIndex s.draws) hl
  simp only [drawErr_err, List.getD_eq_getElem?_getD, List.getElem?_eq_getElem hlt, Option.getD_some]
  exact List.getElem_mem hlt

/-- The code of a completed command is one the command can produce. -/
theorem complete_err_mem {codes : List ErrCode} {e : Effect} (h : e.code ∈ codes) (s : State) :
    (complete codes e s).err ∈ codes := by
  have hne : codes ≠ [] := List.ne_nil_of_mem h
  unfold complete
  split
  · simpa [drawAllMem] using drawErr_err_mem hne s
  · simpa [drawWriteSet] using drawErr_err_mem hne s
  · simpa using h

/-- Without a race the code is the one the checks give; aliasing cannot change it (20_memory.md R66). -/
theorem complete_err_of_clean {s : State} (h : s.taint = .none) (codes : List ErrCode) (e : Effect) :
    (complete codes e s).err = e.code := by
  simp [complete, h]

/-- RESULT changes only by a result byte of a command that was not raced with. -/
theorem complete_res (codes : List ErrCode) (e : Effect) (s : State) :
    (complete codes e s).res = if s.taint = .none then e.result.getD s.res else s.res := by
  unfold complete
  split <;> simp_all [drawAllMem, drawWriteSet]

/-! ### The clean completion -/

/-- Without a race and without draws, Complete is the writes in order, RESULT, the code, and nothing else. -/
theorem complete_eq_completed {s : State} (codes : List ErrCode) {e : Effect} (h : s.taint = .none)
    (ha : e.code = .success → s.fp.aliases = false) :
    complete codes e s = s.completed e.code (Memory.apply s.mem e.writes) (e.result.getD s.res) := by
  have hc : ¬(e.code = .success ∧ s.fp.aliases = true) := fun hc => by simp [ha hc.1] at hc
  simp [complete, h, settleClean, hc, retire, State.completed]

/-- exec of a command that succeeds, without a race and without aliasing. -/
theorem exec_success {i : Instr} {s : State} (h : s.taint = .none) (ha : s.fp.aliases = false) :
    exec i s = .next (s.completed (runOf i s).code (Memory.apply s.mem (runOf i s).writes)
      ((runOf i s).result.getD s.res)) := by
  rw [exec_eq_complete, complete_eq_completed (codesOf i) h (fun _ => ha)]

/-- exec of a command that raises an error, without a race: aliasing does not matter. -/
theorem exec_raise {i : Instr} {s : State} {c : ErrCode} (h : s.taint = .none) (hc : c ≠ .success)
    (hr : runOf i s = Effect.raise c) : exec i s = .next (s.completed c s.mem s.res) := by
  rw [exec_eq_complete, complete_eq_completed (codesOf i) h (fun hs => by simp [hr, Effect.raise, hc] at hs), hr]
  rfl

/-! ### MEM after Complete -/

theorem complete_mem_wf (codes : List ErrCode) (e : Effect) {s : State} (h : s.mem.wf = true) :
    (complete codes e s).mem.wf = true := by
  unfold complete
  split
  · exact Memory.wf_scramble h _ _
  · exact Memory.wf_scramble h _ _
  · simp only [retire_mem]
    unfold settleClean
    split
    · exact Memory.wf_scramble (Memory.wf_apply h _) _ _
    · exact Memory.wf_apply h _

/-- Unless all of MEM is drawn, an address outside FP.W that the command does not write reads as before. -/
theorem complete_read_other {codes : List ErrCode} {e : Effect} {s : State} (ht : s.taint ≠ .wild)
    {x : Nat} (hfp : s.fp.inWrite x = false) (hx : ∀ w ∈ e.writes, w.1 ≠ x) :
    (complete codes e s).mem.read x = s.mem.read x := by
  have hd : x ∉ s.fp.writeAddresses := by
    rw [Footprint.mem_writeAddresses, hfp]; simp
  unfold complete
  split
  · contradiction
  · exact Memory.read_scramble_other _ _ hd
  · simp only [retire_mem]
    unfold settleClean
    split
    · exact (Memory.read_scramble_other _ _ hd).trans (Memory.read_apply_other _ hx)
    · exact Memory.read_apply_other _ hx

/-! ### Every command's Exec -/

/-- The code Exec yields is one the command can produce. -/
theorem runOf_code_mem (i : Instr) (s : State) : (runOf i s).code ∈ codesOf i := by
  cases i <;>
    simp only [runOf, codesOf, runGfmul, runGfdiv, runGfinv, runGenm, runInvm, runTbls, runEnc, runDec] <;>
    repeat' split
  all_goals simp [Effect.scalar, Effect.raise, Effect.wrote, codesParams, codesInvm, codesDec]

/-! ### The writes -/

theorem mem_matrixWrites {base rows cols : Nat} {elem : Nat → Nat → Byte} {w : Nat × Byte} :
    w ∈ matrixWrites base rows cols elem ↔ ∃ i < rows, ∃ j < cols, w = (base + i * cols + j, elem i j) := by
  simp only [matrixWrites, List.mem_flatMap, List.mem_range, List.mem_map]
  constructor
  · rintro ⟨i, hi, j, hj, rfl⟩; exact ⟨i, hi, j, hj, rfl⟩
  · rintro ⟨i, hi, j, hj, rfl⟩; exact ⟨i, hi, j, hj, rfl⟩

theorem mem_blockWrites {base len : Nat} {byte : Nat → Byte} {w : Nat × Byte} :
    w ∈ blockWrites base len byte ↔ ∃ o < len, w = (base + o, byte o) := by
  simp only [blockWrites, List.mem_map, List.mem_range]
  constructor
  · rintro ⟨o, ho, rfl⟩; exact ⟨o, ho, rfl⟩
  · rintro ⟨o, ho, rfl⟩; exact ⟨o, ho, rfl⟩

theorem mem_entryWrites {base : Nat} {c : Byte} {w : Nat × Byte} :
    w ∈ entryWrites base c ↔
      ∃ n < 16, w = (base + n, gmul c (BitVec.ofNat 8 n)) ∨
        w = (base + 16 + n, gmul c (BitVec.ofNat 8 n <<< 4)) := by
  simp [entryWrites]

/-- Row-major offsets are different for different elements. -/
theorem rowMajor_inj {cols i j i' j' : Nat} (hj : j < cols) (hj' : j' < cols) (h : i * cols + j = i' * cols + j') :
    i = i' ∧ j = j' := by
  have hc : 0 < cols := by omega
  have h1 : (i * cols + j) / cols = i := by
    rw [Nat.add_comm, Nat.add_mul_div_right _ _ hc, Nat.div_eq_of_lt hj, Nat.zero_add]
  have h2 : (i' * cols + j') / cols = i' := by
    rw [Nat.add_comm, Nat.add_mul_div_right _ _ hc, Nat.div_eq_of_lt hj', Nat.zero_add]
  have hi : i = i' := by rw [← h1, ← h2, h]
  subst hi
  exact ⟨rfl, by omega⟩

/-- A row-major offset of an R×C matrix is below R·C. -/
theorem rowMajor_lt {rows cols i j : Nat} (hi : i < rows) (hj : j < cols) : i * cols + j < rows * cols := by
  calc i * cols + j < i * cols + cols := by omega
    _ = (i + 1) * cols := by ring
    _ ≤ rows * cols := Nat.mul_le_mul_right _ hi

end Sys2Proof.Machine
end

