-- ==== Sys2Proof/Laws/Galois.lean ====
section
/-! SUPPORT. The shape of gmul as a sum over the bits of its second factor, and the XOR sum (40_field.md R101, 00_scope.md R12). -/
namespace Sys2Proof.Machine

/-- x·t(x) mod the polynomial is additive in t. -/
theorem xtime_xor : ∀ a b : Byte, xtime (a ^^^ b) = xtime a ^^^ xtime b := by
  intro a b
  have h7 : (a ^^^ b).getLsbD 7 = (a.getLsbD 7 ^^ b.getLsbD 7) := by simp
  have hs : (a ^^^ b) <<< 1 = (a <<< 1) ^^^ (b <<< 1) := by simp [BitVec.shiftLeft_xor_distrib]
  unfold xtime
  rw [h7, hs]
  have hr : ∀ x y : Byte, x ^^^ y = (x ^^^ reductionByte) ^^^ (y ^^^ reductionByte) := fun x y => by
    rw [show (x ^^^ reductionByte) ^^^ (y ^^^ reductionByte) = x ^^^ y ^^^ (reductionByte ^^^ reductionByte) by ac_rfl]
    simp
  cases a.getLsbD 7 <;> cases b.getLsbD 7
  · rfl
  · exact BitVec.xor_assoc _ _ _
  · simp only [Bool.xor_false, if_true, Bool.false_eq_true, if_false]
    ac_rfl
  · exact hr _ _

@[simp] theorem xtime_zero : xtime 0 = 0 := by decide

/-- The loop adds what it would add from 0 to the accumulator it starts with. -/
theorem gmulLoop_acc (b : Byte) (is : List Nat) (r t : Byte) :
    gmulLoop b is r t = r ^^^ gmulLoop b is 0 t := by
  induction is generalizing r t with
  | nil => simp [gmulLoop]
  | cons i is ih =>
    rw [gmulLoop, gmulLoop, ih]
    conv_rhs => rw [ih]
    split
    · simp [BitVec.xor_assoc]
    · simp

/-- The loop is additive in the factor it shifts. -/
theorem gmulLoop_xor_left (b : Byte) (is : List Nat) (t u : Byte) :
    gmulLoop b is 0 (t ^^^ u) = gmulLoop b is 0 t ^^^ gmulLoop b is 0 u := by
  induction is generalizing t u with
  | nil => simp [gmulLoop]
  | cons i is ih =>
    simp only [gmulLoop]
    rw [gmulLoop_acc, gmulLoop_acc (t := xtime t), gmulLoop_acc (t := xtime u), xtime_xor, ih]
    cases b.getLsbD i
    · simp
    · simp; ac_rfl

/-- Division by a nonzero element; nothing is said of division by 0 (40_field.md R105). -/
theorem gdiv_of_ne_zero {b : Byte} (h : b ≠ 0) (a : Byte) : gdiv a b = gmul a (ginv b) := if_neg h

@[simp] theorem xorSum_zero (f : Nat → Byte) : xorSum f 0 = 0 := rfl

@[simp] theorem xorSum_succ (f : Nat → Byte) (n : Nat) : xorSum f (n + 1) = xorSum f n ^^^ f n := rfl

theorem xorSum_congr {f g : Nat → Byte} {n : Nat} (h : ∀ i < n, f i = g i) : xorSum f n = xorSum g n := by
  induction n with
  | zero => rfl
  | succ n ih =>
    rw [xorSum_succ, xorSum_succ, ih (fun i hi => h i (by omega)), h n (by omega)]

theorem xorSum_xor (f g : Nat → Byte) (n : Nat) :
    xorSum (fun i => f i ^^^ g i) n = xorSum f n ^^^ xorSum g n := by
  induction n with
  | zero => simp
  | succ n ih => simp only [xorSum_succ, ih]; ac_rfl

theorem xorSum_const_zero (n : Nat) : xorSum (fun _ => 0) n = 0 := by
  induction n with
  | zero => rfl
  | succ n ih => rw [xorSum_succ, ih]; rfl

end Sys2Proof.Machine
end

