-- ==== Sys2Proof/Laws/Step.lean ====
section
/-! SUPPORT. What a step can do: one inversion lemma for step, one for the UNIT, one for the HOST. -/
namespace Sys2Proof.Machine

/-- t is u but for the HOST's own fields (30_encoding.md R93). -/
def HostOnly (u t : State) : Prop :=
  ∃ hpc hbytes last trace halted,
    t = { u with hpc := hpc, hbytes := hbytes, last := last, trace := trace, halted := halted }

theorem HostOnly.refl (s : State) : HostOnly s s := ⟨s.hpc, s.hbytes, s.last, s.trace, s.halted, rfl⟩

theorem HostOnly.trans {s t u : State} (h : HostOnly s t) (h' : HostOnly t u) : HostOnly s u := by
  obtain ⟨_, _, _, _, _, rfl⟩ := h
  obtain ⟨a, b, c, d, e, rfl⟩ := h'
  exact ⟨a, b, c, d, e, rfl⟩

theorem hostOnly_advanceHost (s : State) : HostOnly s (advanceHost s) :=
  ⟨s.hpc + 1, 0, s.last, s.trace, s.halted, rfl⟩

theorem hostOnly_advanceByte (n : Nat) (s : State) : HostOnly s (advanceByte n s) := by
  unfold advanceByte
  split
  · exact ⟨s.hpc, s.hbytes + 1, s.last, s.trace, s.halted, rfl⟩
  · exact hostOnly_advanceHost s

theorem hostOnly_record (x : TraceItem) (s : State) : HostOnly s (record x s) :=
  ⟨s.hpc, s.hbytes, s.last, s.trace ++ [x], s.halted, rfl⟩

theorem hostOnly_last (w : Word) (s : State) : HostOnly s { s with last := w } :=
  ⟨s.hpc, s.hbytes, w, s.trace, s.halted, rfl⟩

/-- What a step of the HOST can do to the unit and to MEM: nothing, a draw for a racing read, one register write,
or one byte stored (30_encoding.md R93, 10_state.md R20 to R29, 20_memory.md R69). -/
inductive HostEffect (s u : State) : Prop where
  | nothing (h : u = s)
  | racingRead (h : u = { s with draws := s.draws + 1 })
  | register (off : Nat) (v : Word) (h : u = writeReg off v s)
  | store (a : Nat) (b : Byte) (h : storeByte a b s = .next u)

theorem hostWrite_cases {width addr : Nat} {v : Word} {s t : State} (h : hostWrite width addr v s = .next t) :
    ∃ off, registerOffset s.params.regBase width addr = .ok off ∧ t = advanceHost (writeReg off v s) := by
  unfold hostWrite at h
  split at h
  · next off hoff =>
    injection h with h
    exact ⟨off, hoff, h.symm⟩
  · cases h

theorem hostRead_cases {width addr : Nat} {s t : State} (h : hostRead width addr s = .next t) :
    ∃ off, registerOffset s.params.regBase width addr = .ok off ∧
      t = advanceHost (record (.word (readReg off s)) { s with last := readReg off s }) := by
  unfold hostRead at h
  split at h
  · next off hoff =>
    injection h with h
    exact ⟨off, hoff, h.symm⟩
  · cases h

/-- One byte stored: the address is in MEM, the byte lands, and TAINT is the race rule's (20_memory.md R69). -/
theorem storeByte_cases {a : Nat} {b : Byte} {s t : State} (h : storeByte a b s = .next t) :
    a < s.params.memSize ∧
      t = { s with
            mem := s.mem.write a b
            taint := if s.busy then raceTaint s.fp a s.taint else s.taint } := by
  unfold storeByte at h
  split at h
  · next ha =>
    injection h with h
    exact ⟨ha, h.symm⟩
  · cases h

theorem hostStore_cases {addr : Nat} {bytes : List Byte} {s t : State} (h : hostStore addr bytes s = .next t) :
    (bytes[s.hbytes]? = none ∧ t = advanceHost s) ∨
      ∃ b u, bytes[s.hbytes]? = some b ∧ storeByte (addr + s.hbytes) b s = .next u ∧
        t = advanceByte bytes.length u := by
  unfold hostStore at h
  split at h
  · next hn =>
    injection h with h
    exact .inl ⟨hn, h.symm⟩
  · next b hb =>
    split at h
    · next u hu =>
      injection h with h
      exact .inr ⟨b, u, hb, hu, h.symm⟩
    · cases h
    · cases h

theorem loadByte_cases (a : Nat) (s : State) :
    (loadByte a s).2 = s ∨ (loadByte a s).2 = { s with draws := s.draws + 1 } := by
  unfold loadByte
  split
  · exact .inr rfl
  · exact .inl rfl

theorem hostLoad_effect {addr count : Nat} {s t : State} (h : hostLoad addr count s = .next t) :
    ∃ u, HostEffect s u ∧ HostOnly u t := by
  unfold hostLoad at h
  split at h
  · split at h
    · injection h with h
      refine ⟨(loadByte (addr + s.hbytes) s).2, ?_, ?_⟩
      · rcases loadByte_cases (addr + s.hbytes) s with hl | hl
        · exact .nothing hl
        · exact .racingRead hl
      · rw [← h]
        exact (hostOnly_record _ _).trans (hostOnly_advanceByte _ _)
    · cases h
  · injection h with h
    exact ⟨s, .nothing rfl, h ▸ hostOnly_advanceHost s⟩

/-- Every host operation is one HostEffect and a change of the HOST's own fields. -/
theorem hostOpStep_effect {op : HostOp} {s t : State} (h : hostOpStep op s = .next t) :
    ∃ u, HostEffect s u ∧ HostOnly u t := by
  have hw : ∀ width addr v, hostWrite width addr v s = .next t → ∃ u, HostEffect s u ∧ HostOnly u t := by
    intro width addr v hv
    obtain ⟨off, -, rfl⟩ := hostWrite_cases hv
    exact ⟨_, .register off v rfl, hostOnly_advanceHost _⟩
  have hr : ∀ width addr, hostRead width addr s = .next t → ∃ u, HostEffect s u ∧ HostOnly u t := by
    intro width addr hv
    obtain ⟨off, -, rfl⟩ := hostRead_cases hv
    exact ⟨s, .nothing rfl,
      ((hostOnly_last _ _).trans (hostOnly_record _ _)).trans (hostOnly_advanceHost _)⟩
  cases op with
  | wr r v => exact hw _ _ _ h
  | rd r => exact hr _ _ h
  | busWr width addr v => exact hw _ _ _ h
  | busRd width addr => exact hr _ _ h
  | mr addr count => exact hostLoad_effect h
  | mw addr bytes =>
    rcases hostStore_cases h with ⟨-, rfl⟩ | ⟨b, u, -, hu, rfl⟩
    · exact ⟨s, .nothing rfl, hostOnly_advanceHost s⟩
    · exact ⟨u, .store _ b hu, hostOnly_advanceByte _ u⟩
  | bbusy label =>
    simp only [hostOpStep, Host.Outcome.next.injEq] at h
    refine ⟨s, .nothing rfl, h ▸ ?_⟩
    unfold hostBranch
    split
    · exact ⟨label, 0, s.last, s.trace, s.halted, rfl⟩
    · exact hostOnly_advanceHost s
  | halt =>
    simp only [hostOpStep, Host.Outcome.next.injEq] at h
    exact ⟨s, .nothing rfl, h ▸ ⟨s.hpc, s.hbytes, s.last, s.trace, true, rfl⟩⟩

/-- Every step of the HOST is one HostEffect and a change of the HOST's own fields. -/
theorem hostStep_effect {s t : State} (h : hostStep s = .next t) : ∃ u, HostEffect s u ∧ HostOnly u t := by
  unfold hostStep at h
  split at h
  · injection h with h
    exact ⟨s, .nothing rfl, h ▸ HostOnly.refl s⟩
  · split at h
    · injection h with h
      exact ⟨s, .nothing rfl, h ▸ HostOnly.refl s⟩
    · exact hostOpStep_effect h

/-- What a register write can do (10_state.md R20 to R29). -/
theorem writeReg_cases (off : Nat) (v : Word) (s : State) :
    (∃ i : Fin 8, writeReg off v s = { s with args := s.args.set i v }) ∨
    (off = 0x04 ∧ writeReg off v s = writeCtrl v s) ∨
    (off = 0x08 ∧ writeReg off v s = writeStatus v s) ∨
    (off = 0x0C ∧ writeReg off v s = writeCmd v s) ∨ writeReg off v s = s := by
  unfold writeReg
  split
  · next i _ => exact .inl ⟨i, rfl⟩
  · split
    · next h => exact .inr (.inl ⟨h, rfl⟩)
    · split
      · next h => exact .inr (.inr (.inl ⟨h, rfl⟩))
      · split
        · next h => exact .inr (.inr (.inr (.inl ⟨h, rfl⟩)))
        · exact .inr (.inr (.inr (.inr rfl)))

/-- The UNIT always answers a next state: nothing while BUSY = 0, else the Complete step of a command or of an illegal
word (70_reset_and_hazards.md R205). -/
theorem unitStep_cases (s : State) :
    (s.busy = false ∧ unitStep s = .next s) ∨
    (∃ i, s.busy = true ∧ decode s.snap.cmd = .command i ∧
      unitStep s = .next (complete (codesOf i) (runOf i s) s)) ∨
    (∃ why, s.busy = true ∧ decode s.snap.cmd = .illegal why ∧ unitStep s = .next (completeIllegal s)) := by
  unfold unitStep
  cases hb : s.busy with
  | false => exact .inl ⟨rfl, rfl⟩
  | true =>
    cases hd : decode s.snap.cmd with
    | command i => exact .inr (.inl ⟨i, rfl, rfl, exec_eq_complete i s⟩)
    | illegal why => exact .inr (.inr ⟨why, rfl, rfl, rfl⟩)

/-- A step is a step of the HOST, of the UNIT, a power-on reset, or a byte stored by the platform. -/
theorem step_cases {s t : State} (h : step s = .next t) :
    (s.turn = .host ∧ hostStep s.popTurn = .next t) ∨
    (s.turn = .unit ∧ unitStep s.popTurn = .next t) ∨
    (s.turn = .powerOn ∧ t = powerOnReset s.popTurn) ∨
    (∃ a b, s.turn = .platformWrite a b ∧ storeByte a b s.popTurn = .next t) := by
  unfold step agentStep at h
  split at h
  · next ht => exact .inl ⟨ht, h⟩
  · next ht => exact .inr (.inl ⟨ht, h⟩)
  · next ht =>
    injection h with h
    exact .inr (.inr (.inl ⟨ht, h.symm⟩))
  · next a b ht => exact .inr (.inr (.inr ⟨a, b, ht, h⟩))

theorem abortDraws_sched_prog_params (s : State) :
    (abortDraws s).sched = s.sched ∧ (abortDraws s).prog = s.prog ∧ (abortDraws s).params = s.params := by
  unfold abortDraws
  split
  · split <;> exact ⟨rfl, rfl, rfl⟩
  · exact ⟨rfl, rfl, rfl⟩

/-- A register write touches neither the turns, nor the program, nor the parameters. -/
theorem writeReg_sched_prog_params (off : Nat) (v : Word) (s : State) :
    (writeReg off v s).sched = s.sched ∧ (writeReg off v s).prog = s.prog ∧ (writeReg off v s).params = s.params := by
  rcases writeReg_cases off v s with ⟨i, h⟩ | ⟨-, h⟩ | ⟨-, h⟩ | ⟨-, h⟩ | h <;> rw [h]
  · exact ⟨rfl, rfl, rfl⟩
  · simp only [writeCtrl]
    split
    · exact abortDraws_sched_prog_params _
    · exact ⟨rfl, rfl, rfl⟩
  · exact ⟨rfl, rfl, rfl⟩
  · unfold writeCmd
    split <;> exact ⟨rfl, rfl, rfl⟩
  · exact ⟨rfl, rfl, rfl⟩

theorem HostEffect.sched_prog_params {s u : State} (h : HostEffect s u) :
    u.sched = s.sched ∧ u.prog = s.prog ∧ u.params = s.params := by
  rcases h with rfl | rfl | ⟨off, v, rfl⟩ | ⟨a, b, hu⟩
  · exact ⟨rfl, rfl, rfl⟩
  · exact ⟨rfl, rfl, rfl⟩
  · exact writeReg_sched_prog_params off v s
  · obtain ⟨-, rfl⟩ := storeByte_cases hu
    exact ⟨rfl, rfl, rfl⟩

theorem HostOnly.sched_prog_params {u t : State} (h : HostOnly u t) :
    t.sched = u.sched ∧ t.prog = u.prog ∧ t.params = u.params := by
  obtain ⟨_, _, _, _, _, rfl⟩ := h
  exact ⟨rfl, rfl, rfl⟩

/-- Every step takes one turn, and changes neither the program nor the parameters. -/
theorem step_sched_prog_params {s t : State} (h : step s = .next t) :
    t.sched = s.sched.tail ∧ t.prog = s.prog ∧ t.params = s.params := by
  rcases step_cases h with ⟨-, h⟩ | ⟨-, h⟩ | ⟨-, rfl⟩ | ⟨a, b, -, h⟩
  · obtain ⟨u, hu, hto⟩ := hostStep_effect h
    have h1 := hu.sched_prog_params
    have h2 := hto.sched_prog_params
    exact ⟨h2.1.trans h1.1, h2.2.1.trans h1.2.1, h2.2.2.trans h1.2.2⟩
  · rcases unitStep_cases s.popTurn with ⟨-, hu⟩ | ⟨i, -, -, hu⟩ | ⟨w, -, -, hu⟩ <;>
      rw [hu] at h <;> injection h with h <;> rw [← h]
    · exact ⟨rfl, rfl, rfl⟩
    · simp [State.popTurn]
    · simp [completeIllegal, State.popTurn]
  · exact ⟨rfl, rfl, rfl⟩
  · obtain ⟨-, rfl⟩ := storeByte_cases h
    exact ⟨rfl, rfl, rfl⟩

end Sys2Proof.Machine
end

