-- ==== Sys2Proof/Laws/Footprint.lean ====
section
/-! SUPPORT. Footprints: their regions lie in MEM, and what their bytes are (20_memory.md R59). -/
namespace Sys2Proof.Machine

theorem regionsInMem_regionIfIn (memSize a size : Nat) : regionsInMem memSize (regionIfIn memSize a size) = true := by
  unfold regionIfIn
  split
  · simpa [regionsInMem] using ‹_›
  · rfl

theorem regionsInMem_append {memSize : Nat} {rs qs : List Region} (h : regionsInMem memSize rs = true)
    (h' : regionsInMem memSize qs = true) : regionsInMem memSize (rs ++ qs) = true := by
  simp only [regionsInMem, List.all_append, Bool.and_eq_true] at *
  exact ⟨h, h'⟩

theorem regionsInMem_blockRegions (memSize : Nat) (m : Memory) (cw n len : Nat) (is : List Nat) :
    regionsInMem memSize (blockRegions memSize m cw n len is) = true := by
  unfold blockRegions
  split
  · simp only [regionsInMem, List.all_flatMap, List.all_eq_true]
    intro i _ r hr
    exact mem_regionIfIn hr
  · rfl

/-- Every region of a footprint lies in MEM (20_memory.md R59). -/
theorem footprint_inMem (memSize : Nat) (m : Memory) (snap : Snapshot) :
    regionsInMem memSize (footprint memSize m snap).ctrl = true ∧
    regionsInMem memSize (footprint memSize m snap).read = true ∧
    regionsInMem memSize (footprint memSize m snap).write = true := by
  unfold footprint
  split
  · next i _ =>
    cases i <;>
      simp only [footprintOf, footprintGenm, footprintInvm, footprintTbls, footprintEnc, footprintDec] <;>
      (try split) <;>
      refine ⟨?_, ?_, ?_⟩ <;>
      first
        | rfl
        | exact regionsInMem_regionIfIn _ _ _
        | exact regionsInMem_blockRegions _ _ _ _ _ _
        | exact regionsInMem_append (regionsInMem_regionIfIn _ _ _) (regionsInMem_regionIfIn _ _ _)
        | exact regionsInMem_append (regionsInMem_regionIfIn _ _ _) (regionsInMem_blockRegions _ _ _ _ _ _)
  · exact ⟨rfl, rfl, rfl⟩

/-- A command that reaches no MEM has an empty footprint (40_field.md R110, 30_encoding.md R89). -/
theorem footprint_of_noMem (memSize : Nat) (m : Memory) {snap : Snapshot} (h : snap.noMem = true) :
    footprint memSize m snap = Footprint.empty := by
  unfold Snapshot.noMem at h
  unfold footprint
  split
  · next i hi =>
    rw [hi] at h
    cases i <;> simp_all [footprintOf]
  · rfl

/-- The bytes of a region that is in range are those of the region list with it alone. -/
theorem regionsContain_regionIfIn {memSize a size : Nat} (h : inRange memSize a size = true) (x : Nat) :
    regionsContain (regionIfIn memSize a size) x = true ↔ a ≤ x ∧ x < a + size := by
  simp [regionIfIn, h, regionsContain, Region.contains]

/-- The bytes of the block regions of the indices listed, when the descriptor table is in range (20_memory.md R59). -/
theorem regionsContain_blockRegions {memSize : Nat} {m : Memory} {cw n len : Nat} {is : List Nat}
    (h : inRange memSize cw (Config.descSize * n) = true) (x : Nat) :
    regionsContain (blockRegions memSize m cw n len is) x = true ↔
      ∃ i ∈ is, i < n ∧ inRange memSize (descAddr m cw i) len = true ∧
        descAddr m cw i ≤ x ∧ x < descAddr m cw i + len := by
  simp only [regionsContain_iff, blockRegions, h, if_true, List.mem_flatMap, List.mem_filter, decide_eq_true_eq]
  constructor
  · rintro ⟨r, ⟨i, ⟨hi, hin⟩, hr⟩, hx⟩
    unfold regionIfIn at hr
    split at hr
    · next hr' =>
      simp only [List.mem_singleton] at hr
      subst hr
      exact ⟨i, hi, hin, hr', hx⟩
    · simp at hr
  · rintro ⟨i, hi, hin, hr, hx⟩
    exact ⟨⟨descAddr m cw i, len⟩, ⟨i, ⟨hi, hin⟩, by simp [regionIfIn, hr]⟩, hx⟩

theorem regionsContain_append (rs qs : List Region) (x : Nat) :
    regionsContain (rs ++ qs) x = (regionsContain rs x || regionsContain qs x) := by
  simp [regionsContain]

/-- Bytes read as a number depend on those bytes alone (00_scope.md R10). -/
theorem memRead_congr {m m' : Memory} {a n : Nat} (h : ∀ x, a ≤ x → x < a + n → m.read x = m'.read x) :
    memRead m a n = memRead m' a n := by
  induction n generalizing a with
  | zero => rfl
  | succ n ih =>
    simp only [memRead]
    rw [h a (by omega) (by omega), ih (fun x hx hx' => h x (by omega) (by omega))]

end Sys2Proof.Machine
end

