-- ==== Sys2Proof/Laws/PerInstr.lean ====
section
/-! SUPPORT. One lemma per command: the fields of its word (30_encoding.md R80 to R84). -/
namespace Sys2Proof.Laws.EncodedWord

/-- The command is well formed; its word holds its OP in [7:0], its M in bit 8 and 0 in [31:9], and the row of its mnemonic, and no
other, selects it (30_encoding.md R80 to R84). -/
def Statement (i : Instr) : Prop :=
  i.wellFormed = true ∧ opField (encode i) = i.op ∧ modeBit (encode i) = i.m ∧ rsvField (encode i) = 0 ∧
    (opcodeMap.filter fun r => r.selects (encode i)).map OpcodeRow.mnemonic = [i.mnemonic]

theorem gfmul : Statement .gfmul := by unfold Statement; decide
theorem gfdiv : Statement .gfdiv := by unfold Statement; decide
theorem gfinv : Statement .gfinv := by unfold Statement; decide
theorem genm (mode : GenMode) : Statement (.genm mode) := by cases mode <;> (unfold Statement; decide)
theorem invm : Statement .invm := by unfold Statement; decide
theorem tbls : Statement .tbls := by unfold Statement; decide
theorem enc : Statement .enc := by unfold Statement; decide
theorem dec : Statement .dec := by unfold Statement; decide

end Sys2Proof.Laws.EncodedWord
end

