-- ==== Sys2Proof/Laws/Runs.lean ====
section
/-! SUPPORT. Runs: their shape, and the one induction every statement over a run rests on. -/
namespace Sys2Proof.Machine

@[simp] theorem State.after_zero (s : State) : State.after 0 s = some s := rfl

/-- A run of one step more answers exactly when the first step does and the rest runs on from there. -/
theorem State.after_succ_eq_some {n : Nat} {s t : State} :
    State.after (n + 1) s = some t ↔ ∃ u, step s = .next u ∧ State.after n u = some t := by
  simp only [State.after]
  split
  · next u hu => simp [hu]
  · next r hr => simp [hr]
  · next r hr => simp [hr]

theorem State.reaches_refl (s : State) : s.reaches s := ⟨0, rfl⟩

/-- A run goes on from where its first step leads. -/
theorem State.reaches_head {s u t : State} (h : step s = .next u) (ht : u.reaches t) : s.reaches t := by
  obtain ⟨n, hn⟩ := ht
  exact ⟨n + 1, State.after_succ_eq_some.2 ⟨u, h, hn⟩⟩

theorem State.reaches_trans {s u t : State} (h : s.reaches u) (ht : u.reaches t) : s.reaches t := by
  obtain ⟨n, hn⟩ := h
  induction n generalizing s with
  | zero => cases hn; exact ht
  | succ n ih =>
    obtain ⟨v, hv, hr⟩ := State.after_succ_eq_some.1 hn
    exact State.reaches_head hv (ih hr)

/-- A run goes on by one step at its end. -/
theorem State.reaches_step {s u t : State} (h : s.reaches u) (ht : step u = .next t) : s.reaches t :=
  State.reaches_trans h (State.reaches_head ht (State.reaches_refl t))

/-- What holds at the start, and what every step from a state of the run keeps, holds of every state of the run. -/
theorem State.reaches_induction {P : State → Prop} {s t : State} (h : s.reaches t) (start : P s)
    (keeps : ∀ u v, s.reaches u → P u → step u = .next v → P v) : P t := by
  obtain ⟨n, hn⟩ := h
  induction n generalizing s with
  | zero => cases hn; exact start
  | succ n ih =>
    obtain ⟨v, hv, hr⟩ := State.after_succ_eq_some.1 hn
    exact ih (keeps s v (State.reaches_refl s) start hv)
      (fun u w hu => keeps u w (State.reaches_head hv hu)) hr

/-- Respecting the hazards is waiting (R208) and keeping off the footprint (R209). -/
theorem State.hostRespects_iff (s : State) :
    s.hostRespects = true ↔ s.hostWaits = true ∧ s.hostOffFootprint = true := by
  simp [State.hostRespects]

/-- The regions of TBLS are InRange-checked as a whole list (42_coding.md R141), and so for the others: the list is in range
exactly when each of its regions is. -/
theorem regionsInMem_iff (memSize : Nat) (rs : List Region) :
    regionsInMem memSize rs = true ↔ ∀ r ∈ rs, inRange memSize r.base r.size = true := by
  simp [regionsInMem]

/-- Every block is named by ENC and DEC (20_memory.md R63). -/
theorem mem_namedBlocks_enc {m : Memory} {args : Vector Word 8} {r : Region} :
    r ∈ namedBlocks .enc m args ↔
      ∃ b < argNat args 1 + argNat args 2, r = ⟨descAddr m (argNat args 4) b, argNat args 0⟩ := by
  simp [namedBlocks, eq_comm]

theorem mem_namedBlocks_dec {m : Memory} {args : Vector Word 8} {r : Region} :
    r ∈ namedBlocks .dec m args ↔
      ∃ b < argNat args 1 + argNat args 2, r = ⟨descAddr m (argNat args 4) b, argNat args 0⟩ := by
  simp [namedBlocks, eq_comm]

end Sys2Proof.Machine
end

