-- ==== Sys2Proof/Machine/Assembler.lean ====
section
/-! DEFINITION. The assembler's view of host programs: pseudo-operations (30_encoding.md R95), disassembly of a command word and the reading of one line of text (R94). Nothing of a step depends on this file. -/
namespace Sys2Proof.Machine

/-- `wait` placed at index `here`: `rd STATUS`, then `bbusy` back to it (30_encoding.md R95). -/
def waitOps (here : Nat) : List HostOp := [.rd .status, .bbusy here]

/-- ARG0, ARG1, … in the order of the operand list (30_encoding.md R95). -/
def argWrites (operands : List Word) : List HostOp :=
  (List.finRange 8).zip operands |>.map fun iv => .wr (.arg iv.1) iv.2

/-- The operands, then `wr CMD, <word>`, then `wait` (30_encoding.md R95). -/
def commandOps (here : Nat) (operands : List Word) (i : Instr) : List HostOp :=
  argWrites operands ++ [.wr .cmd (encode i)] ++ waitOps (here + (argWrites operands).length + 1)

/-- The expansion of a pseudo-operation placed at index `here` (30_encoding.md R95). -/
def expandPseudo (here : Nat) : PseudoOp → List HostOp
  | .wait => waitOps here
  | .gfmul a b => commandOps here [a, b] .gfmul ++ [.rd .result]
  | .gfdiv a b => commandOps here [a, b] .gfdiv ++ [.rd .result]
  | .gfinv a => commandOps here [a] .gfinv ++ [.rd .result]
  | .genm k p mat => commandOps here [k, p, mat] (.genm .cauchy)
  | .genmV k p mat => commandOps here [k, p, mat] (.genm .vandermonde)
  | .invm n src dst => commandOps here [n, src, dst] .invm
  | .tbls k p mat tbl => commandOps here [k, p, mat, tbl] .tbls
  | .enc len k p tbl cw => commandOps here [len, k, p, tbl, cw] .enc
  | .dec len k p mat cw eras ecount => commandOps here [len, k, p, mat, cw, eras, ecount] .dec
  | .status => [.rd .status]

/-- The digit's character. Upper case: DESIGN CHOICE, log 22. -/
def hexDigit (d : Nat) : Char :=
  ['0', '1', '2', '3', '4', '5', '6', '7', '8', '9', 'A', 'B', 'C', 'D', 'E', 'F'].getD d '0'

/-- The eight hexadecimal digits of a word, most significant first. -/
def hexDigits (w : Word) : List Char :=
  [7, 6, 5, 4, 3, 2, 1, 0].map fun i => hexDigit (w.toNat / 16 ^ i % 16)

/-- The assembler's name of a command: `GENM.V` is GENM with M = 1 (30_encoding.md R94). -/
def asmName : Instr → String
  | .genm .vandermonde => "GENM.V"
  | .genm .cauchy => "GENM"
  | .gfmul => "GFMUL"
  | .gfdiv => "GFDIV"
  | .gfinv => "GFINV"
  | .invm => "INVM"
  | .tbls => "TBLS"
  | .enc => "ENC"
  | .dec => "DEC"

/-- A command word as text; an illegal word is `.word 0x<8 hex digits>` (30_encoding.md R94). -/
def disassemble (w : Word) : String :=
  match decode w with
  | .command i => asmName i
  | .illegal _ => ".word 0x" ++ String.ofList (hexDigits w)

/-! ### Reading a line (30_encoding.md R94) -/

/-- The value of a digit character in a base of 10 or 16. -/
def digitValue (base : Nat) (c : Char) : Option Nat :=
  let v :=
    if '0' ≤ c ∧ c ≤ '9' then c.toNat - '0'.toNat
    else if 'a' ≤ c ∧ c ≤ 'f' then c.toNat - 'a'.toNat + 10
    else if 'A' ≤ c ∧ c ≤ 'F' then c.toNat - 'A'.toNat + 10
    else base
  if v < base then some v else none

/-- The digits of a number, after those already read. -/
def digitsValue (base : Nat) : List Char → Nat → Option Nat
  | [], acc => some acc
  | c :: cs, acc =>
    match digitValue base c with
    | none => none
    | some d => digitsValue base cs (acc * base + d)

/-- A number: decimal or `0x` hexadecimal (30_encoding.md R94). -/
def readNumber : List Char → Option Nat
  | [] => none
  | ['0', 'x'] => none
  | '0' :: 'x' :: ds => digitsValue 16 ds 0
  | ds => digitsValue 10 ds 0

/-- The tokens of a line: `;` starts a comment, spaces and commas separate (30_encoding.md R94). -/
def tokens : List Char → List Char → List (List Char)
  | [], tok => if tok.isEmpty then [] else [tok]
  | c :: cs, tok =>
    if c = ';' then (if tok.isEmpty then [] else [tok])
    else if c = ' ' ∨ c = ',' then (if tok.isEmpty then tokens cs [] else tok :: tokens cs [])
    else tokens cs (tok ++ [c])

/-- A register's name (10_state.md R20, 30_encoding.md R94). -/
def readRegName : List Char → Option Reg
  | ['I', 'D'] => some .id
  | ['C', 'T', 'R', 'L'] => some .ctrl
  | ['S', 'T', 'A', 'T', 'U', 'S'] => some .status
  | ['C', 'M', 'D'] => some .cmd
  | ['R', 'E', 'S', 'U', 'L', 'T'] => some .result
  | ['A', 'R', 'G', d] =>
    match digitValue 10 d with
    | some n => if h : n < 8 then some (.arg ⟨n, h⟩) else none
    | none => none
  | _ => none

/-- A command word written by mnemonic, as the word of 30_encoding.md R84 (R94). -/
def readMnemonic : List Char → Option Word
  | ['G', 'F', 'M', 'U', 'L'] => some 0x00000001
  | ['G', 'F', 'D', 'I', 'V'] => some 0x00000002
  | ['G', 'F', 'I', 'N', 'V'] => some 0x00000003
  | ['G', 'E', 'N', 'M'] => some 0x00000010
  | ['G', 'E', 'N', 'M', '.', 'V'] => some 0x00000110
  | ['I', 'N', 'V', 'M'] => some 0x00000011
  | ['T', 'B', 'L', 'S'] => some 0x00000012
  | ['E', 'N', 'C'] => some 0x00000020
  | ['D', 'E', 'C'] => some 0x00000021
  | _ => none

/-- A 32-bit immediate: a number that fits, or a command's mnemonic. -/
def readImm (tok : List Char) : Option Word :=
  match readMnemonic tok with
  | some w => some w
  | none =>
    match readNumber tok with
    | some n => if n < 2 ^ 32 then some (BitVec.ofNat 32 n) else none
    | none => none

/-- The listed bytes of `mw`. -/
def readBytes : List (List Char) → Option (List Byte)
  | [] => some []
  | t :: ts =>
    match readNumber t, readBytes ts with
    | some n, some bs => if n < 256 then some (BitVec.ofNat 8 n :: bs) else none
    | _, _ => none

/-- One line as a host operation; none for a line that is empty or no operation. A label is the index it names (log 22). -/
def readLine (line : List Char) : Option HostOp :=
  match tokens line [] with
  | [['w', 'r'], r, v] =>
    match readRegName r, readImm v with
    | some reg, some imm => some (.wr reg imm)
    | _, _ => none
  | [['r', 'd'], r] => (readRegName r).map .rd
  | ['m', 'w'] :: a :: b :: bs =>
    match readNumber a, readBytes (b :: bs) with
    | some addr, some bytes => some (.mw addr bytes)
    | _, _ => none
  | [['m', 'r'], a, n] =>
    match readNumber a, readNumber n with
    | some addr, some count => some (.mr addr count)
    | _, _ => none
  | [['b', 'b', 'u', 's', 'y'], l] => (readNumber l).map .bbusy
  | [['h', 'a', 'l', 't']] => some .halt
  | _ => none

end Sys2Proof.Machine
end

