-- ==== Sys2Proof/Tests/Slice0.lean ====
section
/-! SUPPORT. The model's own tests: the smoke test of WellFormed, decoding of written-out words, the vectors of 95_test_vectors.md (each test names its vector), and a witness for the hypotheses of each statement. -/
/- One test after another: many kernel evaluations at once take a thread, and its stack, each. -/
set_option Elab.async false

namespace Sys2Proof.Tests
open Sys2Proof.Machine

/-! ### Helpers -/

/-- MEM with the listed bytes at the listed addresses. -/
def place (cells : List (Nat × List Byte)) : Memory :=
  cells.foldl (fun m c => Memory.apply m ((List.range c.2.length).map fun i => (c.1 + i, c.2.getD i 0))) []

/-- ARG0, ARG1, … -/
def argsOf (l : List Word) : Vector Word 8 :=
  #v[l.getD 0 0, l.getD 1 0, l.getD 2 0, l.getD 3 0, l.getD 4 0, l.getD 5 0, l.getD 6 0, l.getD 7 0]

/-- The state after the word was accepted from reset, with the operands and the MEM contents. -/
def ready (w : Word) (ops : List Word) (cells : List (Nat × List Byte)) : State :=
  accept w { State.reset with args := argsOf ops, mem := place cells }

/-- The next state, when there is one. -/
def nextOf : Host.Outcome State Fault Refusal → Option State
  | .next s => some s
  | .fault _ => none
  | .refused _ => none

/-- STATUS and RESULT after the UNIT's step. -/
def scalarAfter (w : Word) (ops : List Word) : Option (Word × Word) :=
  (nextOf (step (ready w ops []))).map fun s => (s.statusWord, s.resultWord)

/-- STATUS after the UNIT's step, and the n bytes of MEM from address a. -/
def bytesAfter (s : State) (a n : Nat) : Option (Word × List Byte) :=
  (nextOf (step s)).map fun t => (t.statusWord, (List.range n).map fun i => t.mem.read (a + i))

/-- The matrix of 95_test_vectors.md X6. -/
def matX6 : Nat × List Byte := (0x000, [1, 0, 0, 0, 1, 0, 0, 0, 1, 0xF4, 0x8E, 1, 0x47, 0xA7, 0x7A])

/-- The codeword descriptor table of layout L (95_test_vectors.md). -/
def descL : Nat × List Byte :=
  (0x200, [0x00, 3, 0, 0, 4, 0, 0, 0, 0x10, 3, 0, 0, 4, 0, 0, 0, 0x20, 3, 0, 0, 4, 0, 0, 0,
    0x30, 3, 0, 0, 4, 0, 0, 0, 0x40, 3, 0, 0, 4, 0, 0, 0])

/-- The data blocks of X6 in layout L. -/
def dataL : List (Nat × List Byte) := [(0x300, [1, 2, 3, 4]), (0x310, [5, 6, 7, 8]), (0x320, [9, 0xA, 0xB, 0xC])]

/-- The coding blocks of X6 in layout L. -/
def codingL : List (Nat × List Byte) := [(0x330, [0x71, 0xFC, 0x87, 0xFF]), (0x340, [0xCB, 0x78, 0xE2, 0x52])]

/-- Entries 0 and 1 of a table set at 0x100, for coefficients 0xF4 and 0x8E (95_test_vectors.md V15), and entry 2 for 1. -/
def tablesV15 : Nat × List Byte :=
  (0x100,
    [0x00, 0xF4, 0xF5, 0x01, 0xF7, 0x03, 0x02, 0xF6, 0xF3, 0x07, 0x06, 0xF2, 0x04, 0xF0, 0xF1, 0x05] ++
    [0x00, 0xFB, 0xEB, 0x10, 0xCB, 0x30, 0x20, 0xDB, 0x8B, 0x70, 0x60, 0x9B, 0x40, 0xBB, 0xAB, 0x50] ++
    [0x00, 0x8E, 0x01, 0x8F, 0x02, 0x8C, 0x03, 0x8D, 0x04, 0x8A, 0x05, 0x8B, 0x06, 0x88, 0x07, 0x89] ++
    [0x00, 0x08, 0x10, 0x18, 0x20, 0x28, 0x30, 0x38, 0x40, 0x48, 0x50, 0x58, 0x60, 0x68, 0x70, 0x78] ++
    [0x00, 0x01, 0x02, 0x03, 0x04, 0x05, 0x06, 0x07, 0x08, 0x09, 0x0A, 0x0B, 0x0C, 0x0D, 0x0E, 0x0F] ++
    [0x00, 0x10, 0x20, 0x30, 0x40, 0x50, 0x60, 0x70, 0x80, 0x90, 0xA0, 0xB0, 0xC0, 0xD0, 0xE0, 0xF0])

/-- A DEC of layout L with the erasure list (95_test_vectors.md V30), the erased blocks holding EE. -/
def decL (erased : List Nat) : State :=
  ready 0x21 [4, 3, 2, 0, 0x200, 0x280, BitVec.ofNat 32 erased.length]
    ([matX6, descL, (0x280, erased.map fun e => BitVec.ofNat 8 e)] ++ dataL ++ codingL ++
      erased.map fun e => (0x300 + 16 * e, [0xEE, 0xEE, 0xEE, 0xEE]))

/-! ### WellFormed: an ill-formed term for each check -/

theorem test_wf_accepts_program :
    hostProgramWellFormed [.wr (.arg 0) 1, .rd .status, .mw 0x10 [1], .mr 0x10 1, .bbusy 1, .busRd 32 4, .halt] = true := by
  decide
theorem test_wf_refuses_mw_of_nothing : HostOp.wellFormed 5 (.mw 0x10 []) = false := by decide
theorem test_wf_refuses_mw_past_addresses : HostOp.wellFormed 5 (.mw 0xFFFFFFFF [1, 2]) = false := by decide
theorem test_wf_refuses_mr_of_nothing : HostOp.wellFormed 5 (.mr 0x10 0) = false := by decide
theorem test_wf_refuses_mr_past_addresses : HostOp.wellFormed 5 (.mr 0xFFFFFFFF 2) = false := by decide
theorem test_wf_refuses_label_outside : hostProgramWellFormed [.bbusy 1] = false := by decide
theorem test_wf_refuses_narrow_write : HostOp.wellFormed 5 (.busWr 8 0x20 1) = false := by decide
theorem test_wf_refuses_narrow_read : HostOp.wellFormed 5 (.busRd 16 0x20) = false := by decide

/-! ### Decoding: words written out bit by bit, {RSV[31:9], M[8], OP[7:0]} (30_encoding.md R80, R84) -/

theorem test_decode_gfmul : decode 0b00000000000000000000000_0_00000001 = .command .gfmul := by decide
theorem test_decode_gfdiv : decode 0b00000000000000000000000_0_00000010 = .command .gfdiv := by decide
theorem test_decode_gfinv : decode 0b00000000000000000000000_0_00000011 = .command .gfinv := by decide
theorem test_decode_genm : decode 0b00000000000000000000000_0_00010000 = .command (.genm .cauchy) := by decide
theorem test_decode_genm_v : decode 0b00000000000000000000000_1_00010000 = .command (.genm .vandermonde) := by decide
theorem test_decode_invm : decode 0b00000000000000000000000_0_00010001 = .command .invm := by decide
theorem test_decode_tbls : decode 0b00000000000000000000000_0_00010010 = .command .tbls := by decide
theorem test_decode_enc : decode 0b00000000000000000000000_0_00100000 = .command .enc := by decide
theorem test_decode_dec : decode 0b00000000000000000000000_0_00100001 = .command .dec := by decide
/-- 95_test_vectors.md V40. -/
theorem test_decode_illegal :
    ([0x00000000, 0x000000FF, 0x00000004, 0x00000013, 0x00000022, 0x00000101, 0x00000210, 0x80000020].map
      fun w => (decode w).command?) = List.replicate 8 none := by decide
theorem test_decode_table_word : decodeTableWord 32 0x110 = some (.genm .vandermonde) := by decide

/-! ### Commands: the vectors of 95_test_vectors.md part 2 -/

/-- V1. -/
theorem test_gfmul_53_CA : scalarAfter 0x01 [0x53, 0xCA] = some (0x00000002, 0x0000008F) := by decide +kernel
/-- V5. -/
theorem test_gfmul_upper_bits : scalarAfter 0x01 [0x100, 0x01] = some (0x00000102, 0) := by decide +kernel
/-- V4. -/
theorem test_gfdiv_02_FF : scalarAfter 0x02 [0x02, 0xFF] = some (0x00000002, 0x000000E7) := by decide +kernel
/-- V5. -/
theorem test_gfdiv_by_zero : scalarAfter 0x02 [0x05, 0x00] = some (0x00000102, 0) := by decide +kernel
/-- V2. -/
theorem test_gfinv_53 : scalarAfter 0x03 [0x53] = some (0x00000002, 0x0000008C) := by decide +kernel
/-- V5. -/
theorem test_gfinv_zero : scalarAfter 0x03 [0x00] = some (0x00000102, 0) := by decide +kernel
/-- V10, V13: MAT = 0xFF1 is the last place the 15 bytes fit. -/
theorem test_genm_cauchy_at_the_top :
    bytesAfter (ready 0x10 [3, 2, 0xFF1] []) 0xFF1 15 =
      some (0x00000002, [1, 0, 0, 0, 1, 0, 0, 0, 1, 0xF4, 0x8E, 1, 0x47, 0xA7, 0x7A]) := by decide +kernel
/-- V11. -/
theorem test_genm_vandermonde :
    bytesAfter (ready 0x110 [3, 2, 0] []) 9 6 = some (0x00000002, [1, 1, 1, 1, 2, 4]) := by decide +kernel
/-- V14: a row swap at column 0. -/
theorem test_invm_permutation :
    bytesAfter (ready 0x11 [3, 0, 0x10] [(0, [0, 0, 1, 1, 0, 0, 0, 1, 0])]) 0x10 9 =
      some (0x00000002, [0, 1, 0, 0, 0, 1, 1, 0, 0]) := by decide +kernel
/-- V14, V23: singular, and DST unchanged. -/
theorem test_invm_singular :
    bytesAfter (ready 0x11 [2, 0, 0x10] [(0, [1, 1, 1, 1]), (0x10, [0xAA])]) 0x10 1 =
      some (0x00000302, [0xAA]) := by decide +kernel
/-- V15, entry 3 (c = 47), its high half. -/
theorem test_tbls_entry_3 :
    bytesAfter (ready 0x12 [3, 2, 0, 0x100] [matX6]) 0x170 16 =
      some (0x00000002, [0x00, 0x04, 0x08, 0x0C, 0x10, 0x14, 0x18, 0x1C, 0x20, 0x24, 0x28, 0x2C, 0x30, 0x34, 0x38, 0x3C]) := by
  decide +kernel
/-- V18: P = 0 passes with TBL out of range. -/
theorem test_tbls_no_parity :
    bytesAfter (ready 0x12 [3, 0, 0, 0xFFFFFFF0] [matX6]) 0 1 = some (0x00000002, [1]) := by decide +kernel
/-- V19, coding block 3 (with P = 1, so that block 4 stands out of the command). -/
theorem test_enc_block_3 :
    bytesAfter (ready 0x20 [4, 3, 1, 0x100, 0x200] ([descL, tablesV15] ++ dataL)) 0x330 4 =
      some (0x00000002, [0x71, 0xFC, 0x87, 0xFF]) := by decide +kernel
/-- V21: LEN = 0 while the BLENs are 4. -/
theorem test_enc_length_mismatch :
    bytesAfter (ready 0x20 [0, 3, 1, 0x100, 0x200] ([descL, tablesV15] ++ dataL)) 0x330 1 =
      some (0x00000102, [0]) := by decide +kernel
/-- V30, E = [3, 1]: block 1 comes back. -/
theorem test_dec_restores_block_1 :
    bytesAfter (decL [3, 1]) 0x310 4 = some (0x00000002, [5, 6, 7, 8]) := by decide +kernel
/-- V31: the count is checked before the indices. -/
theorem test_dec_count_before_indices :
    bytesAfter (decL [9, 9, 9]) 0x330 1 = some (0x00000202, [0x71]) := by decide +kernel
/-- V40: an illegal word completes with code 4 and CMD reads it back. -/
theorem test_illegal_word :
    (nextOf (step (ready 0x00000101 [] []))).map (fun s => (s.statusWord, readReg 0x0C s)) =
      some (0x00000402, 0x00000101) := by decide +kernel
/-- V17. -/
theorem test_table_lookup : tableLookup (place [tablesV15]) 0x100 0 0x53 = 0x31 := by decide +kernel

/-- 40_field.md R101: the reduction byte is GF_POLY without x⁸. -/
theorem test_reduction_byte : reductionByte = Config.gfPoly.setWidth 8 := by decide

/-! ### Registers, races, aliasing, reset -/

/-- V43. -/
theorem test_status_w1c :
    (let s : State := { State.reset with done := true, cmderr := true, err := .singularSubmatrix }
     (s.statusWord, (writeReg 0x08 2 s).statusWord, (writeReg 0x08 4 (writeReg 0x08 2 s)).statusWord)) =
      (0x00000306, 0x00000304, 0x00000300) := by decide
/-- V45. -/
theorem test_cmd_while_busy :
    (let s := writeReg 0x0C 0x00000001 (ready 0x10 [3, 2, 0] [])
     (s.statusWord, s.cmdLast, s.snap.cmd)) = (0x00000005, 0x00000010, 0x00000010) := by decide +kernel
/-- V47: a HOST write to FP.R is DATA, to FP.C is WILD, elsewhere nothing. -/
theorem test_races :
    (let s := ready 0x20 [4, 3, 1, 0x100, 0x200] ([descL, tablesV15] ++ dataL)
     [0x300, 0x208, 0x400, 0x330].map fun a => raceTaint s.fp a s.taint) = [.data, .wild, .none, .data] := by
  decide +kernel
/-- V48: descriptor 3 at data block 0 aliases; the code is still 0. -/
theorem test_aliasing :
    (let s := ready 0x20 [4, 3, 1, 0x100, 0x200] ([descL, tablesV15, (0x218, [0x00])] ++ dataL)
     (s.fp.aliases, (runOf .enc s).code)) = (true, .success) := by decide +kernel
/-- V46: STATUS after a soft reset while BUSY. -/
theorem test_soft_reset :
    (writeReg 0x04 2 (ready 0x20 [4, 3, 1, 0x100, 0x200] ([descL, tablesV15] ++ dataL))).statusWord = 0 := by
  decide +kernel
/-- 10_state.md R21: an 8-bit access is refused; R50: no byte at MEM_SIZE. -/
theorem test_stops :
    (match hostOpStep (.busWr 8 0x20 1) State.reset with | .refused r => some r | _ => none) = some .registerAccess ∧
    (match hostOpStep (.mr 0x1000 1) State.reset with | .fault r => some r | _ => none) = some .addressOutsideMem := by
  decide
/-- V41. -/
theorem test_expand_gfinv :
    expandPseudo 6 (.gfinv 0x53) = [.wr (.arg 0) 0x53, .wr .cmd 0x3, .rd .status, .bbusy 8, .rd .result] := by decide
/-- 30_encoding.md R94. -/
theorem test_read_line :
    readLine ['w', 'r', ' ', 'A', 'R', 'G', '2', ',', ' ', '0', 'x', '5', 'f', ' ', ';', 'x'] =
      some (.wr (.arg 2) 0x5F) := by decide

/-! ### Witnesses: for each statement with hypotheses, a state and operands that meet all of them (and for each clause) -/

/-- ENC with K = P = 1 and LEN = 1 over the table of the coefficient 1 at 0x0, the descriptors at 0x80, the data block at 0xFFE and the
coding block at 0xFFF, the last byte of MEM. -/
def encSmall : State :=
  ready 0x20 [1, 1, 1, 0, 0x80]
    [(0x00, [0x00, 0x01, 0x02, 0x03, 0x04, 0x05, 0x06, 0x07, 0x08, 0x09, 0x0A, 0x0B, 0x0C, 0x0D, 0x0E, 0x0F]),
     (0x10, [0x00, 0x10, 0x20, 0x30, 0x40, 0x50, 0x60, 0x70, 0x80, 0x90, 0xA0, 0xB0, 0xC0, 0xD0, 0xE0, 0xF0]),
     (0x80, [0xFE, 0x0F, 0, 0, 1, 0, 0, 0, 0xFF, 0x0F, 0, 0, 1, 0, 0, 0]), (0xFFE, [0xAB])]

/-- DEC with K = P = 1 and LEN = 1, the matrix 01 / 01 at 0x0, the list [0] at 0x20, block 0 at 0xFFE (erased) and block 1 at 0xFFF. -/
def decSmall : State :=
  ready 0x21 [1, 1, 1, 0, 0x80, 0x20, 1]
    [(0x00, [1, 1]), (0x80, [0xFE, 0x0F, 0, 0, 1, 0, 0, 0, 0xFF, 0x0F, 0, 0, 1, 0, 0, 0]), (0xFFF, [0xAB])]

/-- The same DEC over a matrix whose parity row is 0: the submatrix of the survivor is singular. -/
def decSingular : State :=
  ready 0x21 [1, 1, 1, 0, 0x80, 0x20, 1]
    [(0x00, [1, 0]), (0x80, [0xFE, 0x0F, 0, 0, 1, 0, 0, 0, 0xFF, 0x0F, 0, 0, 1, 0, 0, 0]), (0xFFF, [0xAB])]

/-- A HOST with one operation to do. -/
def hostAt (op : HostOp) : State := { State.reset with prog := [op], sched := [.host] }

/-- A power-on reset while a command is in flight and while none is. -/
theorem witness_PowerOnResetLeavesAnIdleUnit :
    ({ encSmall with sched := [.powerOn] } : State).turn = .powerOn ∧ encSmall.busy = true ∧
    ({ State.reset with sched := [.powerOn] } : State).turn = .powerOn := by decide +kernel

theorem witness_CtrlWriteEnablesOrSoftResets :
    (0x1 : Word).getLsbD 1 = false ∧ (0x2 : Word).getLsbD 1 = true ∧ State.reset.busy = false ∧
    encSmall.busy = true ∧ encSmall.taint ≠ .wild ∧ encSmall.fp.inWrite 0xFFE = false ∧
    encSmall.fp.inWrite 0xFFF = true := by decide +kernel

theorem witness_CmdWriteAcceptsOrSetsCmderr : State.reset.busy = false ∧ encSmall.busy = true := by decide +kernel

theorem witness_CmderrIsSticky :
    (∃ t, step { State.reset with cmderr := true, sched := [.unit] } = .next t ∧ t.cmderr = true) ∧
    (∃ t, step { State.reset with cmderr := true, sched := [.powerOn] } = .next t ∧ t.cmderr = false) ∧
    (∃ t, step { hostAt (.wr .status 4) with cmderr := true } = .next t ∧ t.cmderr = false) ∧
    (∃ t, step { hostAt (.busWr 32 0x04 2) with cmderr := true } = .next t ∧ t.cmderr = false) :=
  ⟨⟨_, rfl, rfl⟩, ⟨_, rfl, rfl⟩, ⟨_, rfl, rfl⟩, ⟨_, rfl, rfl⟩⟩

theorem witness_InterruptLevelFollowsDone :
    State.reset.busy = false ∧ (0x2 : Word).getLsbD 1 = true ∧ (0x1 : Word).getLsbD 1 = false ∧
    (0x0 : Word).getLsbD 0 = false ∧ (0x1 : Word).getLsbD 0 = true ∧ (ready 0x101 [] []).busy = true := by decide

/-- The first and the last word of the block, a misaligned address and a narrow access. -/
theorem witness_RegisterAccessWidthAndAlignment :
    State.reset.params.regBase ≤ 0x00 ∧ 0x3C < State.reset.params.regBase + 0x40 ∧
    (0x3C - State.reset.params.regBase) % 4 = 0 ∧ ¬((0x3F - State.reset.params.regBase) % 4 = 0) ∧
    0x3F < State.reset.params.regBase + 0x40 := by decide

theorem witness_EncodeThenDecode : (Instr.genm .vandermonde).wellFormed = true := by decide

theorem witness_DecodeAgreesWithTheOpcodeMap :
    ∃ r ∈ opcodeMap, r.selects 0x110 = true ∧ r.mnemonic = "GENM" :=
  ⟨⟨"GENM", 0x00000010, 0xFFFFFEFF⟩, by decide, by decide, rfl⟩

theorem witness_IllegalWordsCompleteWithCodeFour :
    decode 0x00000101 = .illegal .modeBit ∧ State.reset.busy = false := by decide

theorem witness_FieldMultiplicationLaws : (0x01 : Byte) ≠ 0 ∧ (0xFF : Byte) ≠ 0 := by decide

/-- The logarithms at the ends of their range: glog(1) = 0 and glog(8E) = 254 (95_test_vectors.md V3). -/
theorem witness_LogarithmFormAgrees : glog 0x01 = some 0 ∧ glog 0x8E = some 254 := by decide +kernel

theorem witness_InverseIsTheUniqueSolution : (0x02 : Byte) ≠ 0 ∧ gmul 0x02 0x8E = 1 ∧ glog 0x02 = some 1 := by
  decide +kernel

/-- Both clauses of the three scalar statements: operands 0xFF and 0x100, a zero operand. -/
theorem witness_scalar_commands :
    (ready 0x01 [0xFF, 0xFF] []).taint = .none ∧ (ready 0x01 [0xFF, 0xFF] []).fp = Footprint.empty ∧
    ((ready 0x01 [0xFF, 0xFF] []).snap.args[0]).toNat < 256 ∧ ((ready 0x01 [0xFF, 0xFF] []).snap.args[1]).toNat < 256 ∧
    (ready 0x02 [0xFF, 0xFF] []).snap.args[1] ≠ 0 ∧ (ready 0x03 [0xFF] []).snap.args[0] ≠ 0 ∧
    256 ≤ ((ready 0x01 [0x100, 0xFF] []).snap.args[0]).toNat ∧ (ready 0x02 [0xFF, 0] []).snap.args[1] = 0 ∧
    (ready 0x03 [0] []).snap.args[0] = 0 := by decide +kernel

theorem witness_GfmulCompletes : ∃ s : State, s.taint = .none ∧ s.fp = Footprint.empty ∧
    (s.snap.args[0]).toNat < 256 ∧ (s.snap.args[1]).toNat < 256 := ⟨ready 0x01 [0xFF, 0xFF] [], by decide +kernel⟩

theorem witness_GfdivCompletes : ∃ s : State, s.taint = .none ∧ s.fp = Footprint.empty ∧
    (s.snap.args[0]).toNat < 256 ∧ (s.snap.args[1]).toNat < 256 ∧ s.snap.args[1] ≠ 0 :=
  ⟨ready 0x02 [0xFF, 0x01] [], by decide +kernel⟩

theorem witness_GfinvCompletes : ∃ s : State, s.taint = .none ∧ s.fp = Footprint.empty ∧
    (s.snap.args[0]).toNat < 256 ∧ s.snap.args[0] ≠ 0 := ⟨ready 0x03 [0xFF] [], by decide +kernel⟩

/-- K + P = 256: the last row and the last column, and the first parity row. -/
theorem witness_GeneratorMatrixElements :
    1 ≤ 200 ∧ 200 + 56 ≤ 256 ∧ 255 < 200 + 56 ∧ 199 < 200 ∧ 200 ≤ 255 ∧ 200 < 200 + 56 := by decide

/-- K = 1, P = 255 with the matrix ending at MEM_SIZE; and each error: K = 0, K + P = 257, one byte too far. -/
theorem witness_GenmCompletes :
    (let s := ready 0x10 [1, 255, 0xF00] []
     s.taint = .none ∧ s.mem.wf = true ∧ argNat s.snap.args 2 + (1 + 255) * 1 ≤ s.params.memSize ∧
     s.fp.aliases = false) ∧
    argNat (ready 0x10 [0, 2, 0] []).snap.args 0 = 0 ∧
    256 < argNat (ready 0x10 [200, 57, 0] []).snap.args 0 + argNat (ready 0x10 [200, 57, 0] []).snap.args 1 ∧
    (ready 0x10 [1, 255, 0xF01] []).params.memSize <
      argNat (ready 0x10 [1, 255, 0xF01] []).snap.args 2 + (1 + 255) * 1 := by decide +kernel

/-- N = 2 with DST ending at MEM_SIZE, invertible and singular. -/
theorem witness_InvmCompletes :
    (let s := ready 0x11 [2, 0, 0xFFC] [(0, [1, 1, 1, 2])]
     s.taint = .none ∧ s.mem.wf = true ∧ 0xFFC + 2 * 2 ≤ s.params.memSize ∧ s.fp.aliases = false ∧
     (gaussJordan (fun r c => s.mem.read (0 + r * 2 + c)) 2).isSome = true) ∧
    (let s := ready 0x11 [2, 0, 0xFFC] [(0, [1, 1, 1, 1])]
     gaussJordan (fun r c => s.mem.read (0 + r * 2 + c)) 2 = none) ∧
    argNat (ready 0x11 [257, 0, 0] []).snap.args 0 = 257 := by decide +kernel

/-- A singular matrix with a vector it sends to 0, an invertible one, and N = 1 both ways. -/
theorem witness_GaussJordanInvertsOrFindsSingular :
    gaussJordan (fun _ _ => 1) 2 = none ∧ (∀ r < 2, xorSum (fun _ => gmul ((fun _ _ => 1) r 0) 1) 2 = 0) ∧
    gaussJordan (fun r c => if r + c = 1 then 1 else 0) 2 = some [[0, 1], [1, 0]] ∧
    gaussJordan (fun _ _ => 0) 1 = none ∧ gaussJordan (fun _ _ => 2) 1 = some [[0x8E]] := by decide +kernel

theorem witness_CauchyMatrixIsMds :
    [3, 1, 4].length = 3 ∧ [3, 1, 4].Nodup ∧ (∀ r ∈ [3, 1, 4], r < 3 + 2) ∧ 1 ≤ 3 ∧ 3 + 2 ≤ 256 := by decide

/-- K = P = 1 with the table ending at MEM_SIZE; P = 0 with regions out of range; a table one byte too far. -/
theorem witness_TblsCompletes :
    (let s := ready 0x12 [1, 1, 0, 0xFE0] [(0, [1, 7])]
     s.taint = .none ∧ s.mem.wf = true ∧ s.fp.aliases = false ∧ 0 + 1 * 1 + 1 * 1 ≤ s.params.memSize ∧
     0xFE0 + 32 * 1 * 1 ≤ s.params.memSize) ∧
    argNat (ready 0x12 [3, 0, 0, 0xFFFFFFF0] []).snap.args 1 = 0 ∧
    ¬(0xFE1 + 32 * 1 * 1 ≤ (ready 0x12 [1, 1, 0, 0xFE1] []).params.memSize) := by decide +kernel

theorem witness_TableLookupIsMultiplication :
    (place [(5, [1, 2])]).wf = true ∧
    ∀ n < 32, ((Memory.apply (place [(5, [1, 2])]) (entryWrites (0 + 32 * 1) 0x8E)).write 0 7).read (0 + 32 * 1 + n) =
      (Memory.apply (place [(5, [1, 2])]) (entryWrites (0 + 32 * 1) 0x8E)).read (0 + 32 * 1 + n) := by decide +kernel

/-- The success clause at the last byte of MEM; the failure clause with one BLEN off. -/
theorem witness_EncCompletes :
    encSmall.taint = .none ∧ encSmall.mem.wf = true ∧
    encSmall.fp = footprintOf .enc encSmall.params.memSize encSmall.mem encSmall.snap.args ∧
    encSmall.fp.aliases = false ∧ 0 + 32 * 1 * 1 ≤ encSmall.params.memSize ∧ 0x80 + 8 * (1 + 1) ≤ encSmall.params.memSize ∧
    (∀ i < 1 + 1, memRead encSmall.mem (0x80 + 8 * i + 4) 4 = 1 ∧
      memRead encSmall.mem (0x80 + 8 * i) 4 + 1 ≤ encSmall.params.memSize) ∧
    ¬(∀ i < 1 + 1, memRead (place []) (0x80 + 8 * i + 4) 4 = 1) := by decide +kernel

theorem witness_EncoderComputesTheMatrixProduct :
    (∀ j < 1, ∀ i < 1, ∀ n < 16,
      encSmall.mem.read (0 + 32 * (j * 1 + i) + n) = gmul 1 (BitVec.ofNat 8 n) ∧
      encSmall.mem.read (0 + 32 * (j * 1 + i) + 16 + n) = gmul 1 (BitVec.ofNat 8 (16 * n))) ∧
    (nextOf (exec .enc encSmall)).map (fun t => (t.err, t.mem.read 0xFFF)) = some (.success, 0xAB) := by decide +kernel

/-- One state for each of the four clauses. -/
theorem witness_DecReportsTheFirstFailedCheck :
    (nextOf (exec .dec (ready 0x21 [1, 0, 1] []))).map State.err = some .invalidParameters ∧
    (nextOf (exec .dec (ready 0x21 [1, 1, 1, 0, 0x80, 0x20, 2] []))).map State.err = some .unrecoverableLoss ∧
    (nextOf (exec .dec (ready 0x21 [1, 1, 1, 0, 0x80, 0x20, 1] []))).map State.err = some .invalidParameters ∧
    (nextOf (exec .dec decSingular)).map State.err = some .singularSubmatrix ∧
    decSingular.taint = .none := by decide +kernel

theorem witness_DecCompletes :
    decSmall.taint = .none ∧ decSmall.mem.wf = true ∧ validKP 1 1 = true ∧
    inRange decSmall.params.memSize 0 ((1 + 1) * 1) = true ∧ inRange decSmall.params.memSize 0x20 1 = true ∧
    erasuresOk (1 + 1) (erasureList decSmall.mem 0x20 1) = true ∧
    descriptorsOk decSmall.params.memSize decSmall.mem 0x80 (1 + 1) 1 = true ∧
    gaussJordan (submatrix decSmall.mem 0 1 (survivors (1 + 1) 1 (erasureList decSmall.mem 0x20 1))) 1 = some [[1]] ∧
    decSmall.fp = footprintOf .dec decSmall.params.memSize decSmall.mem decSmall.snap.args ∧
    decSmall.fp.aliases = false := by decide +kernel

/-- K + |E| = N, the most that can be erased. -/
theorem witness_SurvivorsAreTheSmallestUnerased :
    [4, 0].Nodup ∧ (∀ e ∈ [4, 0], e < 5) ∧ 3 + [4, 0].length ≤ 5 ∧ survivors 5 3 [4, 0] = [1, 2, 3] := by decide

theorem witness_ErasureOrderDoesNotMatter :
    [0, 1].Perm [1, 0] ∧ [0, 1].Nodup ∧ encSmall.mem.wf = true ∧
    (∀ e ∈ [0, 1], ∀ e' ∈ [0, 1], e ≠ e' →
      (⟨descAddr encSmall.mem 0x80 e, 1⟩ : Region).overlaps ⟨descAddr encSmall.mem 0x80 e', 1⟩ = false) := by
  decide +kernel

/-- With `witness_DecCompletes`: the codeword AB / AB, block 0 erased. -/
theorem witness_RecoveryRestoresErasedBlocks :
    (∀ i < 1, ∀ j < 1, matRead decSmall.mem 0 1 i j = if i = j then 1 else 0) ∧
    (∀ i < 1 + 1, 1 ≤ i → ∀ o < 1, (0xAB : Byte) = xorSum (fun c => gmul (matRead decSmall.mem 0 1 i c) 0xAB) 1) ∧
    (∀ i < 1 + 1, i ∉ erasureList decSmall.mem 0x20 1 → ∀ o < 1,
      decSmall.mem.read (descAddr decSmall.mem 0x80 i + o) = 0xAB) ∧
    decSmall.mem.read 0xFFE ≠ 0xAB ∧ erasureList decSmall.mem 0x20 1 = [0] := by decide +kernel

/-- A byte outside the write set, on a state that has its footprint and is not raced with WILD. -/
theorem witness_EveryCommandCompletes :
    ({ encSmall with taint := .data } : State).taint ≠ .wild ∧
    encSmall.fp = footprintOf .enc encSmall.params.memSize encSmall.mem encSmall.snap.args ∧
    encSmall.fp.inWrite 0xFFE = false := by decide +kernel

theorem witness_ErrorsWriteNothing :
    decSingular.taint = .none ∧ decSingular.busy = true ∧
    (nextOf (exec .dec decSingular)).map State.err = some .singularSubmatrix ∧
    (nextOf (unitStep decSingular)).map State.err = some .singularSubmatrix := by
  decide +kernel

/-- An aliasing INVM that succeeds, and one that raises an error. -/
theorem witness_AliasingNeverChangesTheCode :
    (let s := ready 0x11 [1, 0, 0] [(0, [2])]
     s.taint = .none ∧ s.fp.aliases = true ∧ s.fp = footprintOf .invm s.params.memSize s.mem s.snap.args ∧
     (runOf .invm s).code = .success ∧ s.fp.inWrite 1 = false) ∧
    (let s := ready 0x11 [1, 0, 0] []
     s.fp.aliases = true ∧ (runOf .invm s).code = .singularSubmatrix) := by decide +kernel

theorem witness_WritesStayInTheWriteSet :
    (0xFFF, 0xAB) ∈ (runOf .enc encSmall).writes ∧ (runOf .enc encSmall).code = .success ∧
    (footprintOf .enc encSmall.params.memSize encSmall.mem encSmall.snap.args).inWrite 0xFFF = true := by decide +kernel

/-- Two states that differ in a byte outside the read set. -/
theorem witness_ResultDependsOnTheReadSetAlone :
    sameInputs .invm (ready 0x11 [1, 0, 1] [(0, [2])]) (ready 0x11 [1, 0, 1] [(0, [2]), (9, [7])]) := by
  refine ⟨rfl, rfl, fun a ha => ?_⟩
  have h : a = 0 := by
    have h1 : (footprintOf .invm (ready 0x11 [1, 0, 1] [(0, [2])]).params.memSize
        (ready 0x11 [1, 0, 1] [(0, [2])]).mem (ready 0x11 [1, 0, 1] [(0, [2])]).snap.args) =
        ⟨[], [⟨0, 1⟩], [⟨1, 1⟩]⟩ := by decide +kernel
    rw [h1] at ha
    simpa [Footprint.inReadSet, regionsContain, Region.contains] using ha
  subst h
  decide +kernel

theorem witness_RacedCommandsCompleteWithinTheirCodes :
    ({ encSmall with taint := .data } : State).taint ≠ .none ∧ encSmall.fp.inWrite 0xFFE = false ∧
    ({ encSmall with taint := .wild } : State).taint ≠ .none := by decide +kernel

/-- FP.C, FP.R, FP.W and none of them, at their first and last bytes. -/
theorem witness_HostRacesFollowTheFootprint :
    encSmall.busy = true ∧ 0xFFF < encSmall.params.memSize ∧
    [1, 2][({ encSmall with hbytes := 1 } : State).hbytes]? = some 2 ∧
    ({ encSmall with sched := [.platformWrite 0xFFF 1] } : State).turn = .platformWrite 0xFFF 1 ∧
    [0x7F, 0x80, 0x8F, 0x90].map encSmall.fp.inCtrl = [false, true, true, false] ∧
    [0x1F, 0x20, 0xFFE].map encSmall.fp.inReadSet = [true, false, true] ∧
    [0xFFE, 0xFFF].map encSmall.fp.inWrite = [false, true] := by decide +kernel

theorem witness_RespectfulHostNeverRaces :
    ∃ t, (hostAt (.wr .cmd 1)).hostRespects = true ∧ hostStep (hostAt (.wr .cmd 1)) = .next t ∧
      (hostAt (.wr .cmd 1)).taint = .none ∧ (hostAt (.wr .cmd 1)).cmderr = false := ⟨_, rfl, rfl, rfl, rfl⟩

/-- Each operation at hpc = 0, and the last and a middle byte of `mw` and `mr`. -/
theorem witness_HostOperationsMoveHpc :
    (∀ op : HostOp, (hostAt op).halted = false ∧ (hostAt op).prog[(hostAt op).hpc]? = some op) ∧
    [1, 2][(hostAt .halt).hbytes]? = some 1 ∧ (hostAt .halt).hbytes + 1 < 2 ∧ (hostAt .halt).hbytes + 1 = 1 ∧
    0xFFF + (hostAt .halt).hbytes < (hostAt .halt).params.memSize ∧ (hostAt .halt).busy = false :=
  ⟨fun _ => ⟨rfl, rfl⟩, by decide⟩

theorem witness_StepRunsTheDecodedCommand :
    encSmall.turn = .unit ∧ encSmall.busy = true ∧ decode encSmall.snap.cmd = .command .enc ∧
    Instr.enc.wellFormed = true := by decide +kernel

theorem witness_ABusyUnitCompletesOnItsTurn :
    encSmall.busy = true ∧ encSmall.sched = [] ∧ ({ encSmall with sched := [.unit, .host] } : State).turn = .unit := by
  decide +kernel

/-- The UNIT's Complete, a power-on reset and a soft reset by the HOST. -/
theorem witness_OnlyCompletionOrResetEndsBusy :
    (∃ t, step { ready 0x01 [] [] with sched := [.powerOn] } = .next t ∧ t.busy = false) ∧
    (∃ t, step { accept 0x01 (hostAt (.wr .ctrl 2)) with sched := [.host] } = .next t ∧ t.busy = false) ∧
    (nextOf (step encSmall)).map State.busy = some false :=
  ⟨⟨_, rfl, rfl⟩, ⟨_, rfl, rfl⟩, by decide +kernel⟩

theorem witness_AnEndedRunStaysEnded :
    (let s : State := { State.reset with halted := true, sched := [.unit] }
     s.halted = true ∧ s.busy = false ∧ s.turn = .unit) ∧
    ({ State.reset with halted := true } : State).turn = .host := by decide

/-- The ends of MEM_SIZE's range. -/
theorem witness_InvariantHoldsAtReset : 1 ≤ 1 ∧ 1 ≤ 2 ^ 32 ∧ 2 ^ 32 ≤ 2 ^ 32 := by decide

theorem witness_reset_inv : State.reset.Inv :=
  { memSize := by decide
    memWf := rfl
    memWithin := rfl
    idle := fun _ => ⟨rfl, rfl⟩
    inFlight := fun h => absurd h (by decide)
    cmdLast := fun h => absurd h (by decide)
    fpInMem := ⟨rfl, rfl, rfl⟩
    noMem := fun h => absurd h (by decide) }

theorem witness_EveryStepKeepsTheInvariant :
    ∃ s t, s.Inv ∧ step s = .next t := ⟨State.reset, _, witness_reset_inv, rfl⟩

theorem witness_EveryStepKeepsTheFootprintCurrent :
    ∃ t, encSmall.footprintCurrent ∧ step { encSmall with sched := [.platformWrite 0x400 1] } = .next t :=
  ⟨_, fun _ _ => rfl, rfl⟩

/-- Each command at the bound of its sizes, and a DEC with a readable erasure list of a block that is there. -/
theorem witness_FootprintFollowsTheTable :
    200 + 56 ≤ 256 ∧ decSmall.snap.args[5] + decSmall.snap.args[6] = 0x21 ∧ 0x21 ≤ decSmall.params.memSize ∧
    (∀ e ∈ erasureList decSmall.mem 0x20 1, e < 1 + 1) ∧ decSmall.fp.inWrite 0xFFE = true ∧
    decSmall.fp.inCtrl 0x20 = true ∧ decSmall.fp.inReadSet 0xFFF = true := by decide +kernel

theorem witness_ResetsEstablishTheLaunchPremises :
    ({ encSmall with sched := [.powerOn] } : State).turn = .powerOn ∧ (0x3 : Word).getLsbD 1 = true := by decide +kernel

/-- A HOST that starts a GFMUL and halts. -/
def gfmulRun : State := { State.reset with prog := [.wr .cmd 0x01, .halt] }

/-- The state with the GFMUL in flight, and the state after its Complete step. -/
def gfmulBusy : State := advanceHost (accept 0x01 gfmulRun)
def gfmulDone : State := complete codesParams (runGfmul gfmulBusy) gfmulBusy

/-- The states the run of `gfmulRun` passes through. -/
theorem gfmulRun_reaches {t : State} (h : gfmulRun.reaches t) :
    t = gfmulRun ∨ t = gfmulBusy ∨ t = gfmulDone ∨ t = { gfmulDone with halted := true } := by
  refine State.reaches_induction
    (P := fun t => t = gfmulRun ∨ t = gfmulBusy ∨ t = gfmulDone ∨ t = { gfmulDone with halted := true }) h (.inl rfl) ?_
  rintro u v - (rfl | rfl | rfl | rfl) hs
  · exact .inr (.inl (Host.Outcome.next.inj hs).symm)
  · exact .inr (.inr (.inl (Host.Outcome.next.inj hs).symm))
  · exact .inr (.inr (.inr (Host.Outcome.next.inj hs).symm))
  · exact .inr (.inr (.inr (Host.Outcome.next.inj hs).symm))

theorem gfmulRun_disjointFootprints : gfmulRun.disjointFootprints := by
  intro t h
  rcases gfmulRun_reaches h with rfl | rfl | rfl | rfl <;> exact ⟨fun _ => rfl, fun _ => rfl⟩

/-- A clean entry: GFMUL names no region and reads no byte. -/
theorem witness_CleanEntryNeverLeavesMem :
    gfmulRun.CleanEntry (fun _ => 0) True ∧ gfmulRun.reaches gfmulRun ∧ gfmulRun.turn = .host ∧
    gfmulRun.prog[gfmulRun.hpc]? = some (.wr .cmd 0x01) where
  left :=
    { unitIdle := ⟨rfl, rfl, rfl⟩
      noPendingDone := ⟨rfl, rfl⟩
      memLayout := by
        rintro t i ⟨n, hn, hb, -⟩ hd a ha
        rcases gfmulRun_reaches ⟨n, hn⟩ with rfl | rfl | rfl | rfl
        · cases hb
        · have hi : i = .gfmul := (Decoded.command.inj hd).symm
          subst hi
          rcases ha with ha | ha <;> cases ha
        · cases hb
        · cases hb
      disjointFootprints := gfmulRun_disjointFootprints
      memSizeOk := fun _ => ⟨by decide, by
        intro t i h hb hd r hr
        rcases gfmulRun_reaches h with rfl | rfl | rfl | rfl
        · cases hb
        · have hi : i = .gfmul := (Decoded.command.inj hd).symm
          subst hi
          cases hr
        · cases hb
        · cases hb⟩ }
  right := ⟨State.reaches_refl _, rfl, rfl⟩

theorem witness_DisjointFootprintsMakeEveryCompletionExact :
    gfmulRun.unitIdle ∧ gfmulRun.disjointFootprints ∧ (∀ a b, Turn.platformWrite a b ∉ gfmulRun.sched) ∧
    ∃ t, gfmulRun.reaches t ∧ t.turn = .unit ∧ t.busy = true ∧ decode t.snap.cmd = .command .gfmul :=
  ⟨⟨rfl, rfl, rfl⟩, gfmulRun_disjointFootprints, fun _ _ => by simp [gfmulRun, State.reset, State.resetWith],
    ⟨gfmulBusy, ⟨1, rfl⟩, rfl, rfl, rfl⟩⟩

theorem witness_MemLayoutFixesTheFirstCommand :
    gfmulRun.unitIdle ∧ gfmulRun.memLayout (fun _ => 0) ∧
    ∃ t, gfmulRun.firstAccepts t ∧ (∀ a, t.fp.inReadSet a = true → t.mem.read a = gfmulRun.mem.read a) ∧ decode t.snap.cmd = .command .gfmul :=
  ⟨⟨rfl, rfl, rfl⟩, witness_CleanEntryNeverLeavesMem.1.memLayout,
    ⟨gfmulBusy,
      ⟨1, rfl, rfl, fun m hm u hu => by
        obtain rfl : m = 0 := by omega
        cases hu
        rfl⟩, fun _ _ => rfl, rfl⟩⟩

/-- ENC and DEC with all regions in MEM, every BLEN right, a good erasure list. -/
theorem witness_RegionsInMemLeaveOnlyTheOtherChecks :
    (∀ r ∈ namedRegions .enc encSmall.mem encSmall.snap.args, inRange encSmall.params.memSize r.base r.size = true) ∧
    (∀ r ∈ namedRegions .dec decSmall.mem decSmall.snap.args, inRange decSmall.params.memSize r.base r.size = true) ∧
    (∀ b < 1 + 1, memRead encSmall.mem (0x80 + 8 * b + 4) 4 = 1) ∧
    (∀ b < 1 + 1, memRead decSmall.mem (0x80 + 8 * b + 4) 4 = 1) ∧
    (∀ e ∈ erasureList decSmall.mem 0x20 1, e < 1 + 1) ∧ (erasureList decSmall.mem 0x20 1).Nodup ∧
    (∀ r ∈ namedRegions .invm [] (ready 0x11 [2, 0, 0xFFC] []).snap.args,
      inRange State.reset.params.memSize r.base r.size = true) ∧
    (∀ r ∈ namedRegions .tbls [] (ready 0x12 [1, 1, 0, 0xFE0] []).snap.args,
      inRange State.reset.params.memSize r.base r.size = true) ∧
    (∀ r ∈ namedRegions (.genm .cauchy) [] (ready 0x10 [1, 255, 0xF00] []).snap.args,
      inRange State.reset.params.memSize r.base r.size = true) := by decide +kernel

end Sys2Proof.Tests
end

namespace Sys2Proof.Machine

/-! ### The register block by offset (10_state.md R20 to R29) -/

theorem readReg_ctrl (s : State) : readReg 0x04 s = s.ctrlWord := rfl

theorem readReg_status (s : State) : readReg 0x08 s = s.statusWord := rfl

theorem readReg_result (s : State) : readReg 0x10 s = s.resultWord := rfl

theorem writeReg_ctrl (v : Word) (s : State) : writeReg 0x04 v s = writeCtrl v s := rfl

theorem writeReg_status (v : Word) (s : State) : writeReg 0x08 v s = writeStatus v s := rfl

theorem argOfOffset_arg (i : Fin 8) : argOfOffset (Reg.arg i).offset = some i := by
  revert i; decide

theorem readReg_arg (i : Fin 8) (s : State) : readReg (Reg.arg i).offset s = s.args[i] := by
  simp only [readReg, argOfOffset_arg]

theorem writeReg_arg (i : Fin 8) (v : Word) (s : State) :
    writeReg (Reg.arg i).offset v s = { s with args := s.args.set i v } := by
  simp only [writeReg, argOfOffset_arg]

/-- An access that is 32 bits wide and at a multiple of 4 of the block reaches its offset (10_state.md R21). -/
theorem registerOffset_ok {regBase width addr : Nat} (hlo : regBase ≤ addr) (hhi : addr < regBase + 0x40)
    (h : width = 32 ∧ (addr - regBase) % 4 = 0) : registerOffset regBase width addr = .ok (addr - regBase) := by
  rw [registerOffset, if_pos ⟨hlo, hhi⟩, if_pos h]

/-- Any other access to the block is refused (10_state.md R21). -/
theorem registerOffset_refused {regBase width addr : Nat} (hlo : regBase ≤ addr) (hhi : addr < regBase + 0x40)
    (h : ¬(width = 32 ∧ (addr - regBase) % 4 = 0)) :
    registerOffset regBase width addr = .error .registerAccess := by
  rw [registerOffset, if_pos ⟨hlo, hhi⟩, if_neg h]

/-! ### The words the HOST reads: each mask of reserved bits is the concatenation of masks of the fields -/

theorem ctrlWord_ie (s : State) : s.ctrlWord.getLsbD 0 = s.ie := by
  simp only [State.ctrlWord, BitVec.getLsbD_append, BitVec.getLsbD_ofBool]
  simp

theorem ctrlWord_reserved (s : State) : s.ctrlWord &&& 0xFFFFFFFE = 0 := by
  have hmask : (0xFFFFFFFE : Word) = ((0x7FFFFFFF : BitVec 31) ++ (0 : BitVec 1) : BitVec 32) := rfl
  rw [State.ctrlWord, hmask, BitVec.and_append]
  simp

theorem resultWord_reserved (s : State) : s.resultWord &&& 0xFFFFFF00 = 0 := by
  have hmask : (0xFFFFFF00 : Word) = ((0xFFFFFF : BitVec 24) ++ (0 : BitVec 8) : BitVec 32) := rfl
  rw [State.resultWord, Byte.toWord, BitVec.setWidth_eq_append (by decide), BitVec.cast_eq, hmask,
    BitVec.and_append]
  simp

theorem statusWord_reserved (s : State) : s.statusWord &&& 0xFFFFF0F8 = 0 := by
  have hmask : (0xFFFFF0F8 : Word) = ((0xFFFFF : BitVec 20) ++ (0 : BitVec 4) ++ (0x1F : BitVec 5) ++
    (0 : BitVec 1) ++ (0 : BitVec 1) ++ (0 : BitVec 1) : BitVec 32) := rfl
  rw [State.statusWord, hmask]
  iterate 5 rw [BitVec.and_append]
  simp

theorem statusWord_flags (s : State) :
    s.statusWord.getLsbD 0 = s.busy ∧ s.statusWord.getLsbD 1 = s.done ∧ s.statusWord.getLsbD 2 = s.cmderr := by
  simp only [State.statusWord, BitVec.getLsbD_append, BitVec.getLsbD_ofBool]
  simp

theorem statusWord_err (s : State) : s.statusWord.extractLsb' 8 4 = s.err.bits := by
  unfold State.statusWord
  iterate 4 rw [BitVec.extractLsb'_append_eq_of_le (by decide)]
  rw [BitVec.extractLsb'_append_eq_of_add_le (by decide)]
  exact BitVec.extractLsb'_eq_self

/-! ### Writes of STATUS and CTRL -/

theorem writeStatus_eq (v : Word) (s : State) :
    writeStatus v s =
      { s with
        done := if v.getLsbD 1 then false else s.done
        cmderr := if v.getLsbD 2 then false else s.cmderr } := by
  have hclear : ∀ flag bit : Bool, (flag && !bit) = if bit then false else flag := by decide
  simp only [writeStatus, hclear]

/-- A STATUS write reads bits 1 and 2 of its value alone (10_state.md R24). -/
theorem writeStatus_congr {v w : Word} (h1 : v.getLsbD 1 = w.getLsbD 1) (h2 : v.getLsbD 2 = w.getLsbD 2)
    (s : State) : writeStatus v s = writeStatus w s := by
  simp only [writeStatus, h1, h2]

/-- A CTRL write reads bits 0 and 1 of its value alone (10_state.md R23). -/
theorem writeCtrl_congr {v w : Word} (h0 : v.getLsbD 0 = w.getLsbD 0) (h1 : v.getLsbD 1 = w.getLsbD 1)
    (s : State) : writeCtrl v s = writeCtrl w s := by
  simp only [writeCtrl, h0, h1]

theorem writeCtrl_enable {v : Word} (h : v.getLsbD 1 = false) (s : State) :
    writeCtrl v s = { s with ie := v.getLsbD 0 } := by
  simp only [writeCtrl, h, Bool.false_eq_true, if_false]

theorem writeCtrl_softReset {v : Word} (h : v.getLsbD 1 = true) (s : State) :
    writeCtrl v s = softReset { s with ie := v.getLsbD 0 } := by
  simp only [writeCtrl, h, if_true]

theorem resetUnit_unitReset (s : State) : (resetUnit s).unitReset :=
  ⟨rfl, rfl, rfl, rfl, rfl, rfl, rfl, fun _ => Vector.getElem_replicate _, rfl, rfl⟩

/-- What a soft reset does to MEM: nothing while BUSY = 0; else the bytes of MEM or of FP.W are draws
(70_reset_and_hazards.md R203). -/
theorem abortDraws_cases (s : State) :
    (s.busy = false ∧ abortDraws s = s) ∨ (s.busy = true ∧ s.taint = .wild ∧ abortDraws s = drawAllMem s) ∨
      (s.busy = true ∧ s.taint ≠ .wild ∧ abortDraws s = drawWriteSet s) := by
  unfold abortDraws
  cases hb : s.busy with
  | false => exact .inl ⟨rfl, rfl⟩
  | true =>
    cases ht : s.taint with
    | wild => exact .inr (.inl ⟨rfl, rfl, rfl⟩)
    | data => exact .inr (.inr ⟨rfl, by simp, rfl⟩)
    | none => exact .inr (.inr ⟨rfl, by simp, rfl⟩)

/-- A soft reset changes, beside the unit's registers and hidden state, only MEM and the count of the draws. -/
theorem softReset_frame (s : State) : ∃ m n, softReset s = { resetUnit s with mem := m, draws := n } := by
  unfold softReset
  rcases abortDraws_cases s with ⟨-, hs⟩ | ⟨-, -, hs⟩ | ⟨-, -, hs⟩ <;> rw [hs] <;> exact ⟨_, _, rfl⟩

theorem softReset_mem_of_idle {s : State} (h : s.busy = false) : (softReset s).mem = s.mem := by
  simp [softReset, abortDraws, h]

theorem drawWriteSet_read_other (s : State) {a : Nat} (h : s.fp.inWrite a = false) :
    (drawWriteSet s).mem.read a = s.mem.read a :=
  Memory.read_scramble_other _ _ (by simp [Footprint.mem_writeAddresses, h])

/-- Unless all of MEM is drawn, a soft reset leaves the bytes outside FP.W (70_reset_and_hazards.md R203). -/
theorem softReset_read_other {s : State} (ht : s.taint ≠ .wild) {a : Nat} (h : s.fp.inWrite a = false) :
    (softReset s).mem.read a = s.mem.read a := by
  simp only [softReset, resetUnit_mem]
  rcases abortDraws_cases s with ⟨-, hs⟩ | ⟨-, hwild, -⟩ | ⟨-, -, hs⟩
  · rw [hs]
  · contradiction
  · rw [hs]; exact drawWriteSet_read_other s h

/-! ### Complete and the ARG registers -/

/-- Exec reads SNAP and MEM, never the ARG registers (10_state.md R30). -/
theorem runOf_args_irrelevant (i : Instr) (s : State) (v : Vector Word 8) :
    runOf i { s with args := v } = runOf i s := by
  cases i <;> rfl

theorem settleClean_setArgs (e : Effect) (s : State) (v : Vector Word 8) :
    settleClean e { s with args := v } = { settleClean e s with args := v } := by
  by_cases h : e.code = .success ∧ s.fp.aliases = true
  · simp only [settleClean, if_pos h]; rfl
  · simp only [settleClean, if_neg h]

/-- Complete carries the ARG registers along. -/
theorem complete_setArgs (codes : List ErrCode) (e : Effect) (s : State) (v : Vector Word 8) :
    complete codes e { s with args := v } = { complete codes e s with args := v } := by
  unfold complete
  dsimp only
  split
  · rfl
  · rfl
  · rw [settleClean_setArgs]
    rfl

/-! ### Addresses of regions and writes stay inside MEM -/

/-- A region that is in range has its bytes in MEM (20_memory.md R58). -/
theorem lt_of_inRange {memSize a size o : Nat} (h : inRange memSize a size = true) (ho : o < size) :
    a + o < memSize := by
  rcases (inRange_iff memSize a size).1 h with h | h <;> omega

/-- Every byte of FP.W of a footprint that lies in MEM is a byte of MEM (20_memory.md R60). -/
theorem lt_of_mem_writeAddresses {memSize : Nat} {fp : Footprint}
    (h : regionsInMem memSize fp.write = true) : ∀ a ∈ fp.writeAddresses, a < memSize := by
  intro a ha
  obtain ⟨r, hr, hle, hlt⟩ := (regionsContain_iff fp.write a).1 ((Footprint.mem_writeAddresses fp a).1 ha)
  have := lt_of_inRange ((regionsInMem_iff memSize fp.write).1 h r hr) (o := a - r.base) (by omega)
  omega

@[simp] theorem Effect.raise_writes (e : ErrCode) : (Effect.raise e).writes = [] := rfl

@[simp] theorem Effect.scalar_writes (v : Byte) : (Effect.scalar v).writes = [] := rfl

theorem matrixWrites_lt {memSize base rows cols : Nat} (h : inRange memSize base (rows * cols) = true)
    (elem : Nat → Nat → Byte) : ∀ w ∈ matrixWrites base rows cols elem, w.1 < memSize := by
  intro w hw
  obtain ⟨i, hi, j, hj, rfl⟩ := mem_matrixWrites.1 hw
  have := lt_of_inRange h (rowMajor_lt hi hj)
  omega

theorem blockWrites_lt {memSize base len : Nat} (h : inRange memSize base len = true) (byte : Nat → Byte) :
    ∀ w ∈ blockWrites base len byte, w.1 < memSize := by
  intro w hw
  obtain ⟨o, ho, rfl⟩ := mem_blockWrites.1 hw
  exact lt_of_inRange h ho

theorem entryWrites_bounds {base : Nat} {c : Byte} :
    ∀ w ∈ entryWrites base c, base ≤ w.1 ∧ w.1 < base + 32 := by
  intro w hw
  obtain ⟨n, hn, rfl | rfl⟩ := mem_entryWrites.1 hw <;> constructor <;> omega

theorem tableWrites_lt {memSize k p tbl : Nat} (h : inRange memSize tbl (Config.tblEntry * k * p) = true)
    (m : Memory) (mat : Nat) : ∀ w ∈ tableWrites m k p mat tbl, w.1 < memSize := by
  intro w hw
  simp only [tableWrites, List.mem_flatMap, List.mem_range] at hw
  obtain ⟨j, hj, i, hi, hw⟩ := hw
  have hbounds := entryWrites_bounds w hw
  simp only [entryAddr, Config.tblEntry] at hbounds
  have hentry : j * k + i < p * k := rowMajor_lt hj hi
  have hsize : Config.tblEntry * k * p = 32 * (p * k) := by ring
  have := lt_of_inRange (hsize ▸ h) (o := w.1 - tbl) (by omega)
  omega

/-- A descriptor that passed the check has its block in range (42_coding.md R144). -/
theorem inRange_of_descriptorsOk {memSize cw n len i : Nat} {m : Memory}
    (h : descriptorsOk memSize m cw n len = true) (hi : i < n) :
    inRange memSize (descAddr m cw i) len = true := by
  simp only [descriptorsOk, Bool.and_eq_true, List.all_eq_true, List.mem_range] at h
  exact (h.2 i hi).2

theorem lt_of_erasuresOk {n : Nat} {es : List Nat} (h : erasuresOk n es = true) {e : Nat} (he : e ∈ es) :
    e < n := by
  simp only [erasuresOk, Bool.and_eq_true, List.all_eq_true, decide_eq_true_eq] at h
  exact h.1 e he

theorem runGenm_writes_lt (mode : GenMode) (s : State) : ∀ w ∈ (runGenm mode s).writes, w.1 < s.params.memSize := by
  simp only [runGenm]
  split
  · next h =>
    simp only [Bool.and_eq_true] at h
    exact matrixWrites_lt h.2 _
  · simp

theorem runInvm_writes_lt (s : State) : ∀ w ∈ (runInvm s).writes, w.1 < s.params.memSize := by
  simp only [runInvm]
  split
  · simp
  · split
    · next h =>
      simp only [Bool.and_eq_true] at h
      split
      · simp
      · exact matrixWrites_lt h.2 _
    · simp

theorem runTbls_writes_lt (s : State) : ∀ w ∈ (runTbls s).writes, w.1 < s.params.memSize := by
  simp only [runTbls]
  split
  · next h =>
    simp only [Bool.and_eq_true] at h
    exact tableWrites_lt h.2 _ _
  · simp

theorem runEnc_writes_lt (s : State) : ∀ w ∈ (runEnc s).writes, w.1 < s.params.memSize := by
  simp only [runEnc]
  split
  · next h =>
    simp only [Bool.and_eq_true] at h
    intro w hw
    obtain ⟨j, hj, hw⟩ := List.mem_flatMap.1 hw
    exact blockWrites_lt (inRange_of_descriptorsOk h.2 (by simpa using hj)) _ w hw
  · simp

theorem runDec_writes_lt (s : State) : ∀ w ∈ (runDec s).writes, w.1 < s.params.memSize := by
  simp only [runDec]
  split
  · simp
  · split
    · simp
    · split
      · next h =>
        simp only [Bool.and_eq_true] at h
        obtain ⟨⟨-, herasures⟩, hdescs⟩ := h
        split
        · simp
        · intro w hw
          obtain ⟨e, he, hw⟩ := List.mem_flatMap.1 hw
          exact blockWrites_lt (inRange_of_descriptorsOk hdescs (lt_of_erasuresOk herasures he)) _ w hw
      · simp

theorem runGfmul_writes (s : State) : (runGfmul s).writes = [] := by unfold runGfmul; split <;> rfl

theorem runGfdiv_writes (s : State) : (runGfdiv s).writes = [] := by
  unfold runGfdiv
  split
  · split <;> rfl
  · rfl

theorem runGfinv_writes (s : State) : (runGfinv s).writes = [] := by
  unfold runGfinv
  split
  · split <;> rfl
  · rfl

/-- Every byte a command writes is a byte of MEM (20_memory.md R60). -/
theorem runOf_writes_lt (i : Instr) (s : State) : ∀ w ∈ (runOf i s).writes, w.1 < s.params.memSize := by
  cases i with
  | gfmul => simp [runOf, runGfmul_writes]
  | gfdiv => simp [runOf, runGfdiv_writes]
  | gfinv => simp [runOf, runGfinv_writes]
  | genm mode => exact runGenm_writes_lt mode s
  | invm => exact runInvm_writes_lt s
  | tbls => exact runTbls_writes_lt s
  | enc => exact runEnc_writes_lt s
  | dec => exact runDec_writes_lt s

/-! ### What Complete and a soft reset leave in MEM -/

theorem drawWriteSet_within {s : State} (h : s.mem.within s.params.memSize = true)
    (hfp : regionsInMem s.params.memSize s.fp.write = true) :
    (drawWriteSet s).mem.within s.params.memSize = true :=
  Memory.within_scramble h _ (lt_of_mem_writeAddresses hfp)

theorem drawAllMem_within {s : State} (h : s.mem.within s.params.memSize = true) :
    (drawAllMem s).mem.within s.params.memSize = true :=
  Memory.within_scramble h _ fun _ ha => List.mem_range.1 ha

/-- Complete stays inside MEM when the writes and FP.W do (20_memory.md R60). -/
theorem complete_mem_within {codes : List ErrCode} {e : Effect} {s : State}
    (h : s.mem.within s.params.memSize = true) (hfp : regionsInMem s.params.memSize s.fp.write = true)
    (hw : ∀ w ∈ e.writes, w.1 < s.params.memSize) :
    (complete codes e s).mem.within s.params.memSize = true := by
  unfold complete
  split
  · exact drawAllMem_within (s := drawErr codes s) h
  · exact drawWriteSet_within (s := drawErr codes s) h hfp
  · have hwritten := Memory.within_apply h hw
    simp only [retire_mem]
    unfold settleClean
    split
    · exact Memory.within_scramble hwritten _ (lt_of_mem_writeAddresses hfp)
    · exact hwritten

/-! ### The invariant -/

/-- The unit is idle and MEM is canonical and in bounds: nothing else is asked of such a state. -/
theorem State.Inv.of_idle {s t : State} (h : s.Inv) (hidle : t.unitIdle) (hparams : t.params = s.params)
    (hwf : t.mem.wf = true) (hwithin : t.mem.within s.params.memSize = true) : t.Inv := by
  obtain ⟨hbusy, hfp, htaint⟩ := hidle
  exact {
    memSize := hparams ▸ h.memSize
    memWf := hwf
    memWithin := hparams ▸ hwithin
    idle := fun _ => ⟨hfp, htaint⟩
    inFlight := by simp [hbusy]
    cmdLast := by simp [hbusy]
    fpInMem := hfp ▸ ⟨rfl, rfl, rfl⟩
    noMem := by simp [hbusy] }

theorem State.Inv.fpWriteInMem {s : State} (h : s.Inv) : regionsInMem s.params.memSize s.fp.write = true := by
  obtain ⟨-, -, hwrite⟩ := h.fpInMem
  exact hwrite

theorem State.Inv.popTurn {s : State} (h : s.Inv) : s.popTurn.Inv :=
  { h with }

theorem State.Inv.hostOnly {u t : State} (h : u.Inv) (ht : HostOnly u t) : t.Inv := by
  obtain ⟨_, _, _, _, _, rfl⟩ := ht
  exact { h with }

theorem State.Inv.resetUnit {s : State} (h : s.Inv) : (resetUnit s).Inv :=
  h.of_idle ⟨rfl, rfl, rfl⟩ rfl h.memWf h.memWithin

theorem State.Inv.abortDraws {s : State} (h : s.Inv) : (abortDraws s).Inv := by
  rcases abortDraws_cases s with ⟨-, hs⟩ | ⟨-, -, hs⟩ | ⟨-, -, hs⟩ <;> rw [hs]
  · exact h
  · exact { h with memWf := Memory.wf_scramble h.memWf _ _, memWithin := drawAllMem_within h.memWithin }
  · exact { h with
      memWf := Memory.wf_scramble h.memWf _ _
      memWithin := drawWriteSet_within h.memWithin h.fpWriteInMem }

theorem State.Inv.writeCtrl {s : State} (h : s.Inv) (v : Word) : (writeCtrl v s).Inv := by
  have henabled : State.Inv { s with ie := v.getLsbD 0 } := { h with }
  unfold Machine.writeCtrl
  split
  · exact henabled.abortDraws.resetUnit
  · exact henabled

theorem State.Inv.writeStatus {s : State} (h : s.Inv) (v : Word) : (writeStatus v s).Inv :=
  { h with
    inFlight := fun hb => by
      obtain ⟨hdone, herr⟩ := h.inFlight hb
      exact ⟨by simp [hdone], herr⟩ }

theorem State.Inv.accept {s : State} (h : s.Inv) (w : Word) : (accept w s).Inv where
  memSize := h.memSize
  memWf := h.memWf
  memWithin := h.memWithin
  idle := by simp
  inFlight _ := ⟨rfl, rfl⟩
  cmdLast _ := rfl
  fpInMem := footprint_inMem _ _ _
  noMem _ hn := ⟨footprint_of_noMem _ _ hn, rfl⟩

theorem State.Inv.writeCmd {s : State} (h : s.Inv) (w : Word) : (writeCmd w s).Inv := by
  unfold Machine.writeCmd
  split
  · exact { h with }
  · exact h.accept w

/-- A register write keeps the invariant (10_state.md R20 to R29). -/
theorem State.Inv.writeReg {s : State} (h : s.Inv) (off : Nat) (v : Word) : (writeReg off v s).Inv := by
  rcases writeReg_cases off v s with ⟨i, hw⟩ | ⟨-, hw⟩ | ⟨-, hw⟩ | ⟨-, hw⟩ | hw <;> rw [hw]
  · exact { h with }
  · exact h.writeCtrl v
  · exact h.writeStatus v
  · exact h.writeCmd v
  · exact h

/-- No byte is in the empty footprint, so no write races with it (20_memory.md R69). -/
theorem raceTaint_empty (a : Nat) (t : Taint) : raceTaint Footprint.empty a t = t := rfl

/-- A byte stored in MEM keeps the invariant: a race can only taint a command with a footprint. -/
theorem State.Inv.storeByte {s t : State} {a : Nat} {b : Byte} (h : s.Inv) (ht : storeByte a b s = .next t) :
    t.Inv := by
  obtain ⟨ha, rfl⟩ := storeByte_cases ht
  exact { h with
    memWf := Memory.wf_write h.memWf a b
    memWithin := Memory.within_write h.memWithin ha b
    idle := fun hb => by simpa [show s.busy = false from hb] using h.idle hb
    noMem := fun hb hn => by
      obtain ⟨hfp, htaint⟩ := h.noMem hb hn
      exact ⟨hfp, by simp [hfp, htaint, raceTaint_empty]⟩ }

/-- Complete keeps the invariant when the command writes inside MEM. -/
theorem State.Inv.complete {s : State} (h : s.Inv) (codes : List ErrCode) {e : Effect}
    (hw : ∀ w ∈ e.writes, w.1 < s.params.memSize) : (complete codes e s).Inv :=
  h.of_idle ⟨by simp, by simp, by simp⟩ (by simp) (complete_mem_wf codes e h.memWf)
    (complete_mem_within h.memWithin h.fpWriteInMem hw)

/-- The UNIT's step keeps the invariant: idle, the completion of a command, or that of an illegal word. -/
theorem State.Inv.unitStep {s t : State} (h : s.Inv) (ht : unitStep s = .next t) : t.Inv := by
  rcases unitStep_cases s with ⟨-, hu⟩ | ⟨i, -, -, hu⟩ | ⟨why, -, -, hu⟩ <;>
    rw [hu] at ht <;> cases ht
  · exact h
  · exact h.complete (codesOf i) (runOf_writes_lt i s)
  · exact h.complete _ (by simp)

theorem State.Inv.hostStep {s t : State} (h : s.Inv) (ht : hostStep s = .next t) : t.Inv := by
  obtain ⟨u, heffect, hto⟩ := hostStep_effect ht
  refine State.Inv.hostOnly ?_ hto
  cases heffect with
  | nothing hu => exact hu ▸ h
  | racingRead hu => exact hu ▸ { h with }
  | register off v hu => exact hu ▸ h.writeReg off v
  | store a b hu => exact h.storeByte hu

/-- Settles O50, agent by agent. -/
theorem everyStepKeepsTheInvariant : Obligations.EveryStepKeepsTheInvariant := by
  intro s t h hstep
  rcases step_cases hstep with ⟨-, hs⟩ | ⟨-, hs⟩ | ⟨-, rfl⟩ | ⟨a, b, -, hs⟩
  · exact h.popTurn.hostStep hs
  · exact h.popTurn.unitStep hs
  · exact h.popTurn.resetUnit
  · exact h.popTurn.storeByte hs

/-! ### A footprint rests on its control set alone -/

/-- A descriptor's ADDR rests on the bytes of the descriptor table alone (20_memory.md R62). -/
theorem descAddr_congr {m m' : Memory} {cw n i : Nat}
    (h : ∀ x, cw ≤ x → x < cw + Config.descSize * n → m.read x = m'.read x) (hi : i < n) :
    descAddr m cw i = descAddr m' cw i := by
  refine memRead_congr fun x hle hlt => h x ?_ ?_ <;> simp only [Config.descSize] at * <;> omega

/-- The erasure list rests on its own bytes alone (20_memory.md R64). -/
theorem erasureList_congr {m m' : Memory} {eras ecount : Nat}
    (h : ∀ x, eras ≤ x → x < eras + ecount → m.read x = m'.read x) :
    erasureList m eras ecount = erasureList m' eras ecount := by
  refine List.map_congr_left fun q hq => ?_
  have hq := List.mem_range.1 hq
  rw [h (eras + q) (by omega) (by omega)]

/-- The two memories agree on the bytes of a region: what `regionIfIn` puts in FP.C when the region is in range. -/
theorem read_eq_of_regionIfIn {memSize a size : Nat} {m m' : Memory}
    (h : memAgree (regionsContain (regionIfIn memSize a size)) m m') (hin : inRange memSize a size = true) :
    ∀ x, a ≤ x → x < a + size → m.read x = m'.read x :=
  fun x hle hlt => h x ((regionsContain_regionIfIn hin x).2 ⟨hle, hlt⟩)

theorem memAgree_append {rs qs : List Region} {m m' : Memory} :
    memAgree (regionsContain (rs ++ qs)) m m' ↔
      memAgree (regionsContain rs) m m' ∧ memAgree (regionsContain qs) m m' := by
  simp [memAgree, regionsContain_append, or_imp, forall_and]

/-- The block regions rest on the descriptor table alone (20_memory.md R59). -/
theorem blockRegions_congr {memSize cw n : Nat} {m m' : Memory}
    (h : memAgree (regionsContain (regionIfIn memSize cw (Config.descSize * n))) m m') (len : Nat) (is : List Nat) :
    blockRegions memSize m cw n len is = blockRegions memSize m' cw n len is := by
  unfold blockRegions
  split
  · next hin =>
    refine List.flatMap_congr fun i hi => ?_
    rw [descAddr_congr (read_eq_of_regionIfIn h hin) (by simpa using (List.mem_filter.1 hi).2)]
  · rfl

theorem footprintErasures_congr {memSize eras ecount : Nat} {m m' : Memory}
    (h : memAgree (regionsContain (regionIfIn memSize eras ecount)) m m') :
    footprintErasures memSize m eras ecount = footprintErasures memSize m' eras ecount := by
  unfold footprintErasures
  split
  · next hin => rw [erasureList_congr (read_eq_of_regionIfIn h hin)]
  · rfl

theorem footprintEnc_congr {memSize len k p tbl cw : Nat} {m m' : Memory}
    (h : memAgree (footprintEnc memSize m len k p tbl cw).inCtrl m m') :
    footprintEnc memSize m len k p tbl cw = footprintEnc memSize m' len k p tbl cw := by
  unfold footprintEnc at h ⊢
  split at h
  · next hk => simp only [hk, if_true, blockRegions_congr h]
  · next hk => rw [if_neg hk, if_neg hk]

theorem footprintDec_congr {memSize len k p mat cw eras ecount : Nat} {m m' : Memory}
    (h : memAgree (footprintDec memSize m len k p mat cw eras ecount).inCtrl m m') :
    footprintDec memSize m len k p mat cw eras ecount = footprintDec memSize m' len k p mat cw eras ecount := by
  simp only [footprintDec] at h ⊢
  split at h
  · next hk =>
    obtain ⟨htable, hlist⟩ := memAgree_append.1 h
    simp only [hk, if_true, footprintErasures_congr hlist, blockRegions_congr htable]
  · next hk => rw [if_neg hk, if_neg hk]

/-- A command's footprint is the same in a memory that agrees on its control set (20_memory.md R59). -/
theorem footprintOf_congr {i : Instr} {memSize : Nat} {m m' : Memory} {args : Vector Word 8}
    (h : memAgree (footprintOf i memSize m args).inCtrl m m') :
    footprintOf i memSize m args = footprintOf i memSize m' args := by
  cases i with
  | gfmul => rfl
  | gfdiv => rfl
  | gfinv => rfl
  | genm _ => rfl
  | invm => rfl
  | tbls => rfl
  | enc => exact footprintEnc_congr h
  | dec => exact footprintDec_congr h

theorem footprint_congr {memSize : Nat} {m m' : Memory} {snap : Snapshot}
    (h : memAgree (footprint memSize m snap).inCtrl m m') : footprint memSize m snap = footprint memSize m' snap := by
  unfold footprint at h ⊢
  split
  · next i hi => exact footprintOf_congr (by simpa only [hi] using h)
  · rfl

/-- A byte stored outside FP.C leaves the footprint as it was (20_memory.md R69). -/
theorem footprint_write {memSize a : Nat} {m : Memory} {snap : Snapshot}
    (h : (footprint memSize m snap).inCtrl a = false) (b : Byte) :
    footprint memSize (m.write a b) snap = footprint memSize m snap := by
  refine (footprint_congr fun x hx => (Memory.read_write_other m (fun hxa => ?_) b).symm).symm
  rw [hxa, h] at hx
  cases hx

/-! ### The footprint stays current -/

/-- Only a write in FP.C raises TAINT to WILD, and nothing lowers it (20_memory.md R69). -/
theorem of_raceTaint_ne_wild {fp : Footprint} {a : Nat} {t : Taint} (h : raceTaint fp a t ≠ .wild) :
    fp.inCtrl a = false ∧ t ≠ .wild := by
  unfold raceTaint at h
  split at h
  · contradiction
  · next hc =>
    refine ⟨by simpa using hc, ?_⟩
    rintro rfl
    split at h <;> contradiction

theorem State.footprintCurrent.of_idle {t : State} (h : t.busy = false) : t.footprintCurrent :=
  fun hb => by simp [h] at hb

theorem State.footprintCurrent.hostOnly {u t : State} (h : u.footprintCurrent) (ht : HostOnly u t) :
    t.footprintCurrent := by
  obtain ⟨_, _, _, _, _, rfl⟩ := ht
  exact h

theorem State.footprintCurrent.writeCtrl {s : State} (h : s.footprintCurrent) (v : Word) :
    (writeCtrl v s).footprintCurrent := by
  unfold Machine.writeCtrl
  split
  · exact .of_idle rfl
  · exact h

theorem State.footprintCurrent.writeCmd {s : State} (h : s.footprintCurrent) (w : Word) :
    (writeCmd w s).footprintCurrent := by
  unfold Machine.writeCmd
  split
  · exact h
  · exact fun _ _ => rfl

/-- A register write keeps the footprint current: an ARG register is not in SNAP (10_state.md R30). -/
theorem State.footprintCurrent.writeReg {s : State} (h : s.footprintCurrent) (off : Nat) (v : Word) :
    (writeReg off v s).footprintCurrent := by
  rcases writeReg_cases off v s with ⟨i, hw⟩ | ⟨-, hw⟩ | ⟨-, hw⟩ | ⟨-, hw⟩ | hw <;> rw [hw]
  · exact h
  · exact h.writeCtrl v
  · exact h
  · exact h.writeCmd v
  · exact h

theorem State.footprintCurrent.storeByte {s t : State} {a : Nat} {b : Byte} (h : s.footprintCurrent)
    (ht : storeByte a b s = .next t) : t.footprintCurrent := by
  obtain ⟨-, rfl⟩ := storeByte_cases ht
  intro hbusy htaint
  have hb : s.busy = true := hbusy
  simp only [hb, if_true] at htaint
  obtain ⟨hctrl, hs⟩ := of_raceTaint_ne_wild htaint
  have hfp : s.fp = footprint s.params.memSize s.mem s.snap := h hb hs
  exact hfp.trans (footprint_write (hfp ▸ hctrl) b).symm

theorem State.footprintCurrent.hostStep {s t : State} (h : s.footprintCurrent) (ht : hostStep s = .next t) :
    t.footprintCurrent := by
  obtain ⟨u, heffect, hto⟩ := hostStep_effect ht
  refine State.footprintCurrent.hostOnly ?_ hto
  cases heffect with
  | nothing hu => exact hu ▸ h
  | racingRead hu => exact hu ▸ h
  | register off v hu => exact hu ▸ h.writeReg off v
  | store a b hu => exact h.storeByte hu

/-- After its step the UNIT is idle (70_reset_and_hazards.md R205). -/
theorem unitStep_busy {s t : State} (h : unitStep s = .next t) : t.busy = false := by
  rcases unitStep_cases s with ⟨hb, hu⟩ | ⟨i, -, -, hu⟩ | ⟨why, -, -, hu⟩ <;> rw [hu] at h <;> cases h
  · exact hb
  · exact complete_busy _ _ _
  · exact complete_busy _ _ _

/-- Settles O51: only a write in FP.C could change the footprint, and it raises TAINT to WILD. -/
theorem everyStepKeepsTheFootprintCurrent : Obligations.EveryStepKeepsTheFootprintCurrent := by
  intro s t h hstep
  have hpop : s.popTurn.footprintCurrent := h
  rcases step_cases hstep with ⟨-, hs⟩ | ⟨-, hs⟩ | ⟨-, rfl⟩ | ⟨a, b, -, hs⟩
  · exact hpop.hostStep hs
  · exact .of_idle (unitStep_busy hs)
  · exact .of_idle rfl
  · exact hpop.storeByte hs

/-! ### The register block and the commands in flight -/

/-- Settles O5: bit 1 of the value chooses between setting IE and the soft reset. -/
theorem ctrlWriteEnablesOrSoftResets : Obligations.CtrlWriteEnablesOrSoftResets := by
  intro s v
  rw [readReg_ctrl, writeReg_ctrl]
  refine ⟨ctrlWord_ie s, fun h => writeCtrl_enable h s, fun h => ?_⟩
  rw [writeCtrl_softReset h]
  refine ⟨resetUnit_unitReset _, fun hb => softReset_mem_of_idle hb,
    fun _ ht a ha => softReset_read_other (s := { s with ie := v.getLsbD 0 }) ht ha, ?_⟩
  obtain ⟨m, n, hframe⟩ := softReset_frame { s with ie := v.getLsbD 0 }
  rw [hframe]
  exact ⟨rfl, rfl, rfl, rfl, rfl, rfl⟩

/-- Settles O40: Complete carries the ARG registers along, and Exec does not read them. -/
theorem argWritesDoNotReachACommandInFlight : Obligations.ArgWritesDoNotReachACommandInFlight := by
  intro i s v
  refine ⟨_, exec_eq_complete i s, ?_⟩
  rw [exec_eq_complete, runOf_args_irrelevant, complete_setArgs]

/-- Settles O2: CTRL and STATUS read the bits of a written value that the mask keeps, and no other. -/
theorem readOnlyAndReservedBitsIgnoreWrites : Obligations.ReadOnlyAndReservedBitsIgnoreWrites := by
  intro s v
  simp only [readReg_ctrl, readReg_status, readReg_result, writeReg_ctrl, writeReg_status]
  refine ⟨?unmapped, ?readOnly, rfl, resultWord_reserved s, rfl, ctrlWord_reserved s, statusWord_reserved s,
    ?ctrl, ?status⟩
  case unmapped =>
    simp only [List.forall_mem_cons]
    exact ⟨⟨rfl, rfl⟩, ⟨rfl, rfl⟩, ⟨rfl, rfl⟩, by simp⟩
  case readOnly =>
    simp only [List.forall_mem_cons]
    exact ⟨rfl, rfl, by simp⟩
  case ctrl => exact writeCtrl_congr (by simp) (by simp) s
  case status => exact writeStatus_congr (by simp) (by simp) s

/-- Settles O3, field by field of the STATUS word. -/
theorem statusBitsAndWriteOneToClear : Obligations.StatusBitsAndWriteOneToClear := by
  refine ⟨rfl, rfl, rfl, rfl, rfl, fun s v => ?_⟩
  rw [readReg_status, writeReg_status]
  obtain ⟨hbusy, hdone, hcmderr⟩ := statusWord_flags s
  exact ⟨hbusy, hdone, hcmderr, statusWord_err s, writeStatus_eq v s⟩

/-- Settles O4, from the two rules of an ARG register's offset. -/
theorem argRegistersReadBack : Obligations.ArgRegistersReadBack := by
  intro s i j v
  simp only [writeReg_arg, readReg_arg]
  refine ⟨Vector.getElem_set_self i.isLt, fun hij => Vector.getElem_set_ne i.isLt j.isLt ?_, trivial⟩
  exact fun h => hij (Fin.ext h)

/-- Settles O9: where the access lands decides both the read and the write. -/
theorem registerAccessWidthAndAlignment : Obligations.RegisterAccessWidthAndAlignment := by
  intro s width addr v hlo hhi
  constructor
  · intro h
    simp only [hostOpStep, hostWrite, hostRead, registerOffset_ok hlo hhi h]
    exact ⟨trivial, _, rfl, rfl⟩
  · intro h
    simp only [hostOpStep, hostWrite, hostRead, registerOffset_refused hlo hhi h]
    exact ⟨trivial, trivial⟩

end Sys2Proof.Machine

namespace Sys2Proof.Machine

/-! ### The bytes of a footprint (20_memory.md R59) -/

/-- x is a byte of the region (a, n), and the region lies in MEM: what a region adds to a footprint. -/
def InRegion (memSize a n x : Nat) : Prop := a ≤ x ∧ x < a + n ∧ a + n ≤ memSize

/-- x is a byte of a block in MEM that the table of n descriptors at cw gives to a listed index; no block when the
table fails InRange. -/
def InBlocks (memSize : Nat) (m : Memory) (cw n len : Nat) (is : List Nat) (x : Nat) : Prop :=
  cw + Config.descSize * n ≤ memSize ∧ ∃ i ∈ is, InRegion memSize (descAddr m cw i) len x

theorem inRegion_of_inRange {memSize a n x : Nat} (h : inRange memSize a n = true) :
    InRegion memSize a n x ↔ a ≤ x ∧ x < a + n := by
  unfold InRegion
  rcases (inRange_iff memSize a n).1 h with h | h <;> omega

theorem regionsContain_regionIfIn_iff (memSize a n x : Nat) :
    regionsContain (regionIfIn memSize a n) x = true ↔ InRegion memSize a n x := by
  by_cases h : inRange memSize a n = true
  · rw [regionsContain_regionIfIn h, inRegion_of_inRange h]
  · have hout : ¬InRegion memSize a n x := fun ⟨_, _, hmem⟩ => h ((inRange_iff _ _ _).2 (.inr hmem))
    simp [regionIfIn, h, hout, regionsContain]

theorem regionsContain_blockRegions_iff {memSize : Nat} {m : Memory} {cw n len : Nat} {is : List Nat}
    (his : ∀ i ∈ is, i < n) (x : Nat) :
    regionsContain (blockRegions memSize m cw n len is) x = true ↔ InBlocks memSize m cw n len is x := by
  by_cases h : inRange memSize cw (Config.descSize * n) = true
  · rw [regionsContain_blockRegions h]
    constructor
    · rintro ⟨i, hi, hin, hr, hx⟩
      refine ⟨?_, i, hi, (inRegion_of_inRange hr).2 hx⟩
      rcases (inRange_iff _ _ _).1 h with h | h <;> simp only [Config.descSize] at * <;> omega
    · rintro ⟨-, i, hi, hle, hlt, hmem⟩
      exact ⟨i, hi, his i hi, (inRange_iff _ _ _).2 (.inr hmem), hle, hlt⟩
  · have hout : ¬InBlocks memSize m cw n len is x := fun ⟨hmem, _⟩ => h ((inRange_iff _ _ _).2 (.inr hmem))
    simp [blockRegions, h, hout, regionsContain]

theorem inBlocks_congr {memSize : Nat} {m : Memory} {cw n len : Nat} {is js : List Nat}
    (h : ∀ i, i ∈ is ↔ i ∈ js) (x : Nat) : InBlocks memSize m cw n len is x ↔ InBlocks memSize m cw n len js x := by
  simp only [InBlocks, h]

/-! ### The footprint of each command, when its sizes form one -/

theorem formable_of_le {k p : Nat} (h : k + p ≤ 256) : formable k p = true := decide_eq_true h

theorem footprintGenm_eq {memSize k p mat : Nat} (h : k + p ≤ 256) :
    footprintGenm memSize k p mat = ⟨[], [], regionIfIn memSize mat ((k + p) * k)⟩ :=
  if_pos (formable_of_le h)

theorem footprintInvm_eq {memSize n src dst : Nat} (h : n ≤ 256) :
    footprintInvm memSize n src dst = ⟨[], regionIfIn memSize src (n * n), regionIfIn memSize dst (n * n)⟩ :=
  if_pos h

theorem footprintTbls_eq {memSize k p mat tbl : Nat} (h : k + p ≤ 256) :
    footprintTbls memSize k p mat tbl =
      ⟨[], regionIfIn memSize (mat + k * k) (p * k), regionIfIn memSize tbl (Config.tblEntry * k * p)⟩ :=
  if_pos (formable_of_le h)

theorem footprintEnc_eq {memSize len k p tbl cw : Nat} (m : Memory) (h : k + p ≤ 256) :
    footprintEnc memSize m len k p tbl cw =
      ⟨regionIfIn memSize cw (Config.descSize * (k + p)),
        regionIfIn memSize tbl (Config.tblEntry * k * p) ++ blockRegions memSize m cw (k + p) len (List.range k),
        blockRegions memSize m cw (k + p) len (List.range' k p)⟩ :=
  if_pos (formable_of_le h)

/-- Survivors and erased blocks of a list that is in range are those of the list itself: repeats do not matter. -/
theorem survivors_eraseDups (n k : Nat) (es : List Nat) : survivors n k es.eraseDups = survivors n k es := by
  have hcontains : ∀ i, es.eraseDups.contains i = es.contains i := fun i => by
    rw [Bool.eq_iff_iff, List.contains_iff_mem, List.contains_iff_mem, List.mem_eraseDups]
  simp only [survivors, hcontains]

theorem footprintDec_eq {memSize len k p mat cw eras ecount : Nat} {m : Memory} (h : k + p ≤ 256)
    (heras : inRange memSize eras ecount = true) :
    footprintDec memSize m len k p mat cw eras ecount =
      ⟨regionIfIn memSize cw (Config.descSize * (k + p)) ++ regionIfIn memSize eras ecount,
        regionIfIn memSize mat ((k + p) * k) ++
          blockRegions memSize m cw (k + p) len (survivors (k + p) k (erasureList m eras ecount)),
        blockRegions memSize m cw (k + p) len (erasureList m eras ecount).eraseDups⟩ := by
  simp only [footprintDec, formable_of_le h, footprintErasures, heras, if_true, survivors_eraseDups]

theorem lt_of_mem_survivors {n k : Nat} {es : List Nat} {i : Nat} (h : i ∈ survivors n k es) : i < n :=
  List.mem_range.1 (List.mem_of_mem_filter (List.mem_of_mem_take h))

theorem lt_of_mem_codingIndices {k p : Nat} : ∀ i ∈ List.range' k p, i < k + p :=
  fun _ hi => (List.mem_range'_1.1 hi).2

/-! ### FP.C, the read set and FP.W as sets of bytes -/

theorem footprintGenm_inWrite {memSize k p mat : Nat} (h : k + p ≤ 256) (x : Nat) :
    (footprintGenm memSize k p mat).inWrite x = true ↔ InRegion memSize mat ((k + p) * k) x := by
  rw [footprintGenm_eq h, Footprint.inWrite, regionsContain_regionIfIn_iff]

theorem footprintInvm_inWrite {memSize n src dst : Nat} (h : n ≤ 256) (x : Nat) :
    (footprintInvm memSize n src dst).inWrite x = true ↔ InRegion memSize dst (n * n) x := by
  rw [footprintInvm_eq h, Footprint.inWrite, regionsContain_regionIfIn_iff]

theorem footprintTbls_inWrite {memSize k p mat tbl : Nat} (h : k + p ≤ 256) (x : Nat) :
    (footprintTbls memSize k p mat tbl).inWrite x = true ↔ InRegion memSize tbl (Config.tblEntry * k * p) x := by
  rw [footprintTbls_eq h, Footprint.inWrite, regionsContain_regionIfIn_iff]

theorem footprintEnc_inWrite {memSize len k p tbl cw : Nat} {m : Memory} (h : k + p ≤ 256) (x : Nat) :
    (footprintEnc memSize m len k p tbl cw).inWrite x = true ↔
      InBlocks memSize m cw (k + p) len (List.range' k p) x := by
  rw [footprintEnc_eq m h, Footprint.inWrite, regionsContain_blockRegions_iff lt_of_mem_codingIndices]

theorem footprintDec_inWrite {memSize len k p mat cw eras ecount : Nat} {m : Memory} (h : k + p ≤ 256)
    (heras : inRange memSize eras ecount = true) (hes : ∀ e ∈ erasureList m eras ecount, e < k + p) (x : Nat) :
    (footprintDec memSize m len k p mat cw eras ecount).inWrite x = true ↔
      InBlocks memSize m cw (k + p) len (erasureList m eras ecount) x := by
  rw [footprintDec_eq h heras, Footprint.inWrite,
    regionsContain_blockRegions_iff fun e he => hes e (List.mem_eraseDups.1 he)]
  exact inBlocks_congr (fun _ => List.mem_eraseDups) x

theorem footprintInvm_inReadSet {memSize n src dst : Nat} (h : n ≤ 256) (x : Nat) :
    (footprintInvm memSize n src dst).inReadSet x = true ↔ InRegion memSize src (n * n) x := by
  rw [footprintInvm_eq h]
  exact regionsContain_regionIfIn_iff _ _ _ _

theorem footprintTbls_inReadSet {memSize k p mat tbl : Nat} (h : k + p ≤ 256) (x : Nat) :
    (footprintTbls memSize k p mat tbl).inReadSet x = true ↔ InRegion memSize (mat + k * k) (p * k) x := by
  rw [footprintTbls_eq h]
  exact regionsContain_regionIfIn_iff _ _ _ _

theorem footprintEnc_inCtrl {memSize len k p tbl cw : Nat} {m : Memory} (h : k + p ≤ 256) (x : Nat) :
    (footprintEnc memSize m len k p tbl cw).inCtrl x = true ↔
      InRegion memSize cw (Config.descSize * (k + p)) x := by
  rw [footprintEnc_eq m h, Footprint.inCtrl, regionsContain_regionIfIn_iff]

theorem footprintEnc_inReadSet {memSize len k p tbl cw : Nat} {m : Memory} (h : k + p ≤ 256) (x : Nat) :
    let fp := footprintEnc memSize m len k p tbl cw
    fp.inReadSet x = true ↔ fp.inCtrl x = true ∨ InRegion memSize tbl (Config.tblEntry * k * p) x ∨
      InBlocks memSize m cw (k + p) len (List.range k) x := by
  have hdata : ∀ i ∈ List.range k, i < k + p := fun i hi => by have := List.mem_range.1 hi; omega
  rw [footprintEnc_eq m h]
  simp only [Footprint.inReadSet, Footprint.inCtrl, regionsContain_append, Bool.or_eq_true,
    regionsContain_regionIfIn_iff, regionsContain_blockRegions_iff hdata]

theorem footprintDec_inCtrl {memSize len k p mat cw eras ecount : Nat} {m : Memory} (h : k + p ≤ 256)
    (heras : inRange memSize eras ecount = true) (x : Nat) :
    (footprintDec memSize m len k p mat cw eras ecount).inCtrl x = true ↔
      InRegion memSize cw (Config.descSize * (k + p)) x ∨ InRegion memSize eras ecount x := by
  rw [footprintDec_eq h heras]
  simp only [Footprint.inCtrl, regionsContain_append, Bool.or_eq_true, regionsContain_regionIfIn_iff]

theorem footprintDec_inReadSet {memSize len k p mat cw eras ecount : Nat} {m : Memory} (h : k + p ≤ 256)
    (heras : inRange memSize eras ecount = true) (x : Nat) :
    let fp := footprintDec memSize m len k p mat cw eras ecount
    fp.inReadSet x = true ↔ fp.inCtrl x = true ∨ InRegion memSize mat ((k + p) * k) x ∨
      InBlocks memSize m cw (k + p) len (survivors (k + p) k (erasureList m eras ecount)) x := by
  rw [footprintDec_eq h heras]
  simp only [Footprint.inReadSet, Footprint.inCtrl, regionsContain_append, Bool.or_eq_true,
    regionsContain_regionIfIn_iff, regionsContain_blockRegions_iff fun _ => lt_of_mem_survivors]

/-- Settles O52, command by command, from the sets of bytes of each footprint. -/
theorem footprintFollowsTheTable : Obligations.FootprintFollowsTheTable := by
  intro size m args x v inside blk
  refine ⟨?scalar, ?genm, ?invm, ?tbls, ?enc, ?dec⟩
  case scalar => rintro i (rfl | rfl | rfl) <;> rfl
  case genm =>
    intro h mode
    exact ⟨congrArg (Footprint.inReadSet · x) (footprintGenm_eq h), footprintGenm_inWrite h x⟩
  case invm =>
    intro h
    exact ⟨congrArg (Footprint.inCtrl · x) (footprintInvm_eq h), footprintInvm_inReadSet h x,
      footprintInvm_inWrite h x⟩
  case tbls =>
    intro h
    exact ⟨congrArg (Footprint.inCtrl · x) (footprintTbls_eq h), footprintTbls_inReadSet h x,
      footprintTbls_inWrite h x⟩
  case enc =>
    intro h
    refine ⟨footprintEnc_inCtrl h x, (footprintEnc_inReadSet h x).trans ?_, (footprintEnc_inWrite h x).trans ?_⟩
    · simp only [InBlocks, List.mem_range]
      exact Iff.rfl
    · simp only [InBlocks, List.mem_range'_1, and_assoc, and_left_comm (a := _ ≤ _)]
      exact Iff.rfl
  case dec =>
    intro h heras hes
    have hin := (inRange_iff size (v 5) (v 6)).2 heras
    exact ⟨footprintDec_inCtrl h hin x, footprintDec_inReadSet h hin x, footprintDec_inWrite h hin hes x⟩

/-! ### The addresses a command writes -/

/-- The offsets of the elements of a row-major R×C matrix are all those below R·C. -/
theorem exists_rowMajor_iff {rows cols o : Nat} :
    (∃ i < rows, ∃ j < cols, i * cols + j = o) ↔ o < rows * cols := by
  constructor
  · rintro ⟨i, hi, j, hj, rfl⟩
    exact rowMajor_lt hi hj
  · intro ho
    have hcols : 0 < cols := Nat.pos_of_mul_pos_left (Nat.zero_lt_of_lt ho)
    exact ⟨o / cols, Nat.div_lt_of_lt_mul (Nat.mul_comm rows cols ▸ ho), o % cols, Nat.mod_lt o hcols,
      Nat.div_add_mod' o cols⟩

theorem mem_matrixWrites_addresses {base rows cols : Nat} {elem : Nat → Nat → Byte} {a : Nat} :
    a ∈ (matrixWrites base rows cols elem).map Prod.fst ↔ base ≤ a ∧ a < base + rows * cols := by
  have hoffset : base ≤ a ∧ a < base + rows * cols ↔ base ≤ a ∧ a - base < rows * cols := by omega
  rw [hoffset, ← exists_rowMajor_iff]
  simp only [List.mem_map, mem_matrixWrites]
  constructor
  · rintro ⟨w, ⟨i, hi, j, hj, rfl⟩, rfl⟩
    exact ⟨by dsimp only; omega, i, hi, j, hj, by dsimp only; omega⟩
  · rintro ⟨hle, i, hi, j, hj, ho⟩
    exact ⟨_, ⟨i, hi, j, hj, rfl⟩, by dsimp only; omega⟩

theorem mem_blockWrites_addresses {base len : Nat} {byte : Nat → Byte} {a : Nat} :
    a ∈ (blockWrites base len byte).map Prod.fst ↔ base ≤ a ∧ a < base + len := by
  simp only [List.mem_map, mem_blockWrites]
  constructor
  · rintro ⟨w, ⟨o, ho, rfl⟩, rfl⟩
    exact ⟨by dsimp only; omega, by dsimp only; omega⟩
  · rintro ⟨hle, hlt⟩
    exact ⟨_, ⟨a - base, by omega, rfl⟩, by dsimp only; omega⟩

theorem mem_flatMap_blockWrites_addresses {ι : Type} {is : List ι} {base : ι → Nat} {len : Nat}
    {byte : ι → Nat → Byte} {a : Nat} : a ∈ (is.flatMap fun i => blockWrites (base i) len (byte i)).map Prod.fst ↔
      ∃ i ∈ is, base i ≤ a ∧ a < base i + len := by
  simp only [List.map_flatMap, List.mem_flatMap, mem_blockWrites_addresses]

theorem mem_entryWrites_addresses {base : Nat} {c : Byte} {a : Nat} :
    a ∈ (entryWrites base c).map Prod.fst ↔ base ≤ a ∧ a < base + 32 := by
  rw [List.mem_map]
  constructor
  · rintro ⟨w, hw, rfl⟩
    exact entryWrites_bounds w hw
  · rintro ⟨hle, hlt⟩
    by_cases hlow : a < base + 16
    · exact ⟨_, mem_entryWrites.2 ⟨a - base, by omega, .inl rfl⟩, by dsimp only; omega⟩
    · exact ⟨_, mem_entryWrites.2 ⟨a - (base + 16), by omega, .inr rfl⟩, by dsimp only; omega⟩

/-- The entries of a table set lie one behind the other (42_coding.md R140). -/
theorem mem_tableWrites_addresses {m : Memory} {k p mat tbl a : Nat} :
    a ∈ (tableWrites m k p mat tbl).map Prod.fst ↔ tbl ≤ a ∧ a < tbl + Config.tblEntry * k * p := by
  have hoffset : tbl ≤ a ∧ a < tbl + Config.tblEntry * k * p ↔ tbl ≤ a ∧ (a - tbl) / 32 < p * k := by
    have hsize : Config.tblEntry * k * p = p * k * 32 := by simp only [Config.tblEntry]; ring
    rw [hsize]
    omega
  rw [hoffset, ← exists_rowMajor_iff]
  simp only [tableWrites, List.map_flatMap, List.mem_flatMap, List.mem_range, mem_entryWrites_addresses, entryAddr,
    Config.tblEntry]
  constructor
  · rintro ⟨j, hj, i, hi, hle, hlt⟩
    exact ⟨by omega, j, hj, i, hi, by omega⟩
  · rintro ⟨hle, j, hj, i, hi, he⟩
    exact ⟨j, hj, i, hi, by omega, by omega⟩

/-- The blocks of the listed indices, when the descriptors pass their check (42_coding.md R144). -/
theorem inBlocks_of_descriptorsOk {memSize cw n len x : Nat} {m : Memory} {is : List Nat} (hn : 0 < n)
    (h : descriptorsOk memSize m cw n len = true) (his : ∀ i ∈ is, i < n) :
    InBlocks memSize m cw n len is x ↔ ∃ i ∈ is, descAddr m cw i ≤ x ∧ x < descAddr m cw i + len := by
  have htable : cw + Config.descSize * n ≤ memSize := by
    simp only [descriptorsOk, Bool.and_eq_true, inRange_iff, Config.descSize] at h ⊢
    omega
  simp only [InBlocks, htable, true_and]
  refine exists_congr fun i => and_congr_right fun hi => ?_
  exact inRegion_of_inRange (inRange_of_descriptorsOk h (his i hi))

theorem validKP_iff {k p : Nat} : validKP k p = true ↔ 1 ≤ k ∧ k + p ≤ 256 := by
  simp [validKP]

/-! ### Every command raises an error or fills its write set -/

/-- What Exec can yield: an error, or success with writes to exactly the bytes of FP.W (20_memory.md R60). -/
def Effect.raisesOrFills (e : Effect) (fp : Footprint) : Prop :=
  (∃ c, c ≠ .success ∧ e = .raise c) ∨
    (e.code = .success ∧ ∀ a, a ∈ e.writes.map Prod.fst ↔ fp.inWrite a = true)

theorem Effect.raisesOrFills_raise {c : ErrCode} (h : c ≠ .success) (fp : Footprint) :
    (Effect.raise c).raisesOrFills fp := .inl ⟨c, h, rfl⟩

theorem Effect.raisesOrFills_wrote {ws : List (Nat × Byte)} {fp : Footprint}
    (h : ∀ a, a ∈ ws.map Prod.fst ↔ fp.inWrite a = true) : (Effect.wrote ws).raisesOrFills fp := .inr ⟨rfl, h⟩

/-- A scalar command reaches no MEM (40_field.md R110). -/
theorem Effect.raisesOrFills_scalar (v : Byte) : (Effect.scalar v).raisesOrFills Footprint.empty :=
  .inr ⟨rfl, fun a => by simp [Footprint.inWrite, Footprint.empty, regionsContain]⟩

theorem runGfmul_raisesOrFills (s : State) : (runGfmul s).raisesOrFills Footprint.empty := by
  unfold runGfmul
  split
  · exact Effect.raisesOrFills_scalar _
  · exact Effect.raisesOrFills_raise (by decide) _

theorem runGfdiv_raisesOrFills (s : State) : (runGfdiv s).raisesOrFills Footprint.empty := by
  unfold runGfdiv
  split
  · split
    · exact Effect.raisesOrFills_raise (by decide) _
    · exact Effect.raisesOrFills_scalar _
  · exact Effect.raisesOrFills_raise (by decide) _

theorem runGfinv_raisesOrFills (s : State) : (runGfinv s).raisesOrFills Footprint.empty := by
  unfold runGfinv
  split
  · split
    · exact Effect.raisesOrFills_raise (by decide) _
    · exact Effect.raisesOrFills_scalar _
  · exact Effect.raisesOrFills_raise (by decide) _

theorem runGenm_raisesOrFills (mode : GenMode) (s : State) :
    (runGenm mode s).raisesOrFills (footprintOf (.genm mode) s.params.memSize s.mem s.snap.args) := by
  simp only [runGenm]
  split
  · next h =>
    simp only [Bool.and_eq_true, validKP_iff] at h
    obtain ⟨⟨-, hkp⟩, hmat⟩ := h
    refine Effect.raisesOrFills_wrote fun a => ?_
    exact mem_matrixWrites_addresses.trans
      ((inRegion_of_inRange hmat).symm.trans (footprintGenm_inWrite hkp a).symm)
  · exact Effect.raisesOrFills_raise (by decide) _

theorem runInvm_raisesOrFills (s : State) :
    (runInvm s).raisesOrFills (footprintOf .invm s.params.memSize s.mem s.snap.args) := by
  simp only [runInvm]
  split
  · exact Effect.raisesOrFills_raise (by decide) _
  · next hn =>
    obtain ⟨-, hle⟩ := not_or.1 hn
    split
    · next h =>
      simp only [Bool.and_eq_true] at h
      obtain ⟨-, hdst⟩ := h
      split
      · exact Effect.raisesOrFills_raise (by decide) _
      · refine Effect.raisesOrFills_wrote fun a => ?_
        exact mem_matrixWrites_addresses.trans
          ((inRegion_of_inRange hdst).symm.trans (footprintInvm_inWrite (not_lt.1 hle) a).symm)
    · exact Effect.raisesOrFills_raise (by decide) _

theorem runTbls_raisesOrFills (s : State) :
    (runTbls s).raisesOrFills (footprintOf .tbls s.params.memSize s.mem s.snap.args) := by
  simp only [runTbls]
  split
  · next h =>
    simp only [Bool.and_eq_true, validKP_iff] at h
    obtain ⟨⟨⟨-, hkp⟩, -⟩, htbl⟩ := h
    refine Effect.raisesOrFills_wrote fun a => ?_
    exact mem_tableWrites_addresses.trans
      ((inRegion_of_inRange htbl).symm.trans (footprintTbls_inWrite hkp a).symm)
  · exact Effect.raisesOrFills_raise (by decide) _

theorem runEnc_raisesOrFills (s : State) :
    (runEnc s).raisesOrFills (footprintOf .enc s.params.memSize s.mem s.snap.args) := by
  simp only [runEnc]
  split
  · next h =>
    simp only [Bool.and_eq_true, validKP_iff] at h
    obtain ⟨⟨⟨hk, hkp⟩, -⟩, hdescs⟩ := h
    refine Effect.raisesOrFills_wrote fun a => ?_
    refine mem_flatMap_blockWrites_addresses.trans (Iff.trans ?_ (footprintEnc_inWrite hkp a).symm)
    rw [inBlocks_of_descriptorsOk (by omega) hdescs lt_of_mem_codingIndices, List.range'_eq_map_range]
    simp only [List.mem_map, exists_exists_and_eq_and]
  · exact Effect.raisesOrFills_raise (by decide) _

theorem runDec_raisesOrFills (s : State) :
    (runDec s).raisesOrFills (footprintOf .dec s.params.memSize s.mem s.snap.args) := by
  simp only [runDec]
  split
  · exact Effect.raisesOrFills_raise (by decide) _
  · next hvalid =>
    split
    · exact Effect.raisesOrFills_raise (by decide) _
    · split
      · next h =>
        simp only [Bool.not_eq_true', Bool.not_eq_false, validKP_iff] at hvalid
        simp only [Bool.and_eq_true] at h
        obtain ⟨hk, hkp⟩ := hvalid
        obtain ⟨⟨⟨-, heras⟩, herasures⟩, hdescs⟩ := h
        have hes := fun e => lt_of_erasuresOk (e := e) herasures
        split
        · exact Effect.raisesOrFills_raise (by decide) _
        · refine Effect.raisesOrFills_wrote fun a => ?_
          exact mem_flatMap_blockWrites_addresses.trans ((inBlocks_of_descriptorsOk (by omega) hdescs hes).symm.trans
            (footprintDec_inWrite hkp heras hes a).symm)
      · exact Effect.raisesOrFills_raise (by decide) _

/-- A command raises an error or writes exactly the bytes of its FP.W (20_memory.md R59, R60). -/
theorem runOf_raisesOrFills (i : Instr) (s : State) :
    (runOf i s).raisesOrFills (footprintOf i s.params.memSize s.mem s.snap.args) := by
  cases i with
  | gfmul => exact runGfmul_raisesOrFills s
  | gfdiv => exact runGfdiv_raisesOrFills s
  | gfinv => exact runGfinv_raisesOrFills s
  | genm mode => exact runGenm_raisesOrFills mode s
  | invm => exact runInvm_raisesOrFills s
  | tbls => exact runTbls_raisesOrFills s
  | enc => exact runEnc_raisesOrFills s
  | dec => exact runDec_raisesOrFills s

/-- No command writes outside its FP.W (20_memory.md R60). -/
theorem runOf_writes_inWrite (i : Instr) (s : State) :
    ∀ w ∈ (runOf i s).writes, (footprintOf i s.params.memSize s.mem s.snap.args).inWrite w.1 = true := by
  intro w hw
  rcases runOf_raisesOrFills i s with ⟨c, -, hraise⟩ | ⟨-, hfills⟩
  · simp [hraise] at hw
  · exact (hfills w.1).1 (List.mem_map_of_mem hw)

/-- Settles O38: an error writes nothing, and success fills FP.W. -/
theorem writesStayInTheWriteSet : Obligations.WritesStayInTheWriteSet := by
  intro i s
  refine ⟨fun w hw => ⟨runOf_writes_inWrite i s w hw, runOf_writes_lt i s w hw⟩, fun hsuccess a ha => ?_⟩
  rcases runOf_raisesOrFills i s with ⟨c, hc, hraise⟩ | ⟨-, hfills⟩
  · rw [hraise] at hsuccess
    exact absurd hsuccess hc
  · exact List.mem_map.1 ((hfills a).2 ha)

/-- Unless all of MEM is drawn, a command with the footprint of its acceptance leaves the bytes outside FP.W
(20_memory.md R66). -/
theorem complete_read_outside_footprint {i : Instr} {s : State} (ht : s.taint ≠ .wild)
    (hfp : s.fp = footprintOf i s.params.memSize s.mem s.snap.args) {a : Nat} (ha : s.fp.inWrite a = false) :
    (complete (codesOf i) (runOf i s) s).mem.read a = s.mem.read a := by
  refine complete_read_other ht ha fun w hw hwa => ?_
  have hin := runOf_writes_inWrite i s w hw
  rw [← hfp, hwa, ha] at hin
  cases hin

/-- Settles O37: Complete takes the code of the checks, an error draws nothing, and writes and draws stay in FP.W. -/
theorem aliasingNeverChangesTheCode : Obligations.AliasingNeverChangesTheCode := by
  intro i s t ht hfp hexec
  rw [exec_eq_complete] at hexec
  cases hexec
  refine ⟨complete_err_of_clean ht _ _, fun herror => ?_,
    fun a ha => complete_read_outside_footprint (by simp [ht]) hfp ha⟩
  rw [complete_err_of_clean ht] at herror
  rcases runOf_raisesOrFills i s with ⟨c, -, hraise⟩ | ⟨hsuccess, -⟩
  · rw [complete_eq_completed _ ht fun hs => absurd hs herror, hraise]
    rfl
  · exact absurd hsuccess herror

/-! ### Races on the bytes of MEM (20_memory.md R69) -/

/-- t is s after another agent stored b at a during BUSY, as R69 has it. -/
def State.RacedStore (s : State) (a : Nat) (b : Byte) (t : State) : Prop :=
  t.mem = s.mem.write a b ∧ t.fp = s.fp ∧ t.busy = true ∧
  (s.fp.inCtrl a = true → t.taint = .wild) ∧
  (s.fp.inCtrl a = false → (s.fp.inReadSet a = true ∨ s.fp.inWrite a = true) →
    t.taint = if s.taint = .wild then .wild else .data) ∧
  (s.fp.inReadSet a = false → s.fp.inWrite a = false → t.taint = s.taint)

theorem raceTaint_inCtrl {fp : Footprint} {a : Nat} (h : fp.inCtrl a = true) (t : Taint) :
    raceTaint fp a t = .wild := if_pos h

theorem raceTaint_inFootprint {fp : Footprint} {a : Nat} (hctrl : fp.inCtrl a = false)
    (h : fp.inReadSet a = true ∨ fp.inWrite a = true) (t : Taint) :
    raceTaint fp a t = if t = .wild then .wild else .data := by
  have hread : (regionsContain fp.read a || fp.inWrite a) = true := by
    rw [Footprint.inCtrl] at hctrl
    simpa [Footprint.inReadSet, hctrl] using h
  unfold raceTaint
  rw [if_neg (by simp [hctrl]), if_pos hread]
  cases t <;> rfl

theorem raceTaint_outside {fp : Footprint} {a : Nat} (hread : fp.inReadSet a = false)
    (hwrite : fp.inWrite a = false) (t : Taint) : raceTaint fp a t = t := by
  obtain ⟨hctrl, hread⟩ := Bool.or_eq_false_iff.1 hread
  simp [raceTaint, Footprint.inCtrl, hctrl, hread, hwrite]

/-- A byte of MEM stored by another agent lands, and races by the footprint. -/
theorem storeByte_racedStore {s : State} {a : Nat} (hb : s.busy = true) (ha : a < s.params.memSize) (b : Byte) :
    ∃ t, storeByte a b s = .next t ∧ s.RacedStore a b t := by
  refine ⟨_, if_pos ha, rfl, rfl, hb, ?_⟩
  simp only [hb, if_true]
  exact ⟨fun hc => raceTaint_inCtrl hc _, fun hc h => raceTaint_inFootprint hc h _,
    fun hr hw => raceTaint_outside hr hw _⟩

theorem State.RacedStore.hostOnly {s u t : State} {a : Nat} {b : Byte} (h : s.RacedStore a b u)
    (ht : HostOnly u t) : s.RacedStore a b t := by
  obtain ⟨_, _, _, _, _, rfl⟩ := ht
  exact h

/-- A read of a byte of FP.W during BUSY is a draw (20_memory.md R69). -/
theorem loadByte_draw {s : State} {a : Nat} (hb : s.busy = true) (h : s.fp.inWrite a = true) :
    loadByte a s = (Config.drawByte s.draws, { s with draws := s.draws + 1 }) := if_pos ⟨hb, h⟩

theorem loadByte_mem {s : State} {a : Nat} (h : s.fp.inWrite a = false) : loadByte a s = (s.mem.read a, s) :=
  if_neg fun hin => by simp [h] at hin

/-- A byte an `mr` comes to during BUSY: what `loadByte` gives goes to the trace, and MEM, FP and TAINT stay
(30_encoding.md R93). -/
theorem hostLoad_of_loadByte {s : State} {addr count : Nat} {v : Byte} {n : Nat} (hcount : s.hbytes < count)
    (hmem : addr + s.hbytes < s.params.memSize)
    (hload : loadByte (addr + s.hbytes) s = (v, { s with draws := n })) :
    ∃ t, hostLoad addr count s = .next t ∧ t.mem = s.mem ∧ t.fp = s.fp ∧ t.taint = s.taint ∧ t.busy = s.busy ∧
      t.trace = s.trace ++ [.byte v] ∧ t.draws = n := by
  have hnext : hostLoad addr count s = .next (advanceByte count (record (.byte v) { s with draws := n })) := by
    rw [hostLoad, if_pos hcount, if_pos hmem, hload]
  refine ⟨_, hnext, ?_⟩
  unfold advanceByte
  split <;> exact ⟨rfl, rfl, rfl, rfl, rfl, rfl⟩

/-- Settles O42: a byte stored by either agent is one race rule, and FP.W decides what a read gives. -/
theorem hostRacesFollowTheFootprint : Obligations.HostRacesFollowTheFootprint := by
  intro s hbusy stored
  refine ⟨?mw, ?platformWrite, ?mr⟩
  case mw =>
    intro addr bytes b hbyte haddr
    obtain ⟨u, hstore, hraced⟩ := storeByte_racedStore hbusy haddr b
    refine ⟨advanceByte bytes.length u, ?_, hraced.hostOnly (hostOnly_advanceByte _ u)⟩
    simp only [hostOpStep, hostStore, hbyte, hstore]
  case platformWrite =>
    intro a b hturn haddr
    obtain ⟨t, hstore, hraced⟩ := storeByte_racedStore (s := s.popTurn) hbusy haddr b
    refine ⟨t, ?_, hraced⟩
    rw [step, hturn]
    exact hstore
  case mr =>
    intro addr count hcount haddr
    cases hw : s.fp.inWrite (addr + s.hbytes) with
    | true =>
      obtain ⟨t, ht, hmem, hfp, htaint, hb, htrace, hdraws⟩ :=
        hostLoad_of_loadByte hcount haddr (loadByte_draw hbusy hw)
      exact ⟨t, ht, hmem, hfp, htaint, hb.trans hbusy, fun _ => ⟨htrace, hdraws⟩, by simp⟩
    | false =>
      obtain ⟨t, ht, hmem, hfp, htaint, hb, htrace, hdraws⟩ :=
        hostLoad_of_loadByte hcount haddr (loadByte_mem hw)
      exact ⟨t, ht, hmem, hfp, htaint, hb.trans hbusy, by simp, fun _ => ⟨htrace, hdraws⟩⟩

end Sys2Proof.Machine

namespace Sys2Proof

/-! ### The fields of a command word (30_encoding.md R80) -/

theorem opField_append (rsv : BitVec 23) (m : Bool) (op : Byte) :
    opField (rsv ++ BitVec.ofBool m ++ op : BitVec 32) = op :=
  BitVec.extractLsb'_append_eq_right

theorem modeBit_append (rsv : BitVec 23) (m : Bool) (op : Byte) :
    modeBit (rsv ++ BitVec.ofBool m ++ op : BitVec 32) = m := by
  simp only [modeBit, BitVec.getLsbD_append, BitVec.getLsbD_ofBool]
  simp

theorem rsvField_append (rsv : BitVec 23) (m : Bool) (op : Byte) :
    rsvField (rsv ++ BitVec.ofBool m ++ op : BitVec 32) = rsv := by
  rw [rsvField, BitVec.extractLsb'_append_eq_of_le (by decide)]
  exact BitVec.extractLsb'_append_eq_left

/-- A word is the concatenation of its three fields. -/
theorem append_fields (w : Word) : (rsvField w ++ BitVec.ofBool (modeBit w) ++ opField w : BitVec 32) = w := by
  refine BitVec.eq_of_getLsbD_eq fun i hi => ?_
  simp only [BitVec.getLsbD_append, BitVec.getLsbD_ofBool, rsvField, modeBit, opField, BitVec.getLsbD_extractLsb']
  obtain hop | rfl | hrsv : i < 8 ∨ i = 8 ∨ 9 ≤ i := by omega
  · simp [hop]
  · simp
  · have hsum : 9 + (i - 8 - 1) = i := by omega
    simp [show ¬i < 8 by omega, show ¬i - 8 < 1 by omega, hsum, show i - 8 - 1 < 23 by omega]

theorem append_eq_iff {rsv : BitVec 23} {m : Bool} {op : Byte} {w : Word} :
    (rsv ++ BitVec.ofBool m ++ op : BitVec 32) = w ↔ rsvField w = rsv ∧ modeBit w = m ∧ opField w = op := by
  constructor
  · rintro rfl
    exact ⟨rsvField_append rsv m op, modeBit_append rsv m op, opField_append rsv m op⟩
  · rintro ⟨rfl, rfl, rfl⟩
    exact append_fields w

theorem append_eq_append_iff {rsv rsv' : BitVec 23} {m m' : Bool} {op op' : Byte} :
    (rsv ++ BitVec.ofBool m ++ op : BitVec 32) = (rsv' ++ BitVec.ofBool m' ++ op' : BitVec 32) ↔
      rsv = rsv' ∧ m = m' ∧ op = op' := by
  rw [eq_comm, append_eq_iff, rsvField_append, modeBit_append, opField_append]

theorem opField_toNat (w : Word) : (opField w).toNat = w.toNat % 2 ^ 8 := by
  simp [opField]

theorem modeBit_eq_true_iff {w : Word} : modeBit w = true ↔ w.toNat / 2 ^ 8 % 2 = 1 := by
  simp [modeBit, BitVec.getLsbD, Nat.testBit_eq_decide_div_mod_eq]

theorem rsvField_eq_zero_iff {w : Word} : rsvField w = 0 ↔ w.toNat / 2 ^ 9 = 0 := by
  have hw : w.toNat / 2 ^ 9 < 2 ^ 23 := by omega
  rw [← BitVec.toNat_inj, rsvField, BitVec.extractLsb'_toNat, Nat.shiftRight_eq_div_pow, Nat.mod_eq_of_lt hw]
  rfl

/-! ### Which command an OP selects (30_encoding.md R81, R82, R84) -/

theorem GenMode.bit_ofBit (m : Bool) : (GenMode.ofBit m).bit = m := by cases m <;> rfl

theorem GenMode.ofBit_bit (mode : GenMode) : GenMode.ofBit mode.bit = mode := by cases mode <;> rfl

theorem Instr.m_eq_false {i : Instr} (h : i.op ≠ 0x10) : i.m = false := by
  cases i with
  | genm mode => exact absurd rfl h
  | _ => rfl

/-- A command is selected by its OP; the M bit selects between the two modes of GENM alone. -/
theorem commandOfOp_eq_some_iff {op : Byte} {m : Bool} {i : Instr} :
    commandOfOp op (GenMode.ofBit m) = some i ↔ i.op = op ∧ (op = 0x10 → i.m = m) := by
  constructor
  · intro h
    unfold commandOfOp at h
    repeat' split at h
    all_goals cases h
    all_goals
      subst op
      exact ⟨rfl, by simp [Instr.m, GenMode.bit_ofBit]⟩
  · rintro ⟨rfl, hm⟩
    cases i with
    | genm mode =>
      obtain rfl : mode.bit = m := hm rfl
      rw [GenMode.ofBit_bit]
      rfl
    | _ => rfl

theorem commandOfOp_eq_none_iff {op : Byte} {mode : GenMode} :
    commandOfOp op mode = none ↔ op.toNat ∉ [0x01, 0x02, 0x03, 0x10, 0x11, 0x12, 0x20, 0x21] := by
  simp [commandOfOp, ite_eq_iff, ← BitVec.toNat_inj]

/-! ### Decode (30_encoding.md R89, R90) -/

theorem encode_eq_iff {i : Instr} {w : Word} :
    encode i = w ↔ rsvField w = 0 ∧ modeBit w = i.m ∧ opField w = i.op := append_eq_iff

/-- Decode gives the command whose three fields the word has. -/
theorem decode_eq_command_iff {w : Word} {i : Instr} :
    decode w = .command i ↔ rsvField w = 0 ∧ modeBit w = i.m ∧ opField w = i.op := by
  constructor
  · intro h
    unfold decode at h
    split at h
    · cases h
    · next hrsv =>
      split at h
      · cases h
      · next j hj =>
        split at h
        · cases h
        · next hmode =>
          obtain rfl : j = i := Decoded.command.inj h
          obtain ⟨hop, hm⟩ := commandOfOp_eq_some_iff.1 hj
          refine ⟨not_not.1 hrsv, ?_, hop.symm⟩
          by_cases hgenm : opField w = 0x10
          · exact (hm hgenm).symm
          · rw [Instr.m_eq_false (hop ▸ hgenm)]
            exact Bool.eq_false_iff.2 fun ht => hmode ⟨ht, hgenm⟩
  · rintro ⟨hrsv, hm, hop⟩
    have hsome : commandOfOp (opField w) (GenMode.ofBit (modeBit w)) = some i :=
      commandOfOp_eq_some_iff.2 ⟨hop.symm, fun _ => hm.symm⟩
    have hmode : ¬(modeBit w = true ∧ opField w ≠ 0x10) := by
      rintro ⟨ht, hne⟩
      rw [hm, Instr.m_eq_false (hop ▸ hne)] at ht
      cases ht
    simp only [decode, hrsv, hsome, if_neg hmode, ne_eq, not_true_eq_false, if_false]

/-- The three ways a word is illegal (30_encoding.md R89). -/
theorem decode_illegal_iff {w : Word} :
    (∃ why, decode w = .illegal why) ↔
      rsvField w ≠ 0 ∨ commandOfOp (opField w) (GenMode.ofBit (modeBit w)) = none ∨
        (modeBit w = true ∧ opField w ≠ 0x10) := by
  unfold decode
  split
  · next hrsv => exact iff_of_true ⟨_, rfl⟩ (.inl hrsv)
  · next hrsv =>
    split
    · next hnone => exact iff_of_true ⟨_, rfl⟩ (.inr (.inl hnone))
    · next i hsome =>
      split
      · next hmode => exact iff_of_true ⟨_, rfl⟩ (.inr (.inr hmode))
      · next hmode => exact iff_of_false nofun (not_or.2 ⟨hrsv, not_or.2 ⟨by simp [hsome], hmode⟩⟩)

/-- The three ways a word is illegal, in the word's value. -/
theorem decode_illegal_iff_toNat {w : Word} :
    (∃ why, decode w = .illegal why) ↔
      w.toNat / 2 ^ 9 ≠ 0 ∨ w.toNat % 2 ^ 8 ∉ [0x01, 0x02, 0x03, 0x10, 0x11, 0x12, 0x20, 0x21] ∨
        (w.toNat / 2 ^ 8 % 2 = 1 ∧ w.toNat % 2 ^ 8 ≠ 0x10) := by
  have hgenm : opField w = 0x10 ↔ w.toNat % 2 ^ 8 = 0x10 := by
    rw [← BitVec.toNat_inj, opField_toNat]
    rfl
  rw [decode_illegal_iff, ne_eq, ne_eq, rsvField_eq_zero_iff, commandOfOp_eq_none_iff, opField_toNat,
    modeBit_eq_true_iff, hgenm]

/-- Settles O11: decoding and encoding both say what the three fields are. -/
theorem decodesOnlyItsOwnWord : Obligations.DecodesOnlyItsOwnWord := by
  intro w i
  rw [decode_eq_command_iff, encode_eq_iff]

/-- Settles O10, the half of O11 at the command's own word. -/
theorem encodeThenDecode : Obligations.EncodeThenDecode :=
  fun i _ => (decodesOnlyItsOwnWord (encode i) i).2 rfl

/-- Settles O13 by evaluating the decoder at the eight words. -/
theorem writtenOutWordsDecode : Obligations.WrittenOutWordsDecode := by
  unfold Obligations.WrittenOutWordsDecode
  decide

/-! ### The opcode map as match and mask pairs (30_encoding.md R84) -/

/-- The row of a command: RSV and OP are always in its mask, and M is unless the command is GENM, whose row stands for
both modes. -/
def Instr.row (i : Instr) : OpcodeRow where
  mnemonic := i.mnemonic
  pattern := ((0 : BitVec 23) ++ BitVec.ofBool false ++ i.op : BitVec 32)
  mask := (BitVec.allOnes 23 ++ BitVec.ofBool (decide (i.op ≠ 0x10)) ++ BitVec.allOnes 8 : BitVec 32)

/-- The opcode map lists the rows of the commands. -/
theorem mem_opcodeMap_iff {r : OpcodeRow} : r ∈ opcodeMap ↔ ∃ i : Instr, i.row = r := by
  constructor
  · have hmap : opcodeMap =
        [Instr.gfmul, .gfdiv, .gfinv, .genm .cauchy, .invm, .tbls, .enc, .dec].map Instr.row := by decide
    rw [hmap, List.mem_map]
    rintro ⟨i, -, hi⟩
    exact ⟨i, hi⟩
  · rintro ⟨i, rfl⟩
    cases i with
    | genm mode => cases mode <;> decide
    | _ => decide

theorem row_mem_opcodeMap (i : Instr) : i.row ∈ opcodeMap := mem_opcodeMap_iff.2 ⟨i, rfl⟩

/-- No two rows of the opcode map have one mnemonic, and no two have one pattern. -/
theorem opcodeMap_injective :
    ∀ r ∈ opcodeMap, ∀ q ∈ opcodeMap, r.mnemonic = q.mnemonic ∨ r.pattern = q.pattern → r = q := by decide

theorem row_eq_iff_mnemonic_eq {i j : Instr} : i.row = j.row ↔ i.mnemonic = j.mnemonic :=
  ⟨fun h => congrArg OpcodeRow.mnemonic h,
    fun h => opcodeMap_injective _ (row_mem_opcodeMap i) _ (row_mem_opcodeMap j) (.inl h)⟩

theorem row_eq_iff_op_eq {i j : Instr} : i.row = j.row ↔ i.op = j.op := by
  have hpattern : i.row.pattern = j.row.pattern ↔ i.op = j.op := by
    simp only [Instr.row, append_eq_append_iff, true_and]
  rw [← hpattern]
  exact ⟨fun h => congrArg OpcodeRow.pattern h,
    fun h => opcodeMap_injective _ (row_mem_opcodeMap i) _ (row_mem_opcodeMap j) (.inr h)⟩

/-- The row of a command fixes RSV and OP, and M unless the OP is GENM's. -/
theorem row_selects_iff {i : Instr} {w : Word} :
    i.row.selects w = true ↔ rsvField w = 0 ∧ (i.op ≠ 0x10 → modeBit w = false) ∧ opField w = i.op := by
  have hmasked : w &&& i.row.mask =
      (rsvField w ++ BitVec.ofBool (modeBit w && decide (i.op ≠ 0x10)) ++ opField w : BitVec 32) := by
    conv_lhs => rw [← append_fields w]
    rw [Instr.row, BitVec.and_append, BitVec.and_append, BitVec.and_allOnes, BitVec.and_allOnes,
      BitVec.ofBool_and_ofBool]
  rw [OpcodeRow.selects, beq_iff_eq, hmasked, Instr.row, append_eq_append_iff,
    Bool.and_comm, Bool.and_eq_false_imp, decide_eq_true_eq]

/-- The row of a command selects the words of that row's commands, and no other. -/
theorem row_selects_iff_decode {i : Instr} {w : Word} :
    i.row.selects w = true ↔ ∃ j, decode w = .command j ∧ j.row = i.row := by
  rw [row_selects_iff]
  constructor
  · rintro ⟨hrsv, hm, hop⟩
    by_cases hgenm : i.op = 0x10
    · exact ⟨.genm (GenMode.ofBit (modeBit w)),
        decode_eq_command_iff.2 ⟨hrsv, (GenMode.bit_ofBit _).symm, hop.trans hgenm⟩, row_eq_iff_op_eq.2 hgenm.symm⟩
    · exact ⟨i, decode_eq_command_iff.2 ⟨hrsv, (hm hgenm).trans (Instr.m_eq_false hgenm).symm, hop⟩, rfl⟩
  · rintro ⟨j, hj, hrow⟩
    obtain ⟨hrsv, hm, hop⟩ := decode_eq_command_iff.1 hj
    exact ⟨hrsv, fun hne => hm.trans (Instr.m_eq_false (row_eq_iff_op_eq.1 hrow ▸ hne)),
      hop.trans (row_eq_iff_op_eq.1 hrow)⟩

/-- Settles O12: a row selects the words of its commands, and a word is the word of one command at most. -/
theorem decodeAgreesWithTheOpcodeMap : Obligations.DecodeAgreesWithTheOpcodeMap := by
  refine ⟨fun w r hr => ?rowOfCommand, fun w => ?illegal, fun w r hr q hq hselR hselQ => ?noOverlap⟩
  case rowOfCommand =>
    obtain ⟨i, rfl⟩ := mem_opcodeMap_iff.1 hr
    simp only [row_selects_iff_decode, row_eq_iff_mnemonic_eq]
    rfl
  case illegal =>
    constructor
    · rintro ⟨why, hw⟩ r hr
      obtain ⟨i, rfl⟩ := mem_opcodeMap_iff.1 hr
      rw [Bool.eq_false_iff, ne_eq, row_selects_iff_decode]
      rintro ⟨j, hj, -⟩
      cases hw.symm.trans hj
    · intro hnone
      cases hw : decode w with
      | illegal why => exact ⟨why, rfl⟩
      | command i =>
        have hselects : i.row.selects w = true := row_selects_iff_decode.2 ⟨i, hw, rfl⟩
        rw [hnone _ (row_mem_opcodeMap i)] at hselects
        cases hselects
  case noOverlap =>
    obtain ⟨i, rfl⟩ := mem_opcodeMap_iff.1 hr
    obtain ⟨j, rfl⟩ := mem_opcodeMap_iff.1 hq
    obtain ⟨a, ha, hrowI⟩ := row_selects_iff_decode.1 hselR
    obtain ⟨b, hb, hrowJ⟩ := row_selects_iff_decode.1 hselQ
    obtain rfl : a = b := Decoded.command.inj (ha.symm.trans hb)
    exact hrowI.symm.trans hrowJ

end Sys2Proof

namespace Sys2Proof.Machine

/-! ### Illegal words (30_encoding.md R89) -/

/-- A CMD write while BUSY = 0 is the Accept step (10_state.md R26). -/
theorem writeReg_cmd_of_idle {s : State} (h : s.busy = false) (w : Word) : writeReg 0x0C w s = accept w s := by
  have hcmd : writeReg 0x0C w s = writeCmd w s := rfl
  rw [hcmd, writeCmd, h, if_neg Bool.false_ne_true]

theorem noMem_of_illegal {snap : Snapshot} {why : IllegalWord} (h : decode snap.cmd = .illegal why) :
    snap.noMem = true := by
  simp only [Snapshot.noMem, h]

/-- The UNIT completes an illegal word that was not raced with: code 4, and nothing else of MEM or RESULT
(60_exceptions.md R174). -/
theorem unitStep_of_illegal {s : State} {why : IllegalWord} (hb : s.busy = true)
    (hd : decode s.snap.cmd = .illegal why) (ht : s.taint = .none) :
    unitStep s = .next (s.completed .illegalCommand s.mem s.res) := by
  have hcomplete : completeIllegal s = s.completed .illegalCommand s.mem s.res :=
    complete_eq_completed _ ht nofun
  simp only [unitStep, hb, if_true, hd, hcomplete]

/-- Settles O14: an illegal word is accepted with the empty footprint, so its completion is exact. -/
theorem illegalWordsCompleteWithCodeFour : Obligations.IllegalWordsCompleteWithCodeFour := by
  refine ⟨fun w => decode_illegal_iff_toNat, fun s w why hd hb => ?_, rfl⟩
  rw [writeReg_cmd_of_idle hb]
  exact ⟨rfl, rfl, rfl, footprint_of_noMem _ _ (noMem_of_illegal hd), unitStep_of_illegal rfl hd rfl⟩

/-! ### The operation at hpc (30_encoding.md R93) -/

/-- A HOST that is not halted executes the operation hpc names. -/
theorem hostStep_of_fetch {s : State} {op : HostOp} (hh : s.halted = false) (hp : s.prog[s.hpc]? = some op) :
    hostStep s = hostOpStep op s := by
  simp only [hostStep, hh, Bool.false_eq_true, if_false, hp]

theorem regOffset_bounds (r : Reg) : r.offset < 0x40 ∧ r.offset % 4 = 0 := by
  cases r with
  | arg i => simp only [Reg.offset]; omega
  | _ => decide

/-- A 32-bit access at a register's address reaches that register (10_state.md R20). -/
theorem registerOffset_reg (regBase : Nat) (r : Reg) :
    registerOffset regBase 32 (regBase + r.offset) = .ok r.offset := by
  obtain ⟨hlt, hmod⟩ := regOffset_bounds r
  have hsub : regBase + r.offset - regBase = r.offset := Nat.add_sub_cancel_left _ _
  rw [registerOffset_ok (by omega) (by omega) ⟨rfl, by omega⟩, hsub]

theorem hostOpStep_wr (r : Reg) (v : Word) (s : State) :
    hostOpStep (.wr r v) s = .next (advanceHost (writeReg r.offset v s)) := by
  simp only [hostOpStep, hostWrite, registerOffset_reg]

theorem hostOpStep_rd (r : Reg) (s : State) :
    hostOpStep (.rd r) s =
      .next (advanceHost (record (.word (readReg r.offset s)) { s with last := readReg r.offset s })) := by
  simp only [hostOpStep, hostRead, registerOffset_reg]

theorem hostBranch_hpc (label : Nat) (s : State) :
    (hostBranch label s).hpc = if s.last.getLsbD 0 then label else s.hpc + 1 := by
  unfold hostBranch
  split <;> rfl

/-- A branch moves hpc and nothing the unit, MEM or the trace holds. -/
theorem hostBranch_mem_trace (label : Nat) (s : State) :
    (hostBranch label s).mem = s.mem ∧ (hostBranch label s).trace = s.trace := by
  unfold hostBranch
  split <;> exact ⟨rfl, rfl⟩

/-- One byte of an `mw` that is in MEM: the byte is stored, and the HOST moves on by one byte. -/
theorem hostOpStep_mw {s : State} {addr : Nat} {bytes : List Byte} {b : Byte} (hbyte : bytes[s.hbytes]? = some b)
    (haddr : addr + s.hbytes < s.params.memSize) :
    hostOpStep (.mw addr bytes) s = .next (advanceByte bytes.length
      { s with
        mem := s.mem.write (addr + s.hbytes) b
        taint := if s.busy then raceTaint s.fp (addr + s.hbytes) s.taint else s.taint }) := by
  simp only [hostOpStep, hostStore, hbyte, storeByte, if_pos haddr]

theorem loadByte_of_idle {s : State} (h : s.busy = false) (a : Nat) : loadByte a s = (s.mem.read a, s) :=
  if_neg fun hbusy => by simp [h] at hbusy

/-- One byte of an `mr` that is in MEM, while no command is in flight: MEM's byte goes to the trace. -/
theorem hostOpStep_mr_of_idle {s : State} {addr count : Nat} (hcount : s.hbytes < count)
    (haddr : addr + s.hbytes < s.params.memSize) (hb : s.busy = false) :
    hostOpStep (.mr addr count) s =
      .next (advanceByte count (record (.byte (s.mem.read (addr + s.hbytes))) s)) := by
  simp only [hostOpStep, hostLoad, if_pos hcount, if_pos haddr, loadByte_of_idle hb]

/-- After a byte MEM and the trace stay. Before the last byte hpc stays and the count of bytes moves on; at the last byte
hpc moves on. -/
theorem advanceByte_moves (n : Nat) (s : State) :
    (advanceByte n s).mem = s.mem ∧ (advanceByte n s).trace = s.trace ∧
    (s.hbytes + 1 < n → (advanceByte n s).hpc = s.hpc ∧ (advanceByte n s).hbytes = s.hbytes + 1) ∧
    (s.hbytes + 1 = n → (advanceByte n s).hpc = s.hpc + 1 ∧ (advanceByte n s).hbytes = 0) := by
  unfold advanceByte
  split
  · next hlt => exact ⟨rfl, rfl, fun _ => ⟨rfl, rfl⟩, fun h => by omega⟩
  · next hge => exact ⟨rfl, rfl, fun h => absurd h hge, fun _ => ⟨rfl, rfl⟩⟩

/-- Settles O44, operation by operation. -/
theorem hostOperationsMoveHpc : Obligations.HostOperationsMoveHpc := by
  intro s op hh hp
  rw [hostStep_of_fetch hh hp]
  refine ⟨?wr, ?rd, ?bbusy, ?halt, ?mw, ?mr⟩
  case wr =>
    rintro r v rfl
    exact hostOpStep_wr r v s
  case rd =>
    rintro r rfl
    exact ⟨_, hostOpStep_rd r s, rfl, rfl, rfl, rfl⟩
  case bbusy =>
    rintro label rfl
    obtain ⟨hmem, htrace⟩ := hostBranch_mem_trace label s
    exact ⟨_, rfl, hmem, htrace, hostBranch_hpc label s⟩
  case halt =>
    rintro rfl
    rfl
  case mw =>
    rintro addr bytes b rfl hbyte haddr
    obtain ⟨hmem, -, hmoves⟩ := advanceByte_moves bytes.length _
    exact ⟨_, hostOpStep_mw hbyte haddr, hmem, hmoves⟩
  case mr =>
    rintro addr count rfl hcount haddr hb
    exact ⟨_, hostOpStep_mr_of_idle hcount haddr hb, advanceByte_moves count _⟩

end Sys2Proof.Machine

namespace Sys2Proof.Machine

/-! ### gmul is bilinear and commutes with xtime (40_field.md R101, R102) -/

theorem gmul_xor_left (a b c : Byte) : gmul (a ^^^ b) c = gmul a c ^^^ gmul b c := gmulLoop_xor_left _ _ _ _

/-- The loop is additive in the factor whose bits it reads. -/
theorem gmulLoop_xor_bits (b c : Byte) (is : List Nat) (t : Byte) :
    gmulLoop (b ^^^ c) is 0 t = gmulLoop b is 0 t ^^^ gmulLoop c is 0 t := by
  induction is generalizing t with
  | nil => simp [gmulLoop]
  | cons i is ih =>
    simp only [gmulLoop, BitVec.getLsbD_xor]
    rw [gmulLoop_acc, gmulLoop_acc b, gmulLoop_acc c, ih]
    have hbit : (if (b.getLsbD i ^^ c.getLsbD i) = true then 0 ^^^ t else 0) =
        (if b.getLsbD i = true then 0 ^^^ t else 0) ^^^ (if c.getLsbD i = true then 0 ^^^ t else 0) := by
      cases b.getLsbD i <;> cases c.getLsbD i <;> simp
    rw [hbit]
    ac_rfl

theorem gmul_xor_right (a b c : Byte) : gmul a (b ^^^ c) = gmul a b ^^^ gmul a c := gmulLoop_xor_bits _ _ _ _

theorem gmul_zero_left (a : Byte) : gmul 0 a = 0 := by
  have h := gmul_xor_left 0 0 a
  rwa [BitVec.xor_self, BitVec.xor_self] at h

theorem gmul_zero_right (a : Byte) : gmul a 0 = 0 := by
  have h := gmul_xor_right a 0 0
  rwa [BitVec.xor_self, BitVec.xor_self] at h

theorem gmulLoop_xtime (b : Byte) (is : List Nat) (t : Byte) :
    gmulLoop b is 0 (xtime t) = xtime (gmulLoop b is 0 t) := by
  induction is generalizing t with
  | nil => exact xtime_zero.symm
  | cons i is ih =>
    simp only [gmulLoop]
    rw [gmulLoop_acc, gmulLoop_acc (t := xtime t), xtime_xor, ih]
    cases b.getLsbD i
    · rw [if_neg Bool.false_ne_true, if_neg Bool.false_ne_true, xtime_zero]
    · simp

theorem gmul_xtime_left (a b : Byte) : gmul (xtime a) b = xtime (gmul a b) := gmulLoop_xtime _ _ _

/-- The loop rebuilds the byte whose bits it reads: the shifted factor is never reduced before its last use. -/
theorem gmul_one_left : ∀ a : Byte, gmul 1 a = a := by decide +kernel

/-! ### Every byte is a sum of x-multiples of 1 -/

/-- The loop stays in a set of bytes that is closed under addition and multiplication by x. -/
theorem gmulLoop_mem {P : Byte → Prop} (hadd : ∀ a b, P a → P b → P (a ^^^ b)) (hmulX : ∀ a, P a → P (xtime a))
    (b : Byte) (is : List Nat) {r t : Byte} (hr : P r) (ht : P t) : P (gmulLoop b is r t) := by
  induction is generalizing r t with
  | nil => exact hr
  | cons i is ih =>
    rw [gmulLoop]
    split
    · exact ih (hadd _ _ hr ht) (hmulX _ ht)
    · exact ih hr (hmulX _ ht)

/-- Induction on a field element: from 0 and 1, by addition and by multiplication by x, since a = gmul(1, a). -/
theorem field_induction {P : Byte → Prop} (zero : P 0) (one : P 1) (add : ∀ a b, P a → P b → P (a ^^^ b))
    (mulX : ∀ a, P a → P (xtime a)) (a : Byte) : P a := by
  rw [← gmul_one_left a]
  exact gmulLoop_mem add mulX a _ zero one

theorem gmul_one_right (a : Byte) : gmul a 1 = a := by
  induction a using field_induction with
  | zero => exact gmul_zero_left 1
  | one => exact gmul_one_left 1
  | add a b ha hb => rw [gmul_xor_left, ha, hb]
  | mulX a ha => rw [gmul_xtime_left, ha]

theorem gmul_xtime_right (a b : Byte) : gmul a (xtime b) = xtime (gmul a b) := by
  induction a using field_induction with
  | zero => rw [gmul_zero_left, gmul_zero_left, xtime_zero]
  | one => rw [gmul_one_left, gmul_one_left]
  | add a a' ha ha' => rw [gmul_xor_left, gmul_xor_left, xtime_xor, ha, ha']
  | mulX a ha => rw [gmul_xtime_left, gmul_xtime_left, ha]

theorem gmul_comm (a b : Byte) : gmul a b = gmul b a := by
  induction a using field_induction with
  | zero => rw [gmul_zero_left, gmul_zero_right]
  | one => rw [gmul_one_left, gmul_one_right]
  | add a a' ha ha' => rw [gmul_xor_left, gmul_xor_right, ha, ha']
  | mulX a ha => rw [gmul_xtime_left, gmul_xtime_right, ha]

theorem gmul_assoc (a b c : Byte) : gmul (gmul a b) c = gmul a (gmul b c) := by
  induction a using field_induction with
  | zero => rw [gmul_zero_left, gmul_zero_left, gmul_zero_left]
  | one => rw [gmul_one_left, gmul_one_left]
  | add a a' ha ha' => simp only [gmul_xor_left, ha, ha']
  | mulX a ha => simp only [gmul_xtime_left, ha]

/-! ### Powers (40_field.md R106) -/

theorem gpow_zero (x : Byte) : gpow x 0 = 1 := rfl

theorem gpow_succ (x : Byte) (n : Nat) : gpow x (n + 1) = gmul (gpow x n) x := rfl

theorem gpow_one (x : Byte) : gpow x 1 = x := gmul_one_left x

theorem gpow_add (x : Byte) (m n : Nat) : gpow x (m + n) = gmul (gpow x m) (gpow x n) := by
  induction n with
  | zero => rw [Nat.add_zero, gpow_zero, gmul_one_right]
  | succ n ih => rw [← Nat.add_assoc, gpow_succ, gpow_succ, ih, gmul_assoc]

theorem gpow_mul (x : Byte) (m n : Nat) : gpow x (m * n) = gpow (gpow x m) n := by
  induction n with
  | zero => rfl
  | succ n ih => rw [Nat.mul_succ, gpow_add, ih, gpow_succ]

theorem gexp_add (i j : Nat) : gexp (i + j) = gmul (gexp i) (gexp j) := gpow_add _ _ _

theorem gexp_succ (i : Nat) : gexp (i + 1) = xtime (gexp i) := by
  have htwo : xtime 1 = 0x02 := by decide
  rw [gexp, gpow_succ, ← htwo, gmul_xtime_right, gmul_one_right, gexp, htwo]

theorem gexp_eq_iterate (i : Nat) : gexp i = xtime^[i] 1 := by
  induction i with
  | zero => rfl
  | succ i ih => rw [gexp_succ, Function.iterate_succ_apply', ih]

/-! ### The generator 0x02 has order 255 (40_field.md R103) -/

theorem gexp_255 : gexp 255 = 1 := by
  rw [gexp_eq_iterate]
  decide +kernel

theorem gexp_periodic : Function.Periodic gexp 255 := fun i => by rw [gexp_add, gexp_255, gmul_one_right]

theorem gexp_mod (i : Nat) : gexp (i % 255) = gexp i := gexp_periodic.map_mod_nat i

/-- The powers at i and at 255 − i are inverse to each other. -/
theorem gmul_gexp_sub {i : Nat} (h : i ≤ 255) : gmul (gexp i) (gexp (255 - i)) = 1 := by
  rw [← gexp_add, Nat.add_sub_cancel' h, gexp_255]

theorem gexp_ne_zero (i : Nat) : gexp i ≠ 0 := by
  intro hzero
  have hone := gmul_gexp_sub (i := i % 255) (by omega)
  rw [gexp_mod, hzero, gmul_zero_left] at hone
  cases hone

/-- 0x02 has order 255: the order divides 255 = 3 · 5 · 17, and the power at a proper divisor is not 1. -/
theorem minimalPeriod_xtime_one : Function.minimalPeriod xtime 1 = 255 := by
  have hperiodic : Function.IsPeriodicPt xtime 255 1 := (gexp_eq_iterate 255).symm.trans gexp_255
  have hproper : ∀ d ∈ Nat.properDivisors 255, xtime^[d] 1 ≠ 1 := by decide +kernel
  by_contra hne
  have hdvd : Function.minimalPeriod xtime 1 ∣ 255 := hperiodic.minimalPeriod_dvd
  have hlt : Function.minimalPeriod xtime 1 < 255 := lt_of_le_of_ne (Nat.le_of_dvd (by decide) hdvd) hne
  exact hproper _ (Nat.mem_properDivisors.2 ⟨hdvd, hlt⟩) Function.iterate_minimalPeriod

theorem gexp_inj {i j : Nat} (hi : i < 255) (hj : j < 255) : gexp i = gexp j ↔ i = j := by
  rw [gexp_eq_iterate, gexp_eq_iterate]
  exact Function.iterate_eq_iterate_iff_of_lt_minimalPeriod (minimalPeriod_xtime_one ▸ hi)
    (minimalPeriod_xtime_one ▸ hj)

/-- The 255 powers below exponent 255 are the 255 nonzero bytes, by counting. -/
theorem exists_gexp_eq {a : Byte} (ha : a ≠ 0) : ∃ i < 255, gexp i = a := by
  have hmaps : Set.MapsTo gexp (Finset.range 255) (Finset.univ.erase (0 : Byte)) :=
    fun i _ => by simpa using gexp_ne_zero i
  have hcard : (Finset.univ.erase (0 : Byte)).card ≤ (Finset.range 255).card := by
    rw [Finset.card_erase_of_mem (Finset.mem_univ _), Finset.card_univ, ← FinEnum.card_eq_fintypeCard,
      FinEnum.card_bitVec, Finset.card_range]
    decide
  have hinj : Set.InjOn gexp (Finset.range 255) :=
    fun i hi j hj => (gexp_inj (Finset.mem_range.1 hi) (Finset.mem_range.1 hj)).1
  obtain ⟨i, hi, hia⟩ := Finset.surjOn_of_injOn_of_card_le gexp hmaps hinj hcard (by simpa using ha)
  exact ⟨i, Finset.mem_range.1 hi, hia⟩

theorem glog_eq_some_iff {a : Byte} {i : Nat} : glog a = some i ↔ i < 255 ∧ gexp i = a := by
  simp only [glog, List.find?_range_eq_some, List.mem_range, decide_eq_true_eq, Bool.not_eq_true',
    decide_eq_false_iff_not]
  constructor
  · rintro ⟨hi, hlt, -⟩
    exact ⟨hlt, hi⟩
  · rintro ⟨hlt, rfl⟩
    exact ⟨rfl, hlt, fun j hj => mt (gexp_inj (hj.trans hlt) hlt).1 hj.ne⟩

/-! ### The field laws (40_field.md R102, R103, R104) -/

theorem gmul_ne_zero {a b : Byte} (ha : a ≠ 0) (hb : b ≠ 0) : gmul a b ≠ 0 := by
  obtain ⟨i, -, rfl⟩ := exists_gexp_eq ha
  obtain ⟨j, -, rfl⟩ := exists_gexp_eq hb
  rw [← gexp_add]
  exact gexp_ne_zero _

theorem gmul_left_cancel {a x y : Byte} (ha : a ≠ 0) (h : gmul a x = gmul a y) : x = y := by
  by_contra hne
  refine gmul_ne_zero ha (mt BitVec.xor_eq_zero_iff.1 hne) ?_
  rw [gmul_xor_right, h, BitVec.xor_self]
  rfl

/-- Settles O15: the ring laws by induction on a field element, and no zero divisors since a nonzero element is a
power of 0x02. -/
theorem fieldMultiplicationLaws : Obligations.FieldMultiplicationLaws := fun a b c =>
  ⟨gmul_zero_right a, gmul_zero_left a, gmul_one_right a, gmul_comm a b, gmul_assoc a b c, gmul_xor_right a b c,
    gmul_ne_zero⟩

/-- Settles O16: 0x02 has order 255, so its powers are the nonzero elements, and exponents add. -/
theorem logarithmFormAgrees : Obligations.LogarithmFormAgrees := by
  refine ⟨fun a ha => ?powers, gexp_255, fun a b _ _ i j hi hj => ?product⟩
  case powers =>
    obtain ⟨i, hi, rfl⟩ := exists_gexp_eq ha
    exact ⟨i, hi, rfl, glog_eq_some_iff.2 ⟨hi, rfl⟩, fun j hj => (gexp_inj hj hi).1⟩
  case product =>
    obtain ⟨-, rfl⟩ := glog_eq_some_iff.1 hi
    obtain ⟨-, rfl⟩ := glog_eq_some_iff.1 hj
    rw [gexp_mod, gexp_add]

theorem gpow254_eq_gpow (a : Byte) : gpow254 a = gpow a 254 := by
  have hsquare : gmul a a = gpow a 2 := by rw [gpow_succ, gpow_one]
  simp only [gpow254, hsquare, ← gpow_add]

/-- The order of every nonzero element divides 255. -/
theorem gpow_255 {a : Byte} (ha : a ≠ 0) : gpow a 255 = 1 := by
  obtain ⟨i, -, rfl⟩ := exists_gexp_eq ha
  calc gpow (gexp i) 255 = gexp (i * 255) := (gpow_mul _ _ _).symm
    _ = gexp 0 := by rw [← gexp_mod, Nat.mul_mod_left]
    _ = 1 := rfl

theorem gmul_ginv {a : Byte} (ha : a ≠ 0) : gmul a (ginv a) = 1 := by
  rw [ginv, if_neg ha, gpow254_eq_gpow, gmul_comm, ← gpow_succ, gpow_255 ha]

theorem eq_ginv {a x : Byte} (h : gmul a x = 1) : x = ginv a := by
  have ha : a ≠ 0 := by
    rintro rfl
    rw [gmul_zero_left] at h
    cases h
  exact gmul_left_cancel ha (h.trans (gmul_ginv ha).symm)

theorem ginv_one : ginv 1 = 1 := (eq_ginv (gmul_one_left 1)).symm

theorem ginv_gexp {i : Nat} (h : i ≤ 255) : ginv (gexp i) = gexp (255 - i) := (eq_ginv (gmul_gexp_sub h)).symm

theorem ginv_ginv {a : Byte} (ha : a ≠ 0) : ginv (ginv a) = a :=
  (eq_ginv ((gmul_comm _ _).trans (gmul_ginv ha))).symm

/-- Settles O17: the inverse of a nonzero a solves gmul(a, x) = 1, and a can be cancelled. -/
theorem inverseIsTheUniqueSolution : Obligations.InverseIsTheUniqueSolution := by
  intro a ha
  refine ⟨gmul_ginv ha, fun x hx => eq_ginv hx, fun i hi => ?_, ginv_ginv ha⟩
  obtain ⟨hlt, rfl⟩ := glog_eq_some_iff.1 hi
  rw [gexp_mod, ginv_gexp hlt.le]

/-! ### The operands of the scalar commands (30_encoding.md R86) -/

theorem State.isFieldOperand_iff {s : State} {i : Fin 8} : s.isFieldOperand i = true ↔ (s.operand i).toNat < 256 := by
  rw [State.isFieldOperand, beq_iff_eq, ← BitVec.toNat_inj, BitVec.extractLsb'_toNat, Nat.shiftRight_eq_div_pow]
  have hw := (s.operand i).isLt
  have hzero : (0 : BitVec 24).toNat = 0 := rfl
  rw [hzero]
  omega

theorem State.fieldOperand_eq_setWidth (s : State) (i : Fin 8) : s.fieldOperand i = (s.operand i).setWidth 8 := by
  rw [State.fieldOperand, BitVec.setWidth_eq_extractLsb' (by decide)]

/-- A field operand is 0 as a byte exactly when its word is 0. -/
theorem State.fieldOperand_eq_zero_iff {s : State} {i : Fin 8} (h : (s.operand i).toNat < 256) :
    s.fieldOperand i = 0 ↔ s.operand i = 0 := by
  rw [s.fieldOperand_eq_setWidth, ← BitVec.toNat_inj, ← BitVec.toNat_inj, BitVec.toNat_setWidth, Nat.mod_eq_of_lt h]
  rfl

/-! ### What the scalar commands yield (40_field.md R107, R108, R109) -/

/-- A scalar command that succeeds changes RESULT, and no byte of MEM. -/
theorem exec_of_scalar {i : Instr} {s : State} {v : Byte} (ht : s.taint = .none) (hfp : s.fp = Footprint.empty)
    (h : runOf i s = .scalar v) : exec i s = .next (s.completed .success s.mem v) := by
  have haliases : s.fp.aliases = false := by rw [hfp]; rfl
  rw [exec_success ht haliases, h]
  rfl

theorem runGfmul_eq_scalar {s : State} (ha : (s.operand 0).toNat < 256) (hb : (s.operand 1).toNat < 256) :
    runGfmul s = .scalar (gmul ((s.operand 0).setWidth 8) ((s.operand 1).setWidth 8)) := by
  simp only [runGfmul, State.isFieldOperand_iff.2 ha, State.isFieldOperand_iff.2 hb, Bool.and_self, if_true,
    State.fieldOperand_eq_setWidth]

theorem runGfmul_eq_raise {s : State} (h : 256 ≤ (s.operand 0).toNat ∨ 256 ≤ (s.operand 1).toNat) :
    runGfmul s = .raise .invalidParameters := by
  have hbad : ¬((s.isFieldOperand 0 && s.isFieldOperand 1) = true) := by
    rw [Bool.and_eq_true, State.isFieldOperand_iff, State.isFieldOperand_iff]
    omega
  rw [runGfmul, if_neg hbad]

theorem runGfdiv_eq_scalar {s : State} (ha : (s.operand 0).toNat < 256) (hb : (s.operand 1).toNat < 256)
    (hne : s.operand 1 ≠ 0) :
    runGfdiv s = .scalar (gmul ((s.operand 0).setWidth 8) (ginv ((s.operand 1).setWidth 8))) := by
  have hdivisor : s.fieldOperand 1 ≠ 0 := mt (State.fieldOperand_eq_zero_iff hb).1 hne
  simp only [runGfdiv, State.isFieldOperand_iff.2 ha, State.isFieldOperand_iff.2 hb, Bool.and_self, if_true]
  rw [if_neg hdivisor, gdiv_of_ne_zero hdivisor, State.fieldOperand_eq_setWidth, State.fieldOperand_eq_setWidth]

theorem runGfdiv_eq_raise {s : State}
    (h : 256 ≤ (s.operand 0).toNat ∨ 256 ≤ (s.operand 1).toNat ∨ s.operand 1 = 0) :
    runGfdiv s = .raise .invalidParameters := by
  unfold runGfdiv
  split
  · next hok =>
    rw [Bool.and_eq_true, State.isFieldOperand_iff, State.isFieldOperand_iff] at hok
    obtain ⟨ha, hb⟩ := hok
    have hzero : s.operand 1 = 0 := by
      rcases h with h | h | h
      · omega
      · omega
      · exact h
    exact if_pos ((State.fieldOperand_eq_zero_iff hb).2 hzero)
  · rfl

theorem runGfinv_eq_scalar {s : State} (ha : (s.operand 0).toNat < 256) (hne : s.operand 0 ≠ 0) :
    runGfinv s = .scalar (ginv ((s.operand 0).setWidth 8)) := by
  have hoperand : s.fieldOperand 0 ≠ 0 := mt (State.fieldOperand_eq_zero_iff ha).1 hne
  rw [runGfinv, if_pos (State.isFieldOperand_iff.2 ha), if_neg hoperand, State.fieldOperand_eq_setWidth]

theorem runGfinv_eq_raise {s : State} (h : 256 ≤ (s.operand 0).toNat ∨ s.operand 0 = 0) :
    runGfinv s = .raise .invalidParameters := by
  unfold runGfinv
  split
  · next hok =>
    have ha := State.isFieldOperand_iff.1 hok
    exact if_pos ((State.fieldOperand_eq_zero_iff ha).2 (h.resolve_left (by omega)))
  · rfl

/-- Settles O18, from what GFMUL yields for each pair of operand words. -/
theorem gfmulCompletes : Obligations.GfmulCompletes := by
  refine ⟨by decide, by decide, fun a => ⟨gmul_zero_right a, gmul_zero_left a, gmul_one_right a, gmul_one_left a⟩,
    fun s ht hfp => ⟨fun ha hb => ?product, fun herror => ?error⟩⟩
  case product => exact exec_of_scalar ht hfp (runGfmul_eq_scalar ha hb)
  case error => exact exec_raise ht nofun (runGfmul_eq_raise herror)

/-- Settles O19: a divisor that passes the check is not 0, so the quotient is the product with its inverse. -/
theorem gfdivCompletes : Obligations.GfdivCompletes := by
  refine ⟨by decide, ?written, fun a => ⟨?byOne, fun ha => ⟨gmul_zero_left _, gmul_ginv ha⟩⟩,
    fun s ht hfp => ⟨fun ha hb hne => ?quotient, fun herror => ?error⟩⟩
  case written =>
    have hinverse : ginv 0x03 = 0xF4 := (eq_ginv (by decide)).symm
    rw [hinverse]
    decide
  case byOne => rw [ginv_one, gmul_one_right]
  case quotient => exact exec_of_scalar ht hfp (runGfdiv_eq_scalar ha hb hne)
  case error => exact exec_raise ht nofun (runGfdiv_eq_raise herror)

/-- Settles O20; each written-out inverse is one by its product with the operand. -/
theorem gfinvCompletes : Obligations.GfinvCompletes := by
  refine ⟨by decide, (eq_ginv (by decide)).symm, ginv_one, (eq_ginv (by decide)).symm, (eq_ginv (by decide)).symm,
    fun a ha => ginv_ginv ha, fun s ht hfp => ⟨fun ha hne => ?inverse, fun herror => ?error⟩⟩
  case inverse => exact exec_of_scalar ht hfp (runGfinv_eq_scalar ha hne)
  case error => exact exec_raise ht nofun (runGfinv_eq_raise herror)

end Sys2Proof.Machine

namespace Sys2Proof.Machine

/-! ### XOR sums of products (00_scope.md R12, 40_field.md R102) -/

theorem gmul_xorSum (t : Byte) (f : Nat → Byte) (n : Nat) :
    gmul t (xorSum f n) = xorSum (fun i => gmul t (f i)) n := by
  induction n with
  | zero => exact gmul_zero_right t
  | succ n ih => rw [xorSum_succ, xorSum_succ, gmul_xor_right, ih]

theorem xorSum_add (f : Nat → Byte) (m n : Nat) :
    xorSum f (m + n) = xorSum f m ^^^ xorSum (fun i => f (m + i)) n := by
  induction n with
  | zero => exact BitVec.xor_zero.symm
  | succ n ih => rw [← Nat.add_assoc, xorSum_succ, xorSum_succ, ih, BitVec.xor_assoc]

theorem xorSum_eq_zero {f : Nat → Byte} {n : Nat} (h : ∀ i < n, f i = 0) : xorSum f n = 0 :=
  (xorSum_congr h).trans (xorSum_const_zero n)

/-- A sum with one term that may be nonzero is that term. -/
theorem xorSum_eq_single {f : Nat → Byte} {n j : Nat} (hj : j < n) (h : ∀ i < n, i ≠ j → f i = 0) :
    xorSum f n = f j := by
  induction n with
  | zero => omega
  | succ n ih =>
    rw [xorSum_succ]
    by_cases hjn : j = n
    · subst hjn
      rw [xorSum_eq_zero fun i hi => h i (by omega) (by omega)]
      exact BitVec.zero_xor
    · rw [ih (by omega) fun i hi => h i (by omega), h n (by omega) (Ne.symm hjn)]
      exact BitVec.xor_zero

theorem eq_zero_of_gmul_eq_zero {a b : Byte} (ha : a ≠ 0) (h : gmul a b = 0) : b = 0 :=
  by_contra fun hb => gmul_ne_zero ha hb h

theorem ginv_ne_zero {a : Byte} (ha : a ≠ 0) : ginv a ≠ 0 := by
  intro hzero
  have hone := gmul_ginv ha
  rw [hzero, gmul_zero_right] at hone
  cases hone

/-! ### A matrix times a vector -/

/-- Element r of A·v, for a matrix of n columns. -/
def mulVec (a : Nat → Nat → Byte) (n : Nat) (v : Nat → Byte) (r : Nat) : Byte :=
  xorSum (fun c => gmul (a r c) (v c)) n

/-- Column c of the identity matrix. -/
def unitVec (c r : Nat) : Byte := if r = c then 1 else 0

theorem mulVec_unitVec (a : Nat → Nat → Byte) {n c : Nat} (hc : c < n) (r : Nat) :
    mulVec a n (unitVec c) r = a r c := by
  rw [mulVec, xorSum_eq_single hc fun i _ hi => by rw [unitVec, if_neg hi, gmul_zero_right], unitVec, if_pos rfl,
    gmul_one_right]

/-- Row r of the identity picks element r of the vector. -/
theorem mulVec_of_unit_row {a : Nat → Nat → Byte} {n r : Nat} (hr : r < n)
    (h : ∀ c < n, a r c = if r = c then 1 else 0) (v : Nat → Byte) : mulVec a n v r = v r := by
  rw [mulVec, xorSum_eq_single hr fun i hi hir => by rw [h i hi, if_neg hir.symm, gmul_zero_left], h r hr, if_pos rfl,
    gmul_one_left]

theorem mulVec_zero (a : Nat → Nat → Byte) (n r : Nat) : mulVec a n (fun _ => 0) r = 0 :=
  xorSum_eq_zero fun _ _ => gmul_zero_right _

theorem mulVec_congr {a b : Nat → Nat → Byte} {u v : Nat → Byte} {n r s : Nat} (ha : ∀ c < n, a r c = b s c)
    (hv : ∀ c < n, u c = v c) : mulVec a n u r = mulVec b n v s :=
  xorSum_congr fun c hc => by rw [ha c hc, hv c hc]

theorem mulVec_xor (a : Nat → Nat → Byte) (n : Nat) (u v : Nat → Byte) (r : Nat) :
    mulVec a n (fun c => u c ^^^ v c) r = mulVec a n u r ^^^ mulVec a n v r := by
  simp only [mulVec, gmul_xor_right, xorSum_xor]

theorem mulVec_scaled_row {a b : Nat → Nat → Byte} {n r s : Nat} {t : Byte} (h : ∀ c < n, b r c = gmul t (a s c))
    (v : Nat → Byte) : mulVec b n v r = gmul t (mulVec a n v s) := by
  rw [mulVec, mulVec, gmul_xorSum]
  exact xorSum_congr fun c hc => by rw [h c hc, gmul_assoc]

theorem mulVec_added_row {a b d : Nat → Nat → Byte} {n r s q : Nat} (h : ∀ c < n, d r c = a s c ^^^ b q c)
    (v : Nat → Byte) : mulVec d n v r = mulVec a n v s ^^^ mulVec b n v q := by
  rw [mulVec, mulVec, mulVec, ← xorSum_xor]
  exact xorSum_congr fun c hc => by rw [h c hc, gmul_xor_left]

/-- The n columns on the left and the k columns on the right of [A | B] add their products. -/
theorem mulVec_add (a : Nat → Nat → Byte) (n k : Nat) (x : Nat → Byte) (r : Nat) :
    mulVec a (n + k) x r = mulVec a n x r ^^^ mulVec (fun r c => a r (n + c)) k (fun c => x (n + c)) r :=
  xorSum_add _ n k

/-- A sends some nonzero vector to 0. -/
def Singular (a : Nat → Nat → Byte) (n : Nat) : Prop :=
  ∃ v : Nat → Byte, (∃ c < n, v c ≠ 0) ∧ ∀ r < n, mulVec a n v r = 0

/-- Multiplying by A and multiplying by B undo each other: w = A·v exactly when v = B·w. -/
def Inverts (a b : Nat → Nat → Byte) (n : Nat) : Prop :=
  ∀ v w : Nat → Byte, (∀ r < n, w r = mulVec a n v r) ↔ ∀ r < n, v r = mulVec b n w r

theorem Inverts.not_singular {a b : Nat → Nat → Byte} {n : Nat} (h : Inverts a b n) : ¬Singular a n := by
  rintro ⟨v, ⟨c, hc, hvc⟩, hv⟩
  refine hvc (((h v fun _ => 0).1 (fun r hr => (hv r hr).symm) c hc).trans ?_)
  exact mulVec_zero b n c

/-- A·B = I: the columns of the identity are the images of the columns of B. -/
theorem Inverts.right_inverse {a b : Nat → Nat → Byte} {n : Nat} (h : Inverts a b n) {r c : Nat} (hr : r < n)
    (hc : c < n) : mulVec a n (fun t => b t c) r = unitVec c r :=
  ((h (fun t => b t c) (unitVec c)).2 (fun _ _ => (mulVec_unitVec b hc _).symm) r hr).symm

/-- B·A = I: the columns of A are the images of the columns of the identity. -/
theorem Inverts.left_inverse {a b : Nat → Nat → Byte} {n : Nat} (h : Inverts a b n) {r c : Nat} (hr : r < n)
    (hc : c < n) : mulVec b n (fun t => a t c) r = unitVec c r :=
  ((h (unitVec c) fun t => a t c).1 (fun _ _ => (mulVec_unitVec a hc _).symm) r hr).symm

theorem Inverts.unique {a b b' : Nat → Nat → Byte} {n : Nat} (h : Inverts a b n)
    (h' : ∀ r < n, ∀ c < n, mulVec a n (fun t => b' t c) r = unitVec c r) {r c : Nat} (hr : r < n) (hc : c < n) :
    b' r c = b r c :=
  ((h (fun t => b' t c) (unitVec c)).1 (fun q hq => (h' q hq c hc).symm) r hr).trans (mulVec_unitVec b hc r)

/-! ### The row operations of GaussJordan, element by element (41_matrix.md R127) -/

/-- n rows of w elements each. -/
structure Rows.HasShape (m : Rows) (n w : Nat) : Prop where
  length : m.length = n
  width : ∀ row ∈ m, row.length = w

theorem Rows.HasShape.length_getD {m : Rows} {n w r : Nat} (h : Rows.HasShape m n w) (hr : r < n) :
    (m.getD r []).length = w := by
  obtain ⟨rfl, hrows⟩ := h
  rw [List.getD_eq_getElem _ _ hr]
  exact hrows _ (List.getElem_mem hr)

theorem hasShape_augmented (a : Nat → Nat → Byte) (n : Nat) : Rows.HasShape (augmented a n) n (n + n) := by
  refine ⟨by simp [augmented], fun row hrow => ?_⟩
  obtain ⟨r, -, rfl⟩ := List.mem_map.1 hrow
  simp

theorem getD_augmented (a : Nat → Nat → Byte) {n r : Nat} (hr : r < n) :
    (augmented a n).getD r [] =
      (List.range n).map (a r) ++ (List.range n).map fun c => if r = c then 0x01 else 0x00 := by
  simp [augmented, hr]

theorem entry_augmented_left (a : Nat → Nat → Byte) {n r c : Nat} (hr : r < n) (hc : c < n) :
    entry (augmented a n) r c = a r c := by
  rw [entry, getD_augmented a hr, List.getD_append _ _ _ _ (by simpa using hc)]
  simp [hc]

theorem entry_augmented_right (a : Nat → Nat → Byte) {n r c : Nat} (hr : r < n) (hc : c < n) :
    entry (augmented a n) r (n + c) = if r = c then 1 else 0 := by
  rw [entry, getD_augmented a hr, List.getD_append_right _ _ _ _ (by simp)]
  simp [hc]

theorem hasShape_swapRows {m : Rows} {n w c r : Nat} (h : Rows.HasShape m n w) (hc : c < n) (hr : r < n) :
    Rows.HasShape (swapRows m c r) n w := by
  refine ⟨by simp [swapRows, h.length], fun row hrow => ?_⟩
  rcases List.mem_or_eq_of_mem_set hrow with hrow | rfl
  · rcases List.mem_or_eq_of_mem_set hrow with hrow | rfl
    · exact h.width row hrow
    · exact h.length_getD hr
  · exact h.length_getD hc

theorem getD_swapRows {m : Rows} {n w c r : Nat} (h : Rows.HasShape m n w) (hc : c < n) (hr : r < n) (i : Nat) :
    (swapRows m c r).getD i [] = m.getD (Equiv.swap c r i) [] := by
  obtain ⟨rfl, -⟩ := h
  simp only [swapRows, List.getD_eq_getElem?_getD, List.getElem?_set, List.length_set, Equiv.swap_apply_def, hc, hr]
  by_cases hir : i = r
  · by_cases hic : i = c <;> simp [hir, hir ▸ hic]
  · by_cases hic : i = c
    · simp [hic, hic ▸ Ne.symm hir]
    · simp [hic, hir, Ne.symm hir, Ne.symm hic]

theorem swapRows_self {m : Rows} {c : Nat} (hc : c < m.length) : swapRows m c c = m := by
  rw [swapRows, List.getD_eq_getElem m [] hc, List.set_getElem_self, List.set_getElem_self]

theorem getD_scaleRow (t : Byte) (row : List Byte) (j : Nat) :
    (scaleRow t row).getD j 0 = gmul t (row.getD j 0) := by
  conv_lhs => rw [← gmul_zero_right t]
  exact List.getD_map row 0 (gmul t)

theorem getD_addScaled {pivot row : List Byte} (h : row.length = pivot.length) (f : Byte) (j : Nat) :
    (addScaled f pivot row).getD j 0 = row.getD j 0 ^^^ gmul f (pivot.getD j 0) := by
  by_cases hj : j < row.length
  · simp [addScaled, hj, h ▸ hj]
  · have hout : (addScaled f pivot row).length ≤ j := by simp [addScaled]; omega
    rw [List.getD_eq_default _ _ hout, List.getD_eq_default _ _ (by omega), List.getD_eq_default _ _ (by omega),
      gmul_zero_right]
    rfl

theorem hasShape_clearColumn {m : Rows} {n w c : Nat} {pivot : List Byte} (h : Rows.HasShape m n w)
    (hp : pivot.length = w) : Rows.HasShape (clearColumn m c pivot) n w := by
  refine ⟨by simp [clearColumn, h.length], fun row hrow => ?_⟩
  obtain ⟨i, hi, rfl⟩ := List.mem_mapIdx.1 hrow
  have hlen := h.width _ (List.getElem_mem hi)
  split
  · exact hp
  · split
    · simp [addScaled, hlen, hp]
    · exact hlen

theorem entry_clearColumn_pivot {m : Rows} {c : Nat} (hc : c < m.length) (pivot : List Byte) (j : Nat) :
    entry (clearColumn m c pivot) c j = pivot.getD j 0 := by
  simp [entry, clearColumn, hc]

/-- A row whose element of column c is 0 already has 0 times the pivot row added to it. -/
theorem entry_clearColumn_other {m : Rows} {n c i : Nat} {pivot : List Byte} (h : Rows.HasShape m n pivot.length)
    (hi : i < n) (hic : i ≠ c) (j : Nat) :
    entry (clearColumn m c pivot) i j = entry m i j ^^^ gmul (entry m i c) (pivot.getD j 0) := by
  have hrow : (clearColumn m c pivot).getD i [] =
      if entry m i c ≠ 0 then addScaled (entry m i c) pivot (m.getD i []) else m.getD i [] := by
    have hi' : i < m.length := h.length ▸ hi
    simp [clearColumn, entry, hic, hi']
  rw [entry, hrow]
  split
  · exact getD_addScaled (h.length_getD hi) _ j
  · next hzero =>
    rw [not_not.1 hzero, gmul_zero_left]
    exact BitVec.xor_zero.symm

/-! ### One column of the elimination -/

/-- The store after the column c is eliminated with the pivot row r: row r moves to place c and is scaled, and it clears
the column in every other row. -/
def reduceAt (m : Rows) (c r : Nat) : Rows :=
  clearColumn (swapRows m c r) c (scaleRow (ginv (entry m r c)) (m.getD r []))

theorem pivotRow_spec {m : Rows} {n c r : Nat} (hc : c < n) (h : pivotRow m n c = some r) :
    c ≤ r ∧ r < n ∧ entry m r c ≠ 0 := by
  unfold pivotRow at h
  split at h
  · next hcc =>
    cases h
    exact ⟨le_refl c, hc, hcc⟩
  · have hr := List.mem_range'_1.1 (List.mem_of_find?_eq_some h)
    exact ⟨by omega, by omega, by simpa using List.find?_some h⟩

theorem pivotRow_none {m : Rows} {n c : Nat} (h : pivotRow m n c = none) :
    ∀ r, c ≤ r → r < n → entry m r c = 0 := by
  unfold pivotRow at h
  split at h
  · cases h
  · next hcc =>
    intro r hle hlt
    rcases Nat.eq_or_lt_of_le hle with rfl | hgt
    · exact not_not.1 hcc
    · simpa using List.find?_eq_none.1 h r (List.mem_range'_1.2 ⟨by omega, by omega⟩)

theorem eliminate_of_pivotRow {m : Rows} {n w c r : Nat} (hm : Rows.HasShape m n w) (hc : c < n)
    (h : pivotRow m n c = some r) : eliminate n m c = some (reduceAt m c r) := by
  obtain ⟨-, hr, -⟩ := pivotRow_spec hc h
  have hswap : (if r = c then m else swapRows m c r) = swapRows m c r := by
    split
    · next heq => rw [heq, swapRows_self (hm.length ▸ hc)]
    · rfl
  have hpivot : (swapRows m c r).getD c [] = m.getD r [] := by
    rw [getD_swapRows hm hc hr, Equiv.swap_apply_left]
  simp only [eliminate, h, hswap, reduceAt, entry, hpivot]

theorem eliminate_of_no_pivotRow {m : Rows} {n c : Nat} (h : pivotRow m n c = none) : eliminate n m c = none := by
  simp only [eliminate, h]

section ReduceAt

variable {m : Rows} {n w c r : Nat} (hm : Rows.HasShape m n w) (hc : c < n) (hr : r < n)

include hm hc hr

theorem hasShape_reduceAt : Rows.HasShape (reduceAt m c r) n w :=
  hasShape_clearColumn (hasShape_swapRows hm hc hr) (by rw [scaleRow, List.length_map, hm.length_getD hr])

theorem entry_reduceAt_pivot (j : Nat) :
    entry (reduceAt m c r) c j = gmul (ginv (entry m r c)) (entry m r j) := by
  rw [reduceAt, entry_clearColumn_pivot (by rw [(hasShape_swapRows hm hc hr).length]; exact hc), getD_scaleRow]
  rfl

theorem entry_reduceAt_other {i : Nat} (hi : i < n) (hic : i ≠ c) (j : Nat) :
    entry (reduceAt m c r) i j = entry m (Equiv.swap c r i) j ^^^
      gmul (entry m (Equiv.swap c r i) c) (entry (reduceAt m c r) c j) := by
  have hlen : (scaleRow (ginv (entry m r c)) (m.getD r [])).length = w := by
    rw [scaleRow, List.length_map, hm.length_getD hr]
  rw [entry_reduceAt_pivot hm hc hr, reduceAt,
    entry_clearColumn_other (hlen.symm ▸ hasShape_swapRows hm hc hr) hi hic, getD_scaleRow]
  simp only [entry, getD_swapRows hm hc hr]

/-- Eliminating a column keeps the vectors that the rows send to 0: every row of the new store is a combination of rows
of the old one, and the other way round. -/
theorem mulVec_reduceAt_eq_zero_iff (hpivot : entry m r c ≠ 0) (k : Nat) (x : Nat → Byte) :
    (∀ i < n, mulVec (entry (reduceAt m c r)) k x i = 0) ↔ ∀ i < n, mulVec (entry m) k x i = 0 := by
  have hrow : mulVec (entry (reduceAt m c r)) k x c = gmul (ginv (entry m r c)) (mulVec (entry m) k x r) :=
    mulVec_scaled_row (fun j _ => entry_reduceAt_pivot hm hc hr j) x
  have hother : ∀ i < n, i ≠ c → mulVec (entry (reduceAt m c r)) k x i = mulVec (entry m) k x (Equiv.swap c r i) ^^^
      gmul (entry m (Equiv.swap c r i) c) (mulVec (entry (reduceAt m c r)) k x c) := fun i hi hic => by
    rw [← mulVec_scaled_row (b := fun _ j => gmul (entry m (Equiv.swap c r i) c) (entry (reduceAt m c r) c j))
      (r := i) (fun _ _ => rfl) x]
    exact mulVec_added_row (fun j _ => entry_reduceAt_other hm hc hr hi hic j) x
  have hswap : ∀ i < n, Equiv.swap c r i < n := fun i hi => by
    rw [Equiv.swap_apply_def]
    split_ifs <;> assumption
  constructor
  · intro h i hi
    by_cases hir : i = r
    · exact hir ▸ eq_zero_of_gmul_eq_zero (ginv_ne_zero hpivot) (hrow.symm.trans (h c hc))
    · have hic : Equiv.swap c r i ≠ c := fun heq =>
        hir ((Equiv.swap_apply_eq_iff.1 heq).trans (Equiv.swap_apply_left c r))
      have hsum := hother _ (hswap i hi) hic
      rw [h _ (hswap i hi), h c hc, gmul_zero_right, Equiv.swap_apply_self] at hsum
      simpa using hsum.symm
  · intro h i hi
    have hc0 : mulVec (entry (reduceAt m c r)) k x c = 0 := by rw [hrow, h r hr, gmul_zero_right]
    by_cases hic : i = c
    · exact hic ▸ hc0
    · rw [hother i hi hic, hc0, h _ (hswap i hi), gmul_zero_right]
      rfl

end ReduceAt

/-! ### The whole elimination (41_matrix.md R127, R128) -/

/-- The store m comes from [A | I] by eliminating the columns below c: those are columns of the identity, and the rows
send (v, w) to 0 exactly when w = A·v, as the rows of [A | I] do. -/
structure EliminatedTo (a : Nat → Nat → Byte) (n c : Nat) (m : Rows) : Prop where
  shape : Rows.HasShape m n (n + n)
  unit : ∀ j < c, ∀ i < n, entry m i j = unitVec j i
  graph : ∀ x : Nat → Byte,
    (∀ i < n, mulVec (entry m) (n + n) x i = 0) ↔ ∀ i < n, x (n + i) = mulVec a n x i

theorem augmented_eliminatedTo (a : Nat → Nat → Byte) (n : Nat) : EliminatedTo a n 0 (augmented a n) where
  shape := hasShape_augmented a n
  unit := fun _ hj => absurd hj (Nat.not_lt_zero _)
  graph x := by
    refine forall₂_congr fun i hi => ?_
    have hleft : mulVec (entry (augmented a n)) n x i = mulVec a n x i :=
      mulVec_congr (fun c hc => entry_augmented_left a hi hc) fun _ _ => rfl
    have hright := mulVec_of_unit_row (a := fun r c => entry (augmented a n) r (n + c)) hi
      fun c hc => entry_augmented_right a hi hc
    rw [mulVec_add, hleft, hright]
    exact BitVec.xor_eq_zero_iff.trans eq_comm

theorem EliminatedTo.reduceAt {a : Nat → Nat → Byte} {n c r : Nat} {m : Rows} (h : EliminatedTo a n c m) (hcr : c ≤ r)
    (hr : r < n) (hpivot : entry m r c ≠ 0) : EliminatedTo a n (c + 1) (reduceAt m c r) where
  shape := hasShape_reduceAt h.shape (by omega) hr
  graph x := (mulVec_reduceAt_eq_zero_iff h.shape (by omega) hr hpivot _ x).trans (h.graph x)
  unit j hj i hi := by
    have hc : c < n := by omega
    have hp := entry_reduceAt_pivot h.shape hc hr j
    rcases Nat.lt_succ_iff_lt_or_eq.1 hj with hjc | rfl
    · have hzero : entry (Machine.reduceAt m c r) c j = 0 := by
        rw [hp, h.unit j hjc r hr, unitVec, if_neg (by omega), gmul_zero_right]
      by_cases hic : i = c
      · rw [hic, hzero, unitVec, if_neg (by omega)]
      · have hswap : Equiv.swap c r i < n ∧ (Equiv.swap c r i = j ↔ i = j) := by
          rw [Equiv.swap_apply_def]
          split_ifs <;> omega
        obtain ⟨hlt, hiff⟩ := hswap
        rw [entry_reduceAt_other h.shape hc hr hi hic, hzero, gmul_zero_right, h.unit j hjc _ hlt]
        simp only [unitVec, hiff]
        exact BitVec.xor_zero
    · have hone : entry (Machine.reduceAt m j r) j j = 1 := by rw [hp, gmul_comm, gmul_ginv hpivot]
      by_cases hij : i = j
      · rw [hij, hone, unitVec, if_pos rfl]
      · rw [entry_reduceAt_other h.shape hc hr hi hij, hone, gmul_one_right, unitVec, if_neg hij]
        exact BitVec.xor_self

/-- Column c above the diagonal, as a vector with 0 below. -/
def aboveDiagonal (m : Rows) (c j : Nat) : Byte := if j < c then entry m j c else 0

/-- When the columns before c are columns of the identity and column c is 0 from the diagonal on, column c is the sum of
columns before it: `aboveDiagonal` has the coefficients. -/
theorem mulVec_aboveDiagonal {m : Rows} {n w c i : Nat} (hunit : ∀ j < c, ∀ i < n, entry m i j = unitVec j i)
    (hzero : ∀ r, c ≤ r → r < n → entry m r c = 0) (hi : i < n) (hiw : i < w) :
    mulVec (entry m) w (aboveDiagonal m c) i = entry m i c := by
  have hother : ∀ j < w, j ≠ i → gmul (entry m i j) (aboveDiagonal m c j) = 0 := by
    intro j _ hji
    by_cases hj : j < c
    · rw [hunit j hj i hi, unitVec, if_neg hji.symm, gmul_zero_left]
    · rw [aboveDiagonal, if_neg hj, gmul_zero_right]
  rw [mulVec, xorSum_eq_single hiw hother]
  by_cases hic : i < c
  · rw [aboveDiagonal, if_pos hic, hunit i hic i hi, unitVec, if_pos rfl, gmul_one_left]
  · rw [aboveDiagonal, if_neg hic, gmul_zero_right, hzero i (by omega) hi]

/-- A column without a pivot gives a vector that A sends to 0: 1 at c, and above it the coefficients of column c. -/
theorem EliminatedTo.singular {a : Nat → Nat → Byte} {n c : Nat} {m : Rows} (h : EliminatedTo a n c m) (hc : c < n)
    (hzero : ∀ r, c ≤ r → r < n → entry m r c = 0) : Singular a n := by
  have hkernel : ∀ i < n, mulVec (entry m) (n + n) (fun j => aboveDiagonal m c j ^^^ unitVec c j) i = 0 := by
    intro i hi
    rw [mulVec_xor, mulVec_aboveDiagonal h.unit hzero hi (by omega), mulVec_unitVec _ (by omega)]
    exact BitVec.xor_self
  refine ⟨_, ⟨c, hc, ?_⟩, fun i hi => ((h.graph _).1 hkernel i hi).symm.trans ?_⟩
  · simp [aboveDiagonal, unitVec]
  · simp [aboveDiagonal, unitVec, show ¬n + i < c by omega, show n + i ≠ c by omega]

/-- Either every column finds its pivot, or A is singular. -/
theorem eliminateAll_cases {a : Nat → Nat → Byte} {n c k : Nat} {m : Rows} (h : EliminatedTo a n c m)
    (hn : c + k = n) :
    (∃ m', eliminateAll n (List.range' c k) m = some m' ∧ EliminatedTo a n n m') ∨
      (eliminateAll n (List.range' c k) m = none ∧ Singular a n) := by
  induction k generalizing c m with
  | zero =>
    obtain rfl : c = n := hn
    exact .inl ⟨m, rfl, h⟩
  | succ k ih =>
    have hc : c < n := by omega
    rw [List.range'_succ, eliminateAll]
    cases hp : pivotRow m n c with
    | none =>
      rw [eliminate_of_no_pivotRow hp]
      exact .inr ⟨rfl, h.singular hc (pivotRow_none hp)⟩
    | some r =>
      obtain ⟨hcr, hr, hne⟩ := pivotRow_spec hc hp
      rw [eliminate_of_pivotRow h.shape hc hp]
      exact ih (h.reduceAt hcr hr hne) (by omega)

theorem entry_map_drop {m : Rows} {n w i : Nat} (hm : Rows.HasShape m n w) (hi : i < n) (k j : Nat) :
    entry (m.map (List.drop k)) i j = entry m i (k + j) := by
  obtain ⟨rfl, -⟩ := hm
  simp [entry, hi]

/-- The vector with v in its first n places and w behind. -/
def stack (n : Nat) (v w : Nat → Byte) (j : Nat) : Byte := if j < n then v j else w (j - n)

theorem stack_left {n j : Nat} (h : j < n) (v w : Nat → Byte) : stack n v w j = v j := if_pos h

theorem stack_right (n : Nat) (v w : Nat → Byte) (j : Nat) : stack n v w (n + j) = w j := by
  simp [stack]

/-- When all columns are eliminated the store is [I | B], whose rows send (v, w) to 0 exactly when v = B·w. -/
theorem EliminatedTo.inverts {a : Nat → Nat → Byte} {n : Nat} {m : Rows} (h : EliminatedTo a n n m) :
    Inverts a (entry (m.map (List.drop n))) n := by
  intro v w
  have hrow : ∀ i < n, mulVec (entry m) (n + n) (stack n v w) i =
      v i ^^^ mulVec (entry (m.map (List.drop n))) n w i := by
    intro i hi
    rw [mulVec_add, mulVec_of_unit_row (r := i) hi fun c hc => h.unit c hc i hi, stack_left hi]
    exact congrArg (v i ^^^ ·) (mulVec_congr (fun c _ => (entry_map_drop h.shape hi n c).symm)
      fun c _ => stack_right n v w c)
  have hgraph := h.graph (stack n v w)
  rw [forall₂_congr fun i hi => by rw [hrow i hi]] at hgraph
  rw [← forall₂_congr fun i hi => (BitVec.xor_eq_zero_iff (x := v i))]
  refine (hgraph.trans (forall₂_congr fun i hi => ?_)).symm
  rw [stack_right, mulVec_congr (fun _ _ => rfl) fun c hc => stack_left hc v w]

/-- GaussJordan returns a B that undoes A, or A is singular (41_matrix.md R128). -/
theorem gaussJordan_cases (a : Nat → Nat → Byte) (n : Nat) :
    (∃ b, gaussJordan a n = some b ∧ Inverts a (entry b) n) ∨ (gaussJordan a n = none ∧ Singular a n) := by
  rw [gaussJordan, List.range_eq_range']
  rcases eliminateAll_cases (augmented_eliminatedTo a n) (Nat.zero_add n) with ⟨m, hm, h⟩ | ⟨hm, h⟩
  · rw [hm]
    exact .inl ⟨_, rfl, h.inverts⟩
  · rw [hm]
    exact .inr ⟨rfl, h⟩

theorem inverts_of_gaussJordan {a : Nat → Nat → Byte} {n : Nat} {b : Rows} (h : gaussJordan a n = some b) :
    Inverts a (entry b) n := by
  rcases gaussJordan_cases a n with ⟨b', hb', hinverts⟩ | ⟨hnone, -⟩
  · cases h.symm.trans hb'
    exact hinverts
  · cases h.symm.trans hnone

theorem gaussJordan_eq_none_iff {a : Nat → Nat → Byte} {n : Nat} : gaussJordan a n = none ↔ Singular a n := by
  rcases gaussJordan_cases a n with ⟨b, hb, hinverts⟩ | ⟨hnone, hsingular⟩
  · exact iff_of_false (by simp [hb]) hinverts.not_singular
  · exact iff_of_true hnone hsingular

theorem gaussJordan_one_of_ne_zero {a : Nat → Nat → Byte} (h : a 0 0 ≠ 0) :
    gaussJordan a 1 = some [[ginv (a 0 0)]] := by
  have haug : augmented a 1 = [[a 0 0, 1]] := rfl
  have hpivot : pivotRow [[a 0 0, 1]] 1 0 = some 0 := if_pos h
  simp only [gaussJordan, haug, List.range_one, eliminateAll, eliminate, hpivot, if_true]
  exact congrArg (fun x => some [[x]]) (gmul_one_right _)

/-- Settles O24: the rows of the store always send the same pairs (v, w) to 0, those with w = A·v. -/
theorem gaussJordanInvertsOrFindsSingular : Obligations.GaussJordanInvertsOrFindsSingular := by
  intro a n _
  refine ⟨gaussJordan_eq_none_iff, fun b hb => ?inverse, ?one⟩
  case inverse =>
    have hinverts := inverts_of_gaussJordan hb
    exact ⟨fun r hr c hc => hinverts.left_inverse hr hc, fun r hr c hc => hinverts.right_inverse hr hc,
      fun b' hb' r hr c hc => hinverts.unique hb' hr hc⟩
  case one =>
    rintro rfl
    refine ⟨fun hzero => gaussJordan_eq_none_iff.2 ⟨unitVec 0, ⟨0, by decide, by decide⟩, fun r hr => ?_⟩,
      gaussJordan_one_of_ne_zero⟩
    rw [mulVec_unitVec a Nat.zero_lt_one, Nat.lt_one_iff.1 hr, hzero]

end Sys2Proof.Machine

namespace Sys2Proof.Machine

/-! ### The elements of a generated matrix (41_matrix.md R122, R123, R124) -/

/-- Two indices below 256 are different as bytes too. -/
theorem ofNat_xor_ofNat_ne_zero {i j : Nat} (hi : i < 256) (hj : j < 256) (hij : i ≠ j) :
    BitVec.ofNat 8 i ^^^ BitVec.ofNat 8 j ≠ 0 := by
  intro h
  have hnat := congrArg BitVec.toNat (BitVec.xor_eq_zero_iff.1 h)
  rw [BitVec.toNat_ofNat, BitVec.toNat_ofNat, Nat.mod_eq_of_lt hi, Nat.mod_eq_of_lt hj] at hnat
  exact hij hnat

/-- A Cauchy element times x_i + y_j is 1. -/
theorem gmul_cauchyElem {i j : Nat} (hi : i < 256) (hj : j < 256) (hij : i ≠ j) :
    gmul (cauchyElem i j) (BitVec.ofNat 8 i ^^^ BitVec.ofNat 8 j) = 1 :=
  (gmul_comm _ _).trans (gmul_ginv (ofNat_xor_ofNat_ne_zero hi hj hij))

theorem genElem_identity {k i : Nat} (hi : i < k) (mode : GenMode) (j : Nat) :
    genElem mode k i j = if i = j then 1 else 0 := if_pos hi

theorem genElem_cauchy {k i : Nat} (hi : k ≤ i) (j : Nat) : genElem .cauchy k i j = cauchyElem i j :=
  if_neg (not_lt.2 hi)

theorem genElem_vandermonde {k i : Nat} (hi : k ≤ i) (j : Nat) :
    genElem .vandermonde k i j = gpow 0x02 ((i - k) * j) := by
  have helem : genElem .vandermonde k i j = vandElem k i j := if_neg (not_lt.2 hi)
  rw [helem, vandElem, gpow_mul]

/-- Settles O21, from what each kind of row holds. -/
theorem generatorMatrixElements : Obligations.GeneratorMatrixElements := by
  intro k p i j _ hkp hi hj
  refine ⟨fun hik mode => genElem_identity hik mode j, fun hki => ?cauchy, fun hki => genElem_vandermonde hki j, ?first⟩
  case cauchy =>
    rw [genElem_cauchy hki]
    exact gmul_cauchyElem (by omega) (by omega) (by omega)
  case first =>
    rintro rfl
    rw [genElem_vandermonde le_rfl, Nat.sub_self, Nat.zero_mul, gpow_zero]

/-! ### Any K rows of a Cauchy generator matrix (41_matrix.md R125) -/

theorem xor_cancel_middle (a b d : Byte) : (a ^^^ d) ^^^ (b ^^^ d) = a ^^^ b := by
  rw [show (a ^^^ d) ^^^ (b ^^^ d) = a ^^^ b ^^^ (d ^^^ d) by ac_rfl, BitVec.xor_self, BitVec.xor_zero]

/-- (x+y₀)·c·v for c = 1/(x+y), since x+y₀ = (x+y) + (y₀+y). -/
theorem gmul_reciprocal {x y c : Byte} (hc : gmul c (x ^^^ y) = 1) (y₀ v : Byte) :
    gmul (x ^^^ y₀) (gmul c v) = v ^^^ gmul (y₀ ^^^ y) (gmul c v) := by
  rw [← xor_cancel_middle x y₀ y, gmul_xor_left, ← gmul_assoc, gmul_comm _ c, hc, gmul_one_left]

/-- The step of the induction: with c = 1/(x+y) and c₀ = 1/(x₀+y), the sum of (x+y₀)·c·v and (x₀+y₀)·c₀·v is
(x+x₀)·c times (y₀+y)·c₀·v, which is 0 for y = y₀. -/
theorem cauchy_cross {x x₀ y c c₀ : Byte} (hc : gmul c (x ^^^ y) = 1) (hc₀ : gmul c₀ (x₀ ^^^ y) = 1) (y₀ v : Byte) :
    gmul (x ^^^ x₀) (gmul c (gmul (gmul (y₀ ^^^ y) c₀) v)) =
      gmul (x ^^^ y₀) (gmul c v) ^^^ gmul (x₀ ^^^ y₀) (gmul c₀ v) := by
  have hassoc : Std.Associative gmul := ⟨gmul_assoc⟩
  have hcomm : Std.Commutative gmul := ⟨gmul_comm⟩
  calc gmul (x ^^^ x₀) (gmul c (gmul (gmul (y₀ ^^^ y) c₀) v))
      = gmul (gmul c (x ^^^ y)) (gmul (y₀ ^^^ y) (gmul c₀ v)) ^^^
          gmul (gmul c₀ (x₀ ^^^ y)) (gmul (y₀ ^^^ y) (gmul c v)) := by
        rw [← xor_cancel_middle x x₀ y, gmul_xor_left]
        ac_rfl
    _ = gmul (y₀ ^^^ y) (gmul c v) ^^^ gmul (y₀ ^^^ y) (gmul c₀ v) := by
        rw [hc, hc₀, gmul_one_left, gmul_one_left, BitVec.xor_comm]
    _ = gmul (x ^^^ y₀) (gmul c v) ^^^ gmul (x₀ ^^^ y₀) (gmul c₀ v) := by
        rw [gmul_reciprocal hc, gmul_reciprocal hc₀, BitVec.xor_comm v, BitVec.xor_comm v, xor_cancel_middle]

/-- The vector of `cauchy_cross`: column j₀ is taken out with the row i₀. -/
def cauchyReduced (i₀ j₀ : Nat) (v : Nat → Byte) (j : Nat) : Byte :=
  gmul (gmul (BitVec.ofNat 8 j₀ ^^^ BitVec.ofNat 8 j) (cauchyElem i₀ j)) (v j)

theorem cauchyReduced_self (i₀ j₀ : Nat) (v : Nat → Byte) : cauchyReduced i₀ j₀ v j₀ = 0 := by
  rw [cauchyReduced, BitVec.xor_self]
  exact (congrArg (gmul · (v j₀)) (gmul_zero_left _)).trans (gmul_zero_left _)

theorem cauchyElem_ne_zero {i j : Nat} (hi : i < 256) (hj : j < 256) (hij : i ≠ j) : cauchyElem i j ≠ 0 :=
  ginv_ne_zero (ofNat_xor_ofNat_ne_zero hi hj hij)

/-- Every other row that sends v to 0 sends the reduced vector to 0, by `cauchy_cross` in each column. -/
theorem mulVec_cauchyReduced {k i i₀ : Nat} {v : Nat → Byte} (hi : k ≤ i) (hi256 : i < 256) (hi₀ : k ≤ i₀)
    (hi₀256 : i₀ < 256) (hne : i ≠ i₀) (h : mulVec cauchyElem k v i = 0) (h₀ : mulVec cauchyElem k v i₀ = 0)
    (j₀ : Nat) : mulVec cauchyElem k (cauchyReduced i₀ j₀ v) i = 0 := by
  refine eq_zero_of_gmul_eq_zero (ofNat_xor_ofNat_ne_zero hi256 hi₀256 hne) ?_
  have hsum : gmul (BitVec.ofNat 8 i ^^^ BitVec.ofNat 8 i₀) (mulVec cauchyElem k (cauchyReduced i₀ j₀ v) i) =
      gmul (BitVec.ofNat 8 i ^^^ BitVec.ofNat 8 j₀) (mulVec cauchyElem k v i) ^^^
        gmul (BitVec.ofNat 8 i₀ ^^^ BitVec.ofNat 8 j₀) (mulVec cauchyElem k v i₀) := by
    simp only [mulVec, gmul_xorSum, ← xorSum_xor]
    exact xorSum_congr fun j hj => cauchy_cross (gmul_cauchyElem hi256 (by omega) (by omega))
      (gmul_cauchyElem hi₀256 (by omega) (by omega)) _ (v j)
  rw [hsum, h, h₀, gmul_zero_right, gmul_zero_right]
  rfl

/-- A Cauchy matrix with no more columns than rows sends no nonzero vector to 0. The vector is 0 outside the columns
`cols`; each column is taken out with one of the rows. -/
theorem eq_zero_of_mulVec_cauchyElem {k : Nat} {cols rows : Finset Nat} {v : Nat → Byte}
    (hcols : ∀ j ∈ cols, j < k) (hrows : ∀ i ∈ rows, k ≤ i ∧ i < 256) (hcard : cols.card ≤ rows.card)
    (houtside : ∀ j < k, j ∉ cols → v j = 0) (h : ∀ i ∈ rows, mulVec cauchyElem k v i = 0) : ∀ j < k, v j = 0 := by
  induction cols using Finset.induction generalizing rows v with
  | empty => exact fun j hj => houtside j hj (Finset.notMem_empty j)
  | insert j₀ cols hj₀ ih =>
    rw [Finset.card_insert_of_notMem hj₀] at hcard
    obtain ⟨i₀, hi₀⟩ : rows.Nonempty := Finset.card_pos.1 (by omega)
    obtain ⟨hki₀, hi₀256⟩ := hrows i₀ hi₀
    have hj₀k := hcols j₀ (Finset.mem_insert_self j₀ cols)
    have hreduced : ∀ j < k, cauchyReduced i₀ j₀ v j = 0 := by
      refine ih (rows := rows.erase i₀) (fun j hj => hcols j (Finset.mem_insert_of_mem hj))
        (fun i hi => hrows i (Finset.mem_of_mem_erase hi)) ?card (fun j hj hjcols => ?outside) (fun i hi => ?kernel)
      case card =>
        rw [Finset.card_erase_of_mem hi₀]
        omega
      case outside =>
        by_cases hjj₀ : j = j₀
        · exact hjj₀ ▸ cauchyReduced_self i₀ j₀ v
        · rw [cauchyReduced, houtside j hj (by simp [hjj₀, hjcols]), gmul_zero_right]
      case kernel =>
        obtain ⟨hne, hi⟩ := Finset.mem_erase.1 hi
        obtain ⟨hki, hi256⟩ := hrows i hi
        exact mulVec_cauchyReduced hki hi256 hki₀ hi₀256 hne (h i hi) (h i₀ hi₀) j₀
    have hother : ∀ j < k, j ≠ j₀ → v j = 0 := fun j hj hjj₀ =>
      eq_zero_of_gmul_eq_zero (gmul_ne_zero (ofNat_xor_ofNat_ne_zero (by omega) (by omega) hjj₀.symm)
        (cauchyElem_ne_zero hi₀256 (by omega) (by omega))) (hreduced j hj)
    intro j hj
    by_cases hjj₀ : j = j₀
    · subst hjj₀
      have hrow := h i₀ hi₀
      rw [mulVec, xorSum_eq_single hj fun i hi hij => by rw [hother i hi hij, gmul_zero_right]] at hrow
      exact eq_zero_of_gmul_eq_zero (cauchyElem_ne_zero hi₀256 (by omega) (by omega)) hrow
    · exact hother j hj hjj₀

/-- A row of the generator matrix below K sends v to its own element of v. -/
theorem mulVec_genElem_identity {k i : Nat} (hi : i < k) (mode : GenMode) (v : Nat → Byte) :
    mulVec (genElem mode k) k v i = v i := mulVec_of_unit_row hi (fun c _ => genElem_identity hi mode c) v

theorem mulVec_genElem_cauchy {k i : Nat} (hi : k ≤ i) (v : Nat → Byte) :
    mulVec (genElem .cauchy k) k v i = mulVec cauchyElem k v i :=
  mulVec_congr (fun c _ => genElem_cauchy hi c) fun _ _ => rfl

/-- Settles O25: an identity row among the K makes its element of a kernel vector 0, and there are as many Cauchy rows
as other columns. -/
theorem cauchyMatrixIsMds : Obligations.CauchyMatrixIsMds := by
  intro k p rows _ hkp hlen hnodup hrows hnone
  obtain ⟨v, ⟨c, hc, hvc⟩, hv⟩ := gaussJordan_eq_none_iff.1 hnone
  have hkernel : ∀ i ∈ rows, mulVec (genElem .cauchy k) k v i = 0 := by
    intro i hi
    obtain ⟨r, hr, rfl⟩ := List.getElem_of_mem hi
    have hrow := hv r (hlen ▸ hr)
    rw [← List.getD_eq_getElem rows 0 hr]
    exact hrow
  have hcard : (Finset.range k \ rows.toFinset).card ≤ (rows.toFinset \ Finset.range k).card := by
    rw [Finset.card_sdiff_le_card_sdiff_iff, Finset.card_range, List.toFinset_card_of_nodup hnodup, hlen]
  refine hvc (eq_zero_of_mulVec_cauchyElem (fun j hj => ?_) (fun i hi => ?_) hcard (fun j hj hjcols => ?_)
    (fun i hi => ?_) c hc)
  · exact Finset.mem_range.1 (Finset.mem_sdiff.1 hj).1
  · simp only [Finset.mem_sdiff, List.mem_toFinset, Finset.mem_range, not_lt] at hi
    have := hrows i hi.1
    omega
  · have hjrows : j ∈ rows := by simpa [hj] using hjcols
    rw [← mulVec_genElem_identity hj .cauchy v, hkernel j hjrows]
  · simp only [Finset.mem_sdiff, List.mem_toFinset, Finset.mem_range, not_lt] at hi
    rw [← mulVec_genElem_cauchy hi.2, hkernel i hi.1]

end Sys2Proof.Machine

namespace Sys2Proof.Machine

/-! ### A matrix written to MEM (20_memory.md R61) -/

/-- What exec of a command that succeeds with a matrix leaves: the elements at their row-major addresses, and every
other byte as it was. -/
theorem exec_of_matrixWrites {i : Instr} {s : State} {base rows cols : Nat} {elem : Nat → Nat → Byte}
    (ht : s.taint = .none) (hwf : s.mem.wf = true) (ha : s.fp.aliases = false)
    (h : runOf i s = .wrote (matrixWrites base rows cols elem)) :
    ∃ m : Memory, exec i s = .next (s.completed .success m s.res) ∧ m.wf = true ∧
      (∀ r < rows, ∀ c < cols, m.read (base + r * cols + c) = elem r c) ∧
      ∀ a, (a < base ∨ base + rows * cols ≤ a) → m.read a = s.mem.read a := by
  refine ⟨_, by rw [exec_success ht ha, h]; rfl, Memory.wf_apply hwf _, fun r hr c hc => ?element,
    fun a hout => Memory.read_apply_other _ fun w hw hwa => ?other⟩
  case element =>
    refine Memory.read_apply_same hwf (mem_matrixWrites.2 ⟨r, hr, c, hc, rfl⟩) fun w hw haddr => ?_
    obtain ⟨r', -, c', hc', rfl⟩ := mem_matrixWrites.1 hw
    have haddr : r' * cols + c' = r * cols + c := by dsimp only at haddr; omega
    obtain ⟨rfl, rfl⟩ := rowMajor_inj hc' hc haddr
    rfl
  case other =>
    have hin := mem_matrixWrites_addresses.1 (List.mem_map_of_mem (f := Prod.fst) hw)
    omega

/-! ### GENM and INVM (41_matrix.md R121, R129) -/

theorem inRange_iff_of_pos {memSize a size : Nat} (h : 0 < size) :
    inRange memSize a size = true ↔ a + size ≤ memSize := by
  rw [inRange_iff, or_iff_right (Nat.ne_of_gt h)]

/-- The checks of GENM: a matrix with valid K and P has a size above 0, so its range check is the exact bound. -/
theorem genmChecks_iff {memSize k p mat : Nat} :
    (validKP k p && inRange memSize mat ((k + p) * k)) = true ↔
      1 ≤ k ∧ k + p ≤ 256 ∧ mat + (k + p) * k ≤ memSize := by
  rw [Bool.and_eq_true, validKP_iff, and_assoc]
  refine and_congr_right fun hk => and_congr_right fun _ => inRange_iff_of_pos ?_
  exact Nat.mul_pos (by omega) hk

/-- Settles O22, from the checks of GENM and the writes of a matrix. -/
theorem genmCompletes : Obligations.GenmCompletes := by
  intro mode s ht hwf k p mat
  refine ⟨fun hk hkp hmat ha => exec_of_matrixWrites ht hwf ha (if_pos (genmChecks_iff.2 ⟨hk, hkp, hmat⟩)),
    fun herror => exec_raise ht nofun (if_neg fun hchecks => ?_)⟩
  obtain ⟨hk, hkp, hmat⟩ := genmChecks_iff.1 hchecks
  rcases herror with h | h | h
  · exact Nat.ne_of_gt hk h
  · exact not_lt.2 hkp h
  · exact not_lt.2 hmat h

/-- The checks of INVM, with the exact bounds of its two regions. -/
def InvmChecks (memSize n src dst : Nat) : Prop :=
  1 ≤ n ∧ n ≤ 256 ∧ src + n * n ≤ memSize ∧ dst + n * n ≤ memSize

theorem invmChecks_iff {memSize n src dst : Nat} :
    InvmChecks memSize n src dst ↔ ¬(n = 0 ∨ Config.nMax < n) ∧
      (inRange memSize src (n * n) && inRange memSize dst (n * n)) = true := by
  have hn : ¬(n = 0 ∨ Config.nMax < n) ↔ 1 ≤ n ∧ n ≤ 256 := by
    simp only [Config.nMax]
    omega
  rw [InvmChecks, hn, Bool.and_eq_true, and_assoc]
  refine and_congr_right fun hpos => and_congr_right fun _ => ?_
  rw [inRange_iff_of_pos (Nat.mul_pos hpos hpos), inRange_iff_of_pos (Nat.mul_pos hpos hpos)]

section Invm

variable {s : State} {n src dst : Nat} (hn : argNat s.snap.args 0 = n) (hsrc : argNat s.snap.args 1 = src)
  (hdst : argNat s.snap.args 2 = dst)

include hn hsrc hdst

theorem runInvm_of_not_checks (h : ¬InvmChecks s.params.memSize n src dst) :
    runInvm s = .raise .invalidParameters := by
  simp only [runInvm, hn, hsrc, hdst]
  split
  · rfl
  · next hsize => exact if_neg fun hregions => h (invmChecks_iff.2 ⟨hsize, hregions⟩)

theorem runInvm_of_singular (h : InvmChecks s.params.memSize n src dst)
    (hnone : gaussJordan (matRead s.mem src n) n = none) : runInvm s = .raise .singularSubmatrix := by
  obtain ⟨hsize, hregions⟩ := invmChecks_iff.1 h
  simp only [runInvm, hn, hsrc, hdst, if_neg hsize, if_pos hregions, hnone]

theorem runInvm_of_inverse (h : InvmChecks s.params.memSize n src dst) {b : Rows}
    (hb : gaussJordan (matRead s.mem src n) n = some b) :
    runInvm s = .wrote (matrixWrites dst n n (entry b)) := by
  obtain ⟨hsize, hregions⟩ := invmChecks_iff.1 h
  simp only [runInvm, hn, hsrc, hdst, if_neg hsize, if_pos hregions, hb]

end Invm

/-- Settles O23: the checks, then what GaussJordan says of the matrix at SRC. -/
theorem invmCompletes : Obligations.InvmCompletes := by
  intro s ht hwf n src dst
  refine ⟨fun herror => exec_raise ht nofun (runInvm_of_not_checks rfl rfl rfl ?_), fun hn hmax hsrc hdst => ?_⟩
  · rintro ⟨hn, hmax, hsrc, hdst⟩
    rcases herror with h | h | h | h
    · exact Nat.ne_of_gt hn h
    · exact not_lt.2 hmax h
    · exact not_lt.2 hsrc h
    · exact not_lt.2 hdst h
  · have hchecks : InvmChecks s.params.memSize n src dst := ⟨hn, hmax, hsrc, hdst⟩
    exact ⟨fun hnone => exec_raise ht nofun (runInvm_of_singular rfl rfl rfl hchecks hnone),
      fun b hb ha => exec_of_matrixWrites ht hwf ha (runInvm_of_inverse rfl rfl rfl hchecks hb)⟩

end Sys2Proof.Machine

namespace Sys2Proof.Machine

/-! ### Writes that give each address one byte -/

/-- No address is written twice with different bytes, so the order of the writes does not matter. -/
def OneBytePerAddress (ws : List (Nat × Byte)) : Prop := ∀ w ∈ ws, ∀ v ∈ ws, w.1 = v.1 → w = v

theorem Memory.read_apply_of_mem {m : Memory} (hwf : m.wf = true) {ws : List (Nat × Byte)} (h : OneBytePerAddress ws)
    {a : Nat} {b : Byte} (hmem : (a, b) ∈ ws) : (Memory.apply m ws).read a = b :=
  Memory.read_apply_same hwf hmem fun w hw hwa => congrArg Prod.snd (h w hw (a, b) hmem hwa)

theorem Memory.apply_perm {m : Memory} (hwf : m.wf = true) {ws vs : List (Nat × Byte)} (h : OneBytePerAddress ws)
    (hperm : ws.Perm vs) : Memory.apply m ws = Memory.apply m vs := by
  have hvs : OneBytePerAddress vs := fun w hw v hv => h w (hperm.mem_iff.2 hw) v (hperm.mem_iff.2 hv)
  refine Memory.eq_of_read (Memory.wf_apply hwf ws) (Memory.wf_apply hwf vs) fun a => ?_
  by_cases ha : ∃ b, (a, b) ∈ ws
  · obtain ⟨b, hb⟩ := ha
    rw [Memory.read_apply_of_mem hwf h hb, Memory.read_apply_of_mem hwf hvs (hperm.mem_iff.1 hb)]
  · have hother : ∀ w ∈ ws, w.1 ≠ a := fun w hw hwa => ha ⟨w.2, by rw [← hwa]; exact hw⟩
    rw [Memory.read_apply_other m hother, Memory.read_apply_other m fun w hw => hother w (hperm.mem_iff.2 hw)]

/-! ### Blocks written to MEM (42_coding.md R145, R152) -/

/-- The blocks of different indices share no byte. -/
def BlocksDisjoint (base : Nat → Nat) (len : Nat) (is : List Nat) : Prop :=
  ∀ i ∈ is, ∀ j ∈ is, i ≠ j → (⟨base i, len⟩ : Region).overlaps ⟨base j, len⟩ = false

theorem Region.not_contains_of_not_overlaps {r q : Region} (h : r.overlaps q = false) {a : Nat}
    (hr : r.contains a = true) : q.contains a = false := by
  by_contra hq
  rw [(Region.overlaps_iff r q).2 ⟨a, hr, by simpa using hq⟩] at h
  cases h

theorem BlocksDisjoint.eq_of_offsets {base : Nat → Nat} {len : Nat} {is : List Nat} (h : BlocksDisjoint base len is)
    {i j o q : Nat} (hi : i ∈ is) (hj : j ∈ is) (ho : o < len) (hq : q < len) (heq : base i + o = base j + q) :
    i = j := by
  by_contra hne
  have hout := Region.not_contains_of_not_overlaps (h i hi j hj hne) (a := base i + o) (by simp [Region.contains, ho])
  simp [heq, Region.contains, hq] at hout

theorem mem_flatMap_blockWrites {is : List Nat} {base : Nat → Nat} {len : Nat} {byte : Nat → Nat → Byte}
    {w : Nat × Byte} : w ∈ (is.flatMap fun i => blockWrites (base i) len (byte i)) ↔
      ∃ i ∈ is, ∃ o < len, w = (base i + o, byte i o) := by
  simp only [List.mem_flatMap, mem_blockWrites]

theorem BlocksDisjoint.oneBytePerAddress {base : Nat → Nat} {len : Nat} {is : List Nat}
    (h : BlocksDisjoint base len is) (byte : Nat → Nat → Byte) :
    OneBytePerAddress (is.flatMap fun i => blockWrites (base i) len (byte i)) := by
  intro w hw v hv haddr
  obtain ⟨i, hi, o, ho, rfl⟩ := mem_flatMap_blockWrites.1 hw
  obtain ⟨j, hj, q, hq, rfl⟩ := mem_flatMap_blockWrites.1 hv
  obtain rfl := h.eq_of_offsets hi hj ho hq haddr
  obtain rfl := Nat.add_left_cancel haddr
  rfl

/-- What exec of a command that succeeds with disjoint blocks leaves: the bytes of each block, and every other byte as
it was. -/
theorem exec_of_blockWrites {i : Instr} {s : State} {is : List Nat} {base : Nat → Nat} {len : Nat}
    {byte : Nat → Nat → Byte} (ht : s.taint = .none) (hwf : s.mem.wf = true) (ha : s.fp.aliases = false)
    (h : runOf i s = .wrote (is.flatMap fun e => blockWrites (base e) len (byte e)))
    (hdisjoint : BlocksDisjoint base len is) :
    ∃ m : Memory, exec i s = .next (s.completed .success m s.res) ∧ m.wf = true ∧
      (∀ e ∈ is, ∀ o < len, m.read (base e + o) = byte e o) ∧
      ∀ a, (∀ e ∈ is, a < base e ∨ base e + len ≤ a) → m.read a = s.mem.read a := by
  refine ⟨_, by rw [exec_success ht ha, h]; rfl, Memory.wf_apply hwf _, fun e he o ho => ?block,
    fun a hout => Memory.read_apply_other _ fun w hw hwa => ?other⟩
  case block =>
    exact Memory.read_apply_of_mem hwf (hdisjoint.oneBytePerAddress byte)
      (mem_flatMap_blockWrites.2 ⟨e, he, o, ho, rfl⟩)
  case other =>
    obtain ⟨e, he, hin⟩ := mem_flatMap_blockWrites_addresses.1 (List.mem_map_of_mem (f := Prod.fst) hw)
    have := hout e he
    omega

/-! ### What a footprint without aliasing keeps apart (20_memory.md R66) -/

theorem pairwise_of_not_regionsOverlap {rs : List Region} (h : regionsOverlap rs = false) :
    rs.Pairwise fun r q => r.overlaps q = false := by
  induction rs with
  | nil => exact .nil
  | cons r rs ih =>
    simp only [regionsOverlap, Bool.or_eq_false_iff, List.any_eq_false, Bool.not_eq_true] at h
    exact .cons h.1 (ih h.2)

theorem Region.overlaps_comm (r q : Region) : r.overlaps q = q.overlaps r := by
  simp only [Region.overlaps, Nat.max_comm, Nat.min_comm]

theorem Footprint.not_inWrite_of_inReadSet {fp : Footprint} (h : fp.aliases = false) {a : Nat}
    (ha : fp.inReadSet a = true) : fp.inWrite a = false := by
  simp only [Footprint.aliases, Bool.or_eq_false_iff, List.any_eq_false, Bool.not_eq_true] at h
  simp only [Footprint.inReadSet, regionsContain, Bool.or_eq_true, List.any_eq_true] at ha
  simp only [Footprint.inWrite, regionsContain, List.any_eq_false, Bool.not_eq_true]
  intro w hw
  obtain ⟨hctrl, hread⟩ := h.1 w hw
  rcases ha with ⟨r, hr, hra⟩ | ⟨r, hr, hra⟩
  · exact Region.not_contains_of_not_overlaps (by rw [Region.overlaps_comm]; exact hctrl r hr) hra
  · exact Region.not_contains_of_not_overlaps (by rw [Region.overlaps_comm]; exact hread r hr) hra

/-- Descriptors that pass their check give each index its block (42_coding.md R144). -/
theorem blockRegions_of_descriptorsOk {memSize cw n len : Nat} {m : Memory} {is : List Nat}
    (h : descriptorsOk memSize m cw n len = true) (his : ∀ i ∈ is, i < n) :
    blockRegions memSize m cw n len is = is.map fun i => ⟨descAddr m cw i, len⟩ := by
  have htable : inRange memSize cw (Config.descSize * n) = true := by
    rw [descriptorsOk, Bool.and_eq_true] at h
    exact h.1
  rw [blockRegions, if_pos htable, List.filter_eq_self.2 (by simpa using his), List.map_eq_flatMap]
  exact List.flatMap_congr fun i hi => if_pos (inRange_of_descriptorsOk h (his i hi))

theorem blocksDisjoint_of_not_regionsOverlap {memSize cw n len : Nat} {m : Memory} {is : List Nat}
    (h : descriptorsOk memSize m cw n len = true) (his : ∀ i ∈ is, i < n)
    (hoverlap : regionsOverlap (blockRegions memSize m cw n len is) = false) :
    BlocksDisjoint (descAddr m cw) len is := by
  rw [blockRegions_of_descriptorsOk h his] at hoverlap
  have hpairwise := List.pairwise_map.1 (pairwise_of_not_regionsOverlap hoverlap)
  have hsymm : Std.Symm fun i j => (⟨descAddr m cw i, len⟩ : Region).overlaps ⟨descAddr m cw j, len⟩ = false :=
    ⟨fun _ _ hij => (Region.overlaps_comm _ _).trans hij⟩
  exact fun i hi j hj hij => hpairwise.forall hi hj hij

end Sys2Proof.Machine

namespace Sys2Proof.Machine

/-! ### Table entries (42_coding.md R140, R142, R143) -/

/-- Byte o of the 32-byte table entry of coefficient c. -/
def entryByte (c : Byte) (o : Nat) : Byte :=
  if o < 16 then gmul c (BitVec.ofNat 8 o) else gmul c (BitVec.ofNat 8 (16 * (o - 16)))

theorem entryByte_low (c : Byte) {n : Nat} (h : n < 16) : entryByte c n = gmul c (BitVec.ofNat 8 n) := if_pos h

theorem entryByte_high (c : Byte) (n : Nat) : entryByte c (16 + n) = gmul c (BitVec.ofNat 8 (16 * n)) := by
  rw [entryByte, if_neg (by omega), Nat.add_sub_cancel_left]

theorem ofNat_shiftLeft_four (n : Nat) : BitVec.ofNat 8 n <<< 4 = BitVec.ofNat 8 (16 * n) := by
  rw [BitVec.shiftLeft_eq_mul_twoPow, Nat.mul_comm, BitVec.ofNat_mul]
  rfl

/-- The 32 bytes at base are the entry of coefficient c. -/
def EntryHolds (m : Memory) (base : Nat) (c : Byte) : Prop := ∀ o < 32, m.read (base + o) = entryByte c o

theorem mem_entryWrites_iff_entryByte {base : Nat} {c : Byte} {w : Nat × Byte} :
    w ∈ entryWrites base c ↔ ∃ o < 32, w = (base + o, entryByte c o) := by
  simp only [mem_entryWrites, ofNat_shiftLeft_four]
  constructor
  · rintro ⟨n, hn, rfl | rfl⟩
    · exact ⟨n, by omega, by rw [entryByte_low c hn]⟩
    · exact ⟨16 + n, by omega, by rw [entryByte_high, Nat.add_assoc]⟩
  · rintro ⟨o, ho, rfl⟩
    by_cases hlow : o < 16
    · exact ⟨o, hlow, .inl (by rw [entryByte_low c hlow])⟩
    · obtain ⟨n, rfl⟩ := Nat.exists_eq_add_of_le (not_lt.1 hlow)
      exact ⟨n, by omega, .inr (by rw [entryByte_high, Nat.add_assoc])⟩

theorem entryHolds_apply_entryWrites {m : Memory} (hwf : m.wf = true) (base : Nat) (c : Byte) :
    EntryHolds (Memory.apply m (entryWrites base c)) base c := by
  intro o ho
  refine Memory.read_apply_same hwf (mem_entryWrites_iff_entryByte.2 ⟨o, ho, rfl⟩) fun w hw haddr => ?_
  obtain ⟨q, -, rfl⟩ := mem_entryWrites_iff_entryByte.1 hw
  rw [Nat.add_left_cancel haddr]

/-- A byte is the XOR of its low half and its high half. -/
theorem ofNat_nibbles : ∀ d : Byte,
    BitVec.ofNat 8 (d.extractLsb' 0 4).toNat ^^^ BitVec.ofNat 8 (16 * (d.extractLsb' 4 4).toNat) = d := by
  decide

theorem tableLookup_of_entryHolds {m : Memory} {tbl e : Nat} {c : Byte} (h : EntryHolds m (entryAddr tbl e) c)
    (d : Byte) : tableLookup m tbl e d = gmul c d := by
  have hlow : (d.extractLsb' 0 4).toNat < 16 := BitVec.isLt _
  have hhigh : (d.extractLsb' 4 4).toNat < 16 := BitVec.isLt _
  calc tableLookup m tbl e d
      = entryByte c (d.extractLsb' 0 4).toNat ^^^ entryByte c (16 + (d.extractLsb' 4 4).toNat) := by
        rw [tableLookup, Nat.add_assoc, h _ (by omega), h _ (by omega)]
    _ = gmul c (BitVec.ofNat 8 (d.extractLsb' 0 4).toNat ^^^ BitVec.ofNat 8 (16 * (d.extractLsb' 4 4).toNat)) := by
        rw [entryByte_low c hlow, entryByte_high, gmul_xor_right]
    _ = gmul c d := by rw [ofNat_nibbles]

/-- Settles O27: the two halves of d pick c times each half, and gmul is additive. -/
theorem tableLookupIsMultiplication : Obligations.TableLookupIsMultiplication := by
  intro m m' tbl e c hwf hsame d
  have hentry : EntryHolds m' (entryAddr tbl e) c := fun o ho =>
    (hsame o ho).trans (entryHolds_apply_entryWrites hwf _ c o ho)
  exact tableLookup_of_entryHolds hentry d

/-! ### TBLS (42_coding.md R141) -/

theorem tableSetHolds_iff {m : Memory} {tbl k p : Nat} {coef : Nat → Nat → Byte} :
    tableSetHolds m tbl k p coef ↔ ∀ j < p, ∀ i < k, EntryHolds m (entryAddr tbl (j * k + i)) (coef j i) := by
  refine forall₂_congr fun j _ => forall₂_congr fun i _ => ⟨fun h o ho => ?_, fun h n hn => ⟨?low, ?high⟩⟩
  · by_cases hlow : o < 16
    · exact (h o hlow).1.trans (entryByte_low _ hlow).symm
    · obtain ⟨n, rfl⟩ := Nat.exists_eq_add_of_le (not_lt.1 hlow)
      rw [entryByte_high, ← Nat.add_assoc]
      exact (h n (by omega)).2
  case low => exact (h n (by omega)).trans (entryByte_low _ hn)
  case high =>
    rw [← entryByte_high, Nat.add_assoc]
    exact h (16 + n) (by omega)

theorem mem_tableWrites {m : Memory} {k p mat tbl : Nat} {w : Nat × Byte} :
    w ∈ tableWrites m k p mat tbl ↔ ∃ j < p, ∃ i < k, ∃ o < 32,
      w = (entryAddr tbl (j * k + i) + o, entryByte (matRead m mat k (k + j) i) o) := by
  simp only [tableWrites, List.mem_flatMap, List.mem_range, mem_entryWrites_iff_entryByte]

theorem entryAddr_offset_inj {tbl e e' o o' : Nat} (ho : o < 32) (ho' : o' < 32)
    (h : entryAddr tbl e + o = entryAddr tbl e' + o') : e = e' ∧ o = o' := by
  simp only [entryAddr, Config.tblEntry] at h
  omega

theorem tableWrites_oneBytePerAddress (m : Memory) (k p mat tbl : Nat) :
    OneBytePerAddress (tableWrites m k p mat tbl) := by
  intro w hw v hv haddr
  obtain ⟨j, -, i, hi, o, ho, rfl⟩ := mem_tableWrites.1 hw
  obtain ⟨j', -, i', hi', o', ho', rfl⟩ := mem_tableWrites.1 hv
  obtain ⟨hentry, rfl⟩ := entryAddr_offset_inj ho ho' haddr
  obtain ⟨rfl, rfl⟩ := rowMajor_inj hi hi' hentry
  rfl

theorem tableSetHolds_apply_tableWrites {m : Memory} (hwf : m.wf = true) (k p mat tbl : Nat) :
    tableSetHolds (Memory.apply m (tableWrites m k p mat tbl)) tbl k p fun j i => matRead m mat k (k + j) i :=
  tableSetHolds_iff.2 fun j hj i hi o ho => Memory.read_apply_of_mem hwf (tableWrites_oneBytePerAddress m k p mat tbl)
    (mem_tableWrites.2 ⟨j, hj, i, hi, o, ho, rfl⟩)

theorem tableSetSize_eq_zero_iff {k p : Nat} (hk : 1 ≤ k) : Config.tblEntry * k * p = 0 ↔ p = 0 := by
  rw [Nat.mul_eq_zero, or_iff_right (Nat.mul_ne_zero (by decide) (by omega))]

/-- The checks of TBLS: with K above 0 its two regions have size 0 exactly when P = 0. -/
theorem tblsChecks_iff {memSize k p mat tbl : Nat} :
    (validKP k p && inRange memSize (mat + k * k) (p * k) && inRange memSize tbl (Config.tblEntry * k * p)) = true ↔
      1 ≤ k ∧ k + p ≤ 256 ∧ (p = 0 ∨ (mat + k * k + p * k ≤ memSize ∧ tbl + 32 * k * p ≤ memSize)) := by
  rw [Bool.and_eq_true, Bool.and_eq_true, validKP_iff, and_assoc, and_assoc]
  refine and_congr_right fun hk => and_congr_right fun _ => ?_
  have hrows : p * k = 0 ↔ p = 0 := by rw [Nat.mul_eq_zero, or_iff_left (by omega)]
  rw [inRange_iff, inRange_iff, hrows, tableSetSize_eq_zero_iff hk, or_and_left]

/-- Settles O26, from the checks of TBLS and the entries of its table set, which share no address. -/
theorem tblsCompletes : Obligations.TblsCompletes := by
  intro s ht hwf k p mat tbl fits
  refine ⟨fun hk hkp hfits ha => ?tables, fun herror => exec_raise ht nofun (if_neg fun hchecks => ?_)⟩
  case tables =>
    have hrun : runOf .tbls s = .wrote (tableWrites s.mem k p mat tbl) := if_pos (tblsChecks_iff.2 ⟨hk, hkp, hfits⟩)
    refine ⟨_, by rw [exec_success ht ha, hrun]; rfl, Memory.wf_apply hwf _,
      tableSetHolds_apply_tableWrites hwf k p mat tbl, fun a hout => Memory.read_apply_other _ fun w hw hwa => ?_⟩
    have hin := mem_tableWrites_addresses.1 (List.mem_map_of_mem (f := Prod.fst) hw)
    simp only [Config.tblEntry] at hin
    omega
  · obtain ⟨hk, hkp, hfits⟩ := tblsChecks_iff.1 hchecks
    rcases herror with h | h | h
    · exact Nat.ne_of_gt hk h
    · exact not_lt.2 hkp h
    · exact h hfits

end Sys2Proof.Machine

namespace Sys2Proof.Machine

/-! ### ENC (42_coding.md R144, R145) -/

/-- CheckDescriptors with its exact bounds, for a table of at least one descriptor. -/
def DescriptorsFit (memSize : Nat) (m : Memory) (cw n len : Nat) : Prop :=
  cw + 8 * n ≤ memSize ∧ ∀ i < n, descLen m cw i = len ∧ (len = 0 ∨ descAddr m cw i + len ≤ memSize)

theorem descriptorsOk_iff {memSize cw n len : Nat} {m : Memory} (hn : 0 < n) :
    descriptorsOk memSize m cw n len = true ↔ DescriptorsFit memSize m cw n len := by
  rw [descriptorsOk, Bool.and_eq_true, inRange_iff_of_pos (Nat.mul_pos (by decide) hn)]
  simp only [DescriptorsFit, List.all_eq_true, List.mem_range, Bool.and_eq_true, beq_iff_eq, inRange_iff,
    Config.descSize]

/-- The checks of ENC, with the exact bounds of its regions. -/
def EncChecks (memSize : Nat) (m : Memory) (len k p tbl cw : Nat) : Prop :=
  1 ≤ k ∧ k + p ≤ 256 ∧ (p = 0 ∨ tbl + 32 * k * p ≤ memSize) ∧ DescriptorsFit memSize m cw (k + p) len

theorem encChecks_iff {memSize len k p tbl cw : Nat} {m : Memory} :
    (validKP k p && inRange memSize tbl (Config.tblEntry * k * p) && descriptorsOk memSize m cw (k + p) len) = true ↔
      EncChecks memSize m len k p tbl cw := by
  rw [Bool.and_eq_true, Bool.and_eq_true, validKP_iff, and_assoc, and_assoc]
  refine and_congr_right fun hk => and_congr_right fun _ => ?_
  rw [inRange_iff, tableSetSize_eq_zero_iff hk, descriptorsOk_iff (by omega)]

theorem EncChecks.descriptorsOk {memSize len k p tbl cw : Nat} {m : Memory} (h : EncChecks memSize m len k p tbl cw) :
    descriptorsOk memSize m cw (k + p) len = true := by
  have h := encChecks_iff.2 h
  rw [Bool.and_eq_true] at h
  exact h.2

section Enc

variable {s : State} {len k p tbl cw : Nat} (hlen : argNat s.snap.args 0 = len) (hk : argNat s.snap.args 1 = k)
  (hp : argNat s.snap.args 2 = p) (htbl : argNat s.snap.args 3 = tbl) (hcw : argNat s.snap.args 4 = cw)

include hlen hk hp htbl hcw

theorem runEnc_of_not_checks (h : ¬EncChecks s.params.memSize s.mem len k p tbl cw) :
    runEnc s = .raise .invalidParameters := by
  simp only [runEnc, hlen, hk, hp, htbl, hcw]
  exact if_neg (mt encChecks_iff.1 h)

/-- The coding blocks by their own indices K .. K+P-1. -/
theorem runEnc_of_checks (h : EncChecks s.params.memSize s.mem len k p tbl cw) :
    runEnc s = .wrote ((List.range' k p).flatMap fun i =>
      blockWrites (descAddr s.mem cw i) len (encodeByte s.mem k tbl cw (i - k))) := by
  simp only [runEnc, hlen, hk, hp, htbl, hcw, List.range'_eq_map_range, List.flatMap_map, Nat.add_sub_cancel_left]
  exact if_pos (encChecks_iff.2 h)

/-- The coding blocks are the write regions of an ENC, so they are disjoint when it does not alias
(20_memory.md R66). -/
theorem codingBlocks_disjoint (h : EncChecks s.params.memSize s.mem len k p tbl cw)
    (hfp : s.fp = footprintOf .enc s.params.memSize s.mem s.snap.args) (ha : s.fp.aliases = false) :
    BlocksDisjoint (descAddr s.mem cw) len (List.range' k p) := by
  have hdescs := h.descriptorsOk
  obtain ⟨-, hkp, -, -⟩ := h
  refine blocksDisjoint_of_not_regionsOverlap hdescs lt_of_mem_codingIndices ?_
  rw [hfp, footprintOf, hlen, hk, hp, htbl, hcw, footprintEnc_eq s.mem hkp] at ha
  exact (Bool.or_eq_false_iff.1 ha).2

/-- The data blocks are read regions of an ENC, so it leaves them when it does not alias (20_memory.md R66). -/
theorem dataBlock_not_inWrite (h : EncChecks s.params.memSize s.mem len k p tbl cw)
    (hfp : s.fp = footprintOf .enc s.params.memSize s.mem s.snap.args) (ha : s.fp.aliases = false) {i o : Nat}
    (hi : i < k) (ho : o < len) : s.fp.inWrite (descAddr s.mem cw i + o) = false := by
  have hdescs := h.descriptorsOk
  obtain ⟨-, hkp, -, -⟩ := h
  refine Footprint.not_inWrite_of_inReadSet ha ?_
  rw [hfp, footprintOf, hlen, hk, hp, htbl, hcw]
  refine (footprintEnc_inReadSet hkp _).2 (.inr (.inr ?_))
  rw [inBlocks_of_descriptorsOk (by omega) hdescs fun j hj => (List.mem_range.1 hj).trans_le (Nat.le_add_right k p)]
  exact ⟨i, List.mem_range.2 hi, by omega, by omega⟩

theorem exec_enc_of_not_checks (ht : s.taint = .none) (h : ¬EncChecks s.params.memSize s.mem len k p tbl cw) :
    exec .enc s = .next (s.completed .invalidParameters s.mem s.res) :=
  exec_raise ht nofun (runEnc_of_not_checks hlen hk hp htbl hcw h)

theorem exec_enc_of_checks (ht : s.taint = .none) (hwf : s.mem.wf = true)
    (h : EncChecks s.params.memSize s.mem len k p tbl cw)
    (hfp : s.fp = footprintOf .enc s.params.memSize s.mem s.snap.args) (ha : s.fp.aliases = false) :
    ∃ m : Memory, exec .enc s = .next (s.completed .success m s.res) ∧ m.wf = true ∧
      (∀ j < p, ∀ o < len, m.read (descAddr s.mem cw (k + j) + o) = encodeByte s.mem k tbl cw j o) ∧
      ∀ a, (∀ j < p, a < descAddr s.mem cw (k + j) ∨ descAddr s.mem cw (k + j) + len ≤ a) →
        m.read a = s.mem.read a := by
  have hrun : runOf .enc s = _ := runEnc_of_checks hlen hk hp htbl hcw h
  obtain ⟨m, hexec, hm, hblocks, hother⟩ :=
    exec_of_blockWrites ht hwf ha hrun (codingBlocks_disjoint hlen hk hp htbl hcw h hfp ha)
  refine ⟨m, hexec, hm, fun j hj o ho => ?_, fun a hout => hother a fun i hi => ?_⟩
  · rw [hblocks (k + j) (List.mem_range'_1.2 (by omega)) o ho, Nat.add_sub_cancel_left]
  · obtain ⟨hle, hlt⟩ := List.mem_range'_1.1 hi
    obtain ⟨j, rfl⟩ := Nat.exists_eq_add_of_le hle
    exact hout j (by omega)

end Enc

/-- Settles O28, from the checks of ENC and its writes, block by block. -/
theorem encCompletes : Obligations.EncCompletes := by
  intro s ht hwf len k p tbl cw addr ok
  exact ⟨exec_enc_of_checks rfl rfl rfl rfl rfl ht hwf, exec_enc_of_not_checks rfl rfl rfl rfl rfl ht⟩

/-! ### The encoder law (42_coding.md R146) -/

/-- An ENC that answers code 0 without a race passed its checks. -/
theorem encChecks_of_success {s t : State} (ht : s.taint = .none) (hexec : exec .enc s = .next t)
    (hsuccess : t.err = .success) :
    EncChecks s.params.memSize s.mem (argNat s.snap.args 0) (argNat s.snap.args 1) (argNat s.snap.args 2)
      (argNat s.snap.args 3) (argNat s.snap.args 4) := by
  by_contra herror
  cases hexec.symm.trans (exec_enc_of_not_checks rfl rfl rfl rfl rfl ht herror)
  cases hsuccess

/-- Settles O29: the lookups are multiplications by the coefficients, and a command leaves what it does not write. -/
theorem encoderComputesTheMatrixProduct : Obligations.EncoderComputesTheMatrixProduct := by
  intro s t coef ht hwf len k p tbl cw hfp ha htables hexec hsuccess
  have hchecks := encChecks_of_success ht hexec hsuccess
  refine ⟨fun j hj o ho => ?coding, fun i hi o ho => ?data⟩
  case coding =>
    obtain ⟨m, hexec', -, hcoding, -⟩ := exec_enc_of_checks rfl rfl rfl rfl rfl ht hwf hchecks hfp ha
    cases hexec.symm.trans hexec'
    refine (hcoding j hj o ho).trans (xorSum_congr fun i hi => ?_)
    exact tableLookup_of_entryHolds (tableSetHolds_iff.1 htables j hj i hi) _
  case data =>
    exact (aliasingNeverChangesTheCode .enc s t ht hfp hexec).2.2 _
      (dataBlock_not_inWrite rfl rfl rfl rfl rfl hchecks hfp ha hi ho)

end Sys2Proof.Machine

namespace Sys2Proof.Machine

/-! ### Survivors (42_coding.md R149, R154) -/

/-- The indices below n that are not erased, ascending: the survivors are its first K. -/
def unerased (n : Nat) (erased : List Nat) : List Nat := (List.range n).filter fun i => !erased.contains i

theorem survivors_eq_take (n k : Nat) (erased : List Nat) : survivors n k erased = (unerased n erased).take k := rfl

theorem mem_unerased {n i : Nat} {erased : List Nat} : i ∈ unerased n erased ↔ i < n ∧ i ∉ erased := by
  simp [unerased]

theorem unerased_pairwise (n : Nat) (erased : List Nat) : (unerased n erased).Pairwise (· < ·) :=
  List.pairwise_lt_range.filter _

/-- Erased indices below n and indices left make up all n. -/
theorem le_length_unerased (n : Nat) (erased : List Nat) : n ≤ (unerased n erased).length + erased.length := by
  have herased : ((List.range n).filter erased.contains).length ≤ erased.length :=
    (List.subperm_of_subset (List.nodup_range.filter _) fun i hi => by simpa using (List.mem_filter.1 hi).2).length_le
  have hsplit := List.length_eq_length_filter_add (l := List.range n) erased.contains
  rw [List.length_range] at hsplit
  rw [unerased]
  omega

theorem length_survivors {n k : Nat} {erased : List Nat} (h : k + erased.length ≤ n) :
    (survivors n k erased).length = k := by
  have := le_length_unerased n erased
  rw [survivors_eq_take, List.length_take]
  omega

theorem not_erased_of_mem_survivors {n k i : Nat} {erased : List Nat} (h : i ∈ survivors n k erased) : i ∉ erased :=
  (mem_unerased.1 (List.mem_of_mem_take h)).2

/-- Settles O32: an index left that is not among the first K is one of the later ones. -/
theorem survivorsAreTheSmallestUnerased : Obligations.SurvivorsAreTheSmallestUnerased := by
  intro n k erased _ _ hlen
  have hsorted := unerased_pairwise n erased
  refine ⟨length_survivors hlen, hsorted.sublist (List.take_sublist _ _),
    fun i hi => ⟨lt_of_mem_survivors hi, not_erased_of_mem_survivors hi⟩, fun i hi hie his j hj => ?_⟩
  have hmem : i ∈ (unerased n erased).take k ++ (unerased n erased).drop k := by
    rw [List.take_append_drop]
    exact mem_unerased.2 ⟨hi, hie⟩
  have hlater := (List.mem_append.1 hmem).resolve_left his
  rw [← List.take_append_drop k (unerased n erased)] at hsorted
  exact (List.pairwise_append.1 hsorted).2.2 j hj i hlater

theorem survivors_perm {n k : Nat} {es es' : List Nat} (h : es.Perm es') : survivors n k es = survivors n k es' := by
  simp only [survivors, h.contains_eq]

theorem erasuresOk_iff {n : Nat} {es : List Nat} : erasuresOk n es = true ↔ (∀ e ∈ es, e < n) ∧ es.Nodup := by
  simp [erasuresOk]

theorem erasuresOk_perm {n : Nat} {es es' : List Nat} (h : es.Perm es') : erasuresOk n es = erasuresOk n es' := by
  rw [Bool.eq_iff_iff, erasuresOk_iff, erasuresOk_iff, h.nodup_iff]
  simp only [h.mem_iff]

theorem erasureList_length (m : Memory) (eras ecount : Nat) : (erasureList m eras ecount).length = ecount := by
  simp [erasureList]

/-- Settles O33: disjoint blocks may be written in any order. -/
theorem erasureOrderDoesNotMatter : Obligations.ErasureOrderDoesNotMatter := by
  refine ⟨fun n k es es' h => ⟨survivors_perm h, erasuresOk_perm h⟩, ?_⟩
  intro m len mat k p cw inv es es' hwf hperm _ hdisjoint
  have hblocks : BlocksDisjoint (descAddr m cw) len es := hdisjoint
  rw [← survivors_perm hperm]
  exact Memory.apply_perm hwf (hblocks.oneBytePerAddress _) (hperm.flatMap_right _)

/-! ### DEC (42_coding.md R148 to R152, 60_exceptions.md R177) -/

/-- The checks of DEC that answer InvalidParameters after the one of ECOUNT, with their exact bounds. -/
def DecChecks (memSize : Nat) (m : Memory) (len k p mat cw eras ecount : Nat) : Prop :=
  mat + (k + p) * k ≤ memSize ∧ (ecount = 0 ∨ eras + ecount ≤ memSize) ∧
    (∀ e ∈ erasureList m eras ecount, e < k + p) ∧ (erasureList m eras ecount).Nodup ∧
    DescriptorsFit memSize m cw (k + p) len

theorem decChecks_iff {memSize len k p mat cw eras ecount : Nat} {m : Memory} (hk : 1 ≤ k) :
    (inRange memSize mat ((k + p) * k) && inRange memSize eras ecount &&
      erasuresOk (k + p) (erasureList m eras ecount) && descriptorsOk memSize m cw (k + p) len) = true ↔
      DecChecks memSize m len k p mat cw eras ecount := by
  rw [Bool.and_eq_true, Bool.and_eq_true, Bool.and_eq_true, inRange_iff_of_pos (Nat.mul_pos (by omega) hk), inRange_iff,
    erasuresOk_iff, descriptorsOk_iff (by omega)]
  simp only [DecChecks, and_assoc]

/-- The operands of a DEC by their names (30_encoding.md R85). -/
structure DecOperands (s : State) (len k p mat cw eras ecount : Nat) : Prop where
  len : argNat s.snap.args 0 = len
  k : argNat s.snap.args 1 = k
  p : argNat s.snap.args 2 = p
  mat : argNat s.snap.args 3 = mat
  cw : argNat s.snap.args 4 = cw
  eras : argNat s.snap.args 5 = eras
  ecount : argNat s.snap.args 6 = ecount

theorem decOperands_args (s : State) :
    DecOperands s (argNat s.snap.args 0) (argNat s.snap.args 1) (argNat s.snap.args 2) (argNat s.snap.args 3)
      (argNat s.snap.args 4) (argNat s.snap.args 5) (argNat s.snap.args 6) :=
  ⟨rfl, rfl, rfl, rfl, rfl, rfl, rfl⟩

section Dec

variable {s : State} {len k p mat cw eras ecount : Nat} (hops : DecOperands s len k p mat cw eras ecount)

include hops

theorem runDec_of_invalid (h : ¬(1 ≤ k ∧ k + p ≤ 256)) : runDec s = .raise .invalidParameters := by
  have hvalid : validKP k p = false := by rw [← Bool.not_eq_true, validKP_iff]; exact h
  simp only [runDec, hops.k, hops.p, hvalid]
  rfl

theorem runDec_of_loss (hk : 1 ≤ k) (hkp : k + p ≤ 256) (h : p < ecount) :
    runDec s = .raise .unrecoverableLoss := by
  simp only [runDec, hops.k, hops.p, hops.ecount, validKP_iff.2 ⟨hk, hkp⟩, if_pos h]
  rfl

variable (hk : 1 ≤ k) (hkp : k + p ≤ 256)

include hk hkp

/-- The erased blocks are the write regions of a DEC, so they are disjoint when it does not alias
(20_memory.md R66). -/
theorem erasedBlocks_disjoint (h : DecChecks s.params.memSize s.mem len k p mat cw eras ecount)
    (hfp : s.fp = footprintOf .dec s.params.memSize s.mem s.snap.args) (ha : s.fp.aliases = false) :
    BlocksDisjoint (descAddr s.mem cw) len (erasureList s.mem eras ecount) := by
  obtain ⟨-, heras, hlt, -, hdescs⟩ := h
  have hdups : ∀ {e}, e ∈ (erasureList s.mem eras ecount).eraseDups ↔ e ∈ erasureList s.mem eras ecount :=
    List.mem_eraseDups
  rw [hfp, footprintOf, hops.len, hops.k, hops.p, hops.mat, hops.cw, hops.eras, hops.ecount,
    footprintDec_eq hkp ((inRange_iff _ _ _).2 heras)] at ha
  have hdisjoint := blocksDisjoint_of_not_regionsOverlap ((descriptorsOk_iff (by omega)).2 hdescs)
    (fun e he => hlt e (hdups.1 he)) (Bool.or_eq_false_iff.1 ha).2
  exact fun i hi j hj => hdisjoint i (hdups.2 hi) j (hdups.2 hj)

variable (hcount : ecount ≤ p)

include hcount

theorem runDec_of_not_checks (h : ¬DecChecks s.params.memSize s.mem len k p mat cw eras ecount) :
    runDec s = .raise .invalidParameters := by
  simp only [runDec, hops.len, hops.k, hops.p, hops.mat, hops.cw, hops.eras, hops.ecount, validKP_iff.2 ⟨hk, hkp⟩,
    if_neg (not_lt.2 hcount)]
  exact if_neg (mt (decChecks_iff hk).1 h)

variable (h : DecChecks s.params.memSize s.mem len k p mat cw eras ecount)

include h

theorem runDec_of_singular
    (hnone : gaussJordan (submatrix s.mem mat k (survivors (k + p) k (erasureList s.mem eras ecount))) k = none) :
    runDec s = .raise .singularSubmatrix := by
  simp only [runDec, hops.len, hops.k, hops.p, hops.mat, hops.cw, hops.eras, hops.ecount, validKP_iff.2 ⟨hk, hkp⟩,
    if_neg (not_lt.2 hcount), if_pos ((decChecks_iff hk).2 h), hnone]
  rfl

theorem runDec_of_inverse {inv : Rows}
    (hinv : gaussJordan (submatrix s.mem mat k (survivors (k + p) k (erasureList s.mem eras ecount))) k = some inv) :
    runDec s = .wrote (decodeWrites s.mem len mat k cw (survivors (k + p) k (erasureList s.mem eras ecount)) inv
      (erasureList s.mem eras ecount)) := by
  simp only [runDec, hops.len, hops.k, hops.p, hops.mat, hops.cw, hops.eras, hops.ecount, validKP_iff.2 ⟨hk, hkp⟩,
    if_neg (not_lt.2 hcount), if_pos ((decChecks_iff hk).2 h), hinv]
  rfl

end Dec

/-- Settles O30, check by check in the order of R177. -/
theorem decReportsTheFirstFailedCheck : Obligations.DecReportsTheFirstFailedCheck := by
  intro s ht len k p mat cw eras ecount erased checked
  have hops := decOperands_args s
  refine ⟨fun hsizes => exec_raise ht nofun (runDec_of_invalid hops ?_),
    fun hk hkp hloss => exec_raise ht nofun (runDec_of_loss hops hk hkp hloss),
    fun hk hkp hcount hfails => exec_raise ht nofun (runDec_of_not_checks hops hk hkp hcount hfails),
    fun hk hkp hcount hchecks hnone => exec_raise ht nofun (runDec_of_singular hops hk hkp hcount hchecks hnone)⟩
  rintro ⟨hk, hkp⟩
  rcases hsizes with h | h
  · exact Nat.ne_of_gt hk h
  · exact not_lt.2 hkp h

/-- Settles O31, from what DEC writes, block by block. -/
theorem decCompletes : Obligations.DecCompletes := by
  intro s inv ht hwf len k p mat cw erased surv addr row hvalid hcount hmat heras herasures hdescs hinv hfp ha
  obtain ⟨hk, hkp⟩ := validKP_iff.1 hvalid
  have hchecks := (decChecks_iff hk).1 (Bool.and_eq_true_iff.2
    ⟨Bool.and_eq_true_iff.2 ⟨Bool.and_eq_true_iff.2 ⟨hmat, heras⟩, herasures⟩, hdescs⟩)
  have hops := decOperands_args s
  exact exec_of_blockWrites (i := .dec) ht hwf ha (runDec_of_inverse hops hk hkp hcount hchecks hinv)
    (erasedBlocks_disjoint hops hk hkp hchecks hfp ha)

/-! ### The round trip (42_coding.md R153) -/

theorem xorSum_comm (f : Nat → Nat → Byte) (m n : Nat) :
    xorSum (fun i => xorSum (fun j => f i j) n) m = xorSum (fun j => xorSum (fun i => f i j) m) n := by
  induction m with
  | zero => exact (xorSum_const_zero n).symm
  | succ m ih => simp only [xorSum_succ, ih, xorSum_xor]

theorem xorSum_gmul (f : Nat → Byte) (n : Nat) (t : Byte) : gmul (xorSum f n) t = xorSum (fun i => gmul (f i) t) n := by
  rw [gmul_comm, gmul_xorSum]
  exact xorSum_congr fun i _ => gmul_comm t (f i)

/-- (A·B)·v = A·(B·v). -/
theorem mulVec_mulVec (a b : Nat → Nat → Byte) (n : Nat) (v : Nat → Byte) (r : Nat) :
    mulVec (fun r c => mulVec a n (fun t => b t c) r) n v r = mulVec a n (mulVec b n v) r := by
  simp only [mulVec, xorSum_gmul, gmul_xorSum, gmul_assoc]
  exact xorSum_comm _ n n

/-- Survivors that hold A·data give back row e of the matrix times the data: inv·(A·data) is the data, and the row of e
times it is row e of the matrix times the data, for e < K by the identity on top. -/
theorem mulVec_decodeRow {m : Memory} {mat k e : Nat} {surv : List Nat} {inv : Rows} {data kept : Nat → Byte}
    (htop : ∀ i < k, ∀ j < k, matRead m mat k i j = if i = j then 1 else 0)
    (hinv : gaussJordan (submatrix m mat k surv) k = some inv)
    (hkept : ∀ r < k, kept r = mulVec (submatrix m mat k surv) k data r) :
    mulVec (decodeRow m mat k inv) k kept e = mulVec (matRead m mat k) k data e := by
  have hdata : ∀ r < k, mulVec (entry inv) k kept r = data r :=
    fun r hr => ((inverts_of_gaussJordan hinv data kept).1 hkept r hr).symm
  by_cases he : e < k
  · calc mulVec (decodeRow m mat k inv) k kept e
        = mulVec (entry inv) k kept e := mulVec_congr (fun _ _ => if_pos he) fun _ _ => rfl
      _ = data e := hdata e he
      _ = mulVec (matRead m mat k) k data e := (mulVec_of_unit_row he (htop e he) data).symm
  · calc mulVec (decodeRow m mat k inv) k kept e
        = mulVec (fun r c => mulVec (matRead m mat k) k (fun t => entry inv t c) r) k kept e :=
          mulVec_congr (fun _ _ => if_neg he) fun _ _ => rfl
      _ = mulVec (matRead m mat k) k (mulVec (entry inv) k kept) e := mulVec_mulVec _ _ _ _ _
      _ = mulVec (matRead m mat k) k data e := mulVec_congr (fun _ _ => rfl) hdata

/-- Each of the K survivors is an unerased index, when at most P of the K + P indices are erased (42_coding.md R149). -/
theorem getD_survivors {k p r : Nat} {erased : List Nat} (hlen : erased.length ≤ p) (hr : r < k) :
    (survivors (k + p) k erased).getD r 0 < k + p ∧ (survivors (k + p) k erased).getD r 0 ∉ erased := by
  have hlength : (survivors (k + p) k erased).length = k := length_survivors (by omega)
  have hmem : (survivors (k + p) k erased).getD r 0 ∈ survivors (k + p) k erased := by
    rw [List.getD_eq_getElem _ _ (hlength.symm ▸ hr)]
    exact List.getElem_mem _
  exact ⟨lt_of_mem_survivors hmem, not_erased_of_mem_survivors hmem⟩

/-- Settles O34: every block is its matrix row times the data, and the decoding rows take the survivors to the lost
blocks. -/
theorem recoveryRestoresErasedBlocks : Obligations.RecoveryRestoresErasedBlocks := by
  intro s word ht hwf len k p mat cw erased hvalid hcount hmat heras herasures hdescs hfp ha htop hcoding hholds hregular
  obtain ⟨inv, hinv⟩ := Option.ne_none_iff_exists'.1 hregular
  obtain ⟨m, hexec, -, hdecoded, -⟩ :=
    decCompletes s inv ht hwf hvalid hcount hmat heras herasures hdescs hinv hfp ha
  have hrow : ∀ i < k + p, ∀ o < len, word i o = mulVec (matRead s.mem mat k) k (fun c => word c o) i := by
    intro i hi o ho
    by_cases hik : i < k
    · exact (mulVec_of_unit_row hik (htop i hik) fun c => word c o).symm
    · exact hcoding i hi (not_lt.1 hik) o ho
  have hlength : erased.length ≤ p := by
    rw [erasureList_length]
    exact hcount
  refine ⟨_, hexec, rfl, fun e he o ho => (hdecoded e he o ho).trans ?_⟩
  have hkept : ∀ r < k, s.mem.read (descAddr s.mem cw ((survivors (k + p) k erased).getD r 0) + o) =
      mulVec (submatrix s.mem mat k (survivors (k + p) k erased)) k (fun c => word c o) r := by
    intro r hr
    obtain ⟨hlt, hunerased⟩ := getD_survivors hlength hr
    exact (hholds _ hlt hunerased o ho).trans (hrow _ hlt o ho)
  exact (mulVec_decodeRow htop hinv hkept).trans (hrow e (lt_of_erasuresOk herasures he) o ho).symm

end Sys2Proof.Machine

namespace Sys2Proof.Machine

/-! ### Exec rests on the bytes of the read set (60_exceptions.md R181) -/

/-- Agreeing on the read set is agreeing on FP.C and on FP.R (20_memory.md R59). -/
theorem memAgree_inReadSet {fp : Footprint} {m m' : Memory} :
    memAgree fp.inReadSet m m' ↔ memAgree (regionsContain fp.ctrl) m m' ∧ memAgree (regionsContain fp.read) m m' := by
  simp [memAgree, Footprint.inReadSet, or_imp, forall_and]

/-- A matrix that lies in a region the memories agree on has the same elements in both (20_memory.md R61). -/
theorem matRead_congr {m m' : Memory} {base rows cols r c : Nat}
    (h : ∀ x, base ≤ x → x < base + rows * cols → m.read x = m'.read x) (hr : r < rows) (hc : c < cols) :
    matRead m base cols r c = matRead m' base cols r c := by
  have hlt := rowMajor_lt hr hc
  exact h _ (by omega) (by omega)

theorem augmented_congr {a b : Nat → Nat → Byte} {n : Nat} (h : ∀ r < n, ∀ c < n, a r c = b r c) :
    augmented a n = augmented b n := by
  refine List.map_congr_left fun r hr => congrArg (· ++ _) (List.map_congr_left fun c hc => ?_)
  exact h r (List.mem_range.1 hr) c (List.mem_range.1 hc)

/-- GaussJordan reads the elements of its n×n matrix alone (41_matrix.md R127). -/
theorem gaussJordan_congr {a b : Nat → Nat → Byte} {n : Nat} (h : ∀ r < n, ∀ c < n, a r c = b r c) :
    gaussJordan a n = gaussJordan b n := by
  simp only [gaussJordan, augmented_congr h]

/-- INVM reads its source matrix (41_matrix.md R129). -/
theorem runInvm_congr {s : State} {m : Memory}
    (h : memAgree (footprintOf .invm s.params.memSize s.mem s.snap.args).inReadSet s.mem m) :
    runInvm { s with mem := m } = runInvm s := by
  simp only [runInvm]
  split
  · rfl
  · next hn =>
    obtain ⟨-, hle⟩ := not_or.1 hn
    split
    · next hregions =>
      obtain ⟨hsrc, -⟩ := Bool.and_eq_true_iff.1 hregions
      rw [footprintOf, footprintInvm_eq (not_lt.1 hle)] at h
      have hsource := read_eq_of_regionIfIn (memAgree_inReadSet.1 h).2 hsrc
      rw [gaussJordan_congr fun r hr c hc => (matRead_congr hsource hr hc).symm]
    · rfl

/-- TBLS reads rows K .. K+P-1 of its matrix (42_coding.md R141). -/
theorem tableWrites_congr {m m' : Memory} {k p mat : Nat}
    (h : ∀ x, mat + k * k ≤ x → x < mat + k * k + p * k → m.read x = m'.read x) (tbl : Nat) :
    tableWrites m k p mat tbl = tableWrites m' k p mat tbl := by
  refine List.flatMap_congr fun j hj => List.flatMap_congr fun i hi => congrArg (entryWrites _) ?_
  have hlt := rowMajor_lt (List.mem_range.1 hj) (List.mem_range.1 hi)
  have hrow : (k + j) * k = k * k + j * k := Nat.add_mul k j k
  exact h _ (by omega) (by omega)

theorem runTbls_congr {s : State} {m : Memory}
    (h : memAgree (footprintOf .tbls s.params.memSize s.mem s.snap.args).inReadSet s.mem m) :
    runTbls { s with mem := m } = runTbls s := by
  simp only [runTbls]
  split
  · next hchecks =>
    simp only [Bool.and_eq_true, validKP_iff] at hchecks
    obtain ⟨⟨⟨-, hkp⟩, hmat⟩, -⟩ := hchecks
    rw [footprintOf, footprintTbls_eq hkp] at h
    rw [tableWrites_congr (read_eq_of_regionIfIn (memAgree_inReadSet.1 h).2 hmat)]
  · rfl

/-! ### Descriptors and the blocks they name -/

theorem descLen_congr {m m' : Memory} {cw n i : Nat}
    (h : ∀ x, cw ≤ x → x < cw + Config.descSize * n → m.read x = m'.read x) (hi : i < n) :
    descLen m cw i = descLen m' cw i := by
  refine memRead_congr fun x hle hlt => h x ?_ ?_ <;> simp only [Config.descSize] at * <;> omega

/-- CheckDescriptors reads the descriptor table alone (42_coding.md R144). -/
theorem descriptorsOk_congr {memSize cw n : Nat} {m m' : Memory}
    (h : memAgree (regionsContain (regionIfIn memSize cw (Config.descSize * n))) m m') (len : Nat) :
    descriptorsOk memSize m cw n len = descriptorsOk memSize m' cw n len := by
  rw [Bool.eq_iff_iff, descriptorsOk, descriptorsOk, Bool.and_eq_true, Bool.and_eq_true, List.all_eq_true,
    List.all_eq_true]
  refine and_congr_right fun hin => forall₂_congr fun i hi => ?_
  have htable := read_eq_of_regionIfIn h hin
  rw [descLen_congr htable (List.mem_range.1 hi), descAddr_congr htable (List.mem_range.1 hi)]

/-- Memories that agree on the descriptor table and on the blocks of the listed indices hold the same blocks
(20_memory.md R63). -/
theorem blockByte_congr {memSize cw n len : Nat} {m m' : Memory} {is : List Nat}
    (htable : memAgree (regionsContain (regionIfIn memSize cw (Config.descSize * n))) m m')
    (hblocks : memAgree (regionsContain (blockRegions memSize m cw n len is)) m m')
    (hok : descriptorsOk memSize m cw n len = true) {i o : Nat} (hi : i ∈ is) (hn : i < n) (ho : o < len) :
    m.read (descAddr m cw i + o) = m'.read (descAddr m' cw i + o) := by
  have hin : inRange memSize cw (Config.descSize * n) = true := (Bool.and_eq_true_iff.1 hok).1
  rw [← descAddr_congr (read_eq_of_regionIfIn htable hin) hn]
  exact hblocks _ ((regionsContain_blockRegions hin _).2
    ⟨i, hi, hn, inRange_of_descriptorsOk hok hn, Nat.le_add_right _ _, Nat.add_lt_add_left ho _⟩)

theorem blockWrites_congr {base len : Nat} {f g : Nat → Byte} (h : ∀ o < len, f o = g o) :
    blockWrites base len f = blockWrites base len g :=
  List.map_congr_left fun o ho => congrArg (base + o, ·) (h o (List.mem_range.1 ho))

/-! ### ENC and DEC -/

/-- A lookup reads the 32 bytes of its entry (42_coding.md R142). -/
theorem tableLookup_congr {m m' : Memory} {tbl e : Nat}
    (h : ∀ x, entryAddr tbl e ≤ x → x < entryAddr tbl e + 32 → m.read x = m'.read x) (d : Byte) :
    tableLookup m tbl e d = tableLookup m' tbl e d := by
  have hlow : (d.extractLsb' 0 4).toNat < 16 := BitVec.isLt _
  have hhigh : (d.extractLsb' 4 4).toNat < 16 := BitVec.isLt _
  rw [tableLookup, tableLookup, h _ (by omega) (by omega), h _ (by omega) (by omega)]

/-- ENC computes a byte from its table set and the data blocks (42_coding.md R145). -/
theorem encodeByte_congr {m m' : Memory} {k p tbl cw j o : Nat}
    (htables : ∀ x, tbl ≤ x → x < tbl + Config.tblEntry * k * p → m.read x = m'.read x)
    (hdata : ∀ i < k, m.read (descAddr m cw i + o) = m'.read (descAddr m' cw i + o)) (hj : j < p) :
    encodeByte m k tbl cw j o = encodeByte m' k tbl cw j o := by
  refine xorSum_congr fun i hi => ?_
  rw [hdata i hi]
  have hentry := rowMajor_lt hj hi
  have hsize : Config.tblEntry * k * p = 32 * (p * k) := by ring
  refine tableLookup_congr (fun x hle hlt => htables x ?_ ?_) _ <;>
    simp only [entryAddr, Config.tblEntry] at hle hlt hsize ⊢ <;> omega

/-- ENC reads the descriptor table, its table set and the data blocks (42_coding.md R145). -/
theorem runEnc_congr {s : State} {m : Memory}
    (h : memAgree (footprintOf .enc s.params.memSize s.mem s.snap.args).inReadSet s.mem m) :
    runEnc { s with mem := m } = runEnc s := by
  by_cases hvalid : validKP (argNat s.snap.args 1) (argNat s.snap.args 2) = true
  · rw [footprintOf, footprintEnc_eq _ (validKP_iff.1 hvalid).2] at h
    obtain ⟨htable, hread⟩ := memAgree_inReadSet.1 h
    obtain ⟨htables, hdata⟩ := memAgree_append.1 hread
    simp only [runEnc, ← descriptorsOk_congr htable]
    split
    · next hchecks =>
      simp only [Bool.and_eq_true] at hchecks
      obtain ⟨⟨-, htablesIn⟩, hdescs⟩ := hchecks
      have hdescTable := read_eq_of_regionIfIn htable (Bool.and_eq_true_iff.1 hdescs).1
      refine congrArg Effect.wrote (List.flatMap_congr fun j hj => ?_)
      have hj := List.mem_range.1 hj
      rw [descAddr_congr hdescTable (Nat.add_lt_add_left hj _)]
      refine blockWrites_congr fun o ho => (encodeByte_congr ?_ (fun i hi => ?_) hj).symm
      · exact read_eq_of_regionIfIn htables htablesIn
      · exact blockByte_congr htable hdata hdescs (List.mem_range.2 hi) (by omega) ho
    · rfl
  · rw [Bool.not_eq_true] at hvalid
    simp only [runEnc, hvalid, Bool.false_and, Bool.false_eq_true, if_false]

/-- DEC computes a byte from the matrix rows below n and the survivors' blocks (42_coding.md R151, R152). -/
theorem decodeByte_congr {m m' : Memory} {mat k n cw e o : Nat} {surv : List Nat} {inv : Rows}
    (hmat : ∀ x, mat ≤ x → x < mat + n * k → m.read x = m'.read x)
    (hkept : ∀ c < k, m.read (descAddr m cw (surv.getD c 0) + o) = m'.read (descAddr m' cw (surv.getD c 0) + o))
    (he : e < n) : decodeByte m mat k cw surv inv e o = decodeByte m' mat k cw surv inv e o := by
  refine xorSum_congr fun c hc => ?_
  have hrow : decodeRow m mat k inv e c = decodeRow m' mat k inv e c := by
    unfold decodeRow
    split
    · rfl
    · exact xorSum_congr fun t ht => by rw [matRead_congr hmat he ht]
  rw [hrow, hkept c hc]

/-- DEC inverts the survivors' rows of its matrix (42_coding.md R150). -/
theorem gaussJordan_submatrix_congr {m m' : Memory} {mat k p : Nat} {es : List Nat}
    (hmat : ∀ x, mat ≤ x → x < mat + (k + p) * k → m.read x = m'.read x) (hcount : es.length ≤ p) :
    gaussJordan (submatrix m mat k (survivors (k + p) k es)) k =
      gaussJordan (submatrix m' mat k (survivors (k + p) k es)) k :=
  gaussJordan_congr fun _ hr _ hc => matRead_congr hmat (getD_survivors hcount hr).1 hc

/-- DEC writes the decoded bytes of the erased blocks, from the matrix and the survivors' blocks (42_coding.md R152). -/
theorem decodeWrites_congr {memSize len k p mat cw : Nat} {m m' : Memory} {es : List Nat} (inv : Rows)
    (hmat : ∀ x, mat ≤ x → x < mat + (k + p) * k → m.read x = m'.read x)
    (htable : memAgree (regionsContain (regionIfIn memSize cw (Config.descSize * (k + p)))) m m')
    (hkept : memAgree (regionsContain (blockRegions memSize m cw (k + p) len (survivors (k + p) k es))) m m')
    (hdescs : descriptorsOk memSize m cw (k + p) len = true) (hes : erasuresOk (k + p) es = true)
    (hcount : es.length ≤ p) :
    decodeWrites m len mat k cw (survivors (k + p) k es) inv es =
      decodeWrites m' len mat k cw (survivors (k + p) k es) inv es := by
  have hdescTable := read_eq_of_regionIfIn htable (Bool.and_eq_true_iff.1 hdescs).1
  have hlength : (survivors (k + p) k es).length = k := length_survivors (by omega)
  refine List.flatMap_congr fun e he => ?_
  have he := lt_of_erasuresOk hes he
  rw [descAddr_congr hdescTable he]
  refine blockWrites_congr fun o ho => decodeByte_congr hmat (fun c hc => ?_) he
  have hmem : (survivors (k + p) k es).getD c 0 ∈ survivors (k + p) k es := by
    rw [List.getD_eq_getElem _ _ (hlength.symm ▸ hc)]
    exact List.getElem_mem _
  exact blockByte_congr htable hkept hdescs hmem (lt_of_mem_survivors hmem) ho

/-- DEC reads the erasure list, the descriptor table, the matrix and the survivors' blocks (42_coding.md R148 to
R152). -/
theorem runDec_congr {s : State} {m : Memory}
    (h : memAgree (footprintOf .dec s.params.memSize s.mem s.snap.args).inReadSet s.mem m) :
    runDec { s with mem := m } = runDec s := by
  simp only [runDec]
  split
  · rfl
  next hvalid =>
  split
  · rfl
  next hcount =>
  by_cases heras : inRange s.params.memSize (argNat s.snap.args 5) (argNat s.snap.args 6) = true
  · rw [Bool.not_eq_true, Bool.not_eq_false', validKP_iff] at hvalid
    rw [footprintOf, footprintDec_eq hvalid.2 heras] at h
    obtain ⟨hctrl, hread⟩ := memAgree_inReadSet.1 h
    obtain ⟨htable, hlist⟩ := memAgree_append.1 hctrl
    obtain ⟨hmat, hkept⟩ := memAgree_append.1 hread
    rw [← erasureList_congr (read_eq_of_regionIfIn hlist heras), ← descriptorsOk_congr htable]
    split
    · next hchecks =>
      simp only [Bool.and_eq_true] at hchecks
      obtain ⟨⟨⟨hmatIn, -⟩, hes⟩, hdescs⟩ := hchecks
      have hmatrix := read_eq_of_regionIfIn hmat hmatIn
      have hlength := (erasureList_length s.mem (argNat s.snap.args 5) _).trans_le (not_lt.1 hcount)
      simp only [gaussJordan_submatrix_congr hmatrix hlength,
        decodeWrites_congr _ hmatrix htable hkept hdescs hes hlength]
    · rfl
  · rw [Bool.not_eq_true] at heras
    simp only [heras, Bool.and_false, Bool.false_and, Bool.false_eq_true, if_false]

/-- Exec reads of MEM the read set of the command alone (20_memory.md R60). -/
theorem runOf_congr {i : Instr} {s : State} {m : Memory}
    (h : memAgree (footprintOf i s.params.memSize s.mem s.snap.args).inReadSet s.mem m) :
    runOf i { s with mem := m } = runOf i s := by
  cases i with
  | gfmul => rfl
  | gfdiv => rfl
  | gfinv => rfl
  | genm _ => rfl
  | invm => exact runInvm_congr h
  | tbls => exact runTbls_congr h
  | enc => exact runEnc_congr h
  | dec => exact runDec_congr h

/-- Exec rests on the parameters, the operands in SNAP and MEM alone (10_state.md R30, R32). -/
theorem runOf_eq_of_operands (i : Instr) {s t : State} (hparams : s.params = t.params)
    (hargs : s.snap.args = t.snap.args) : runOf i t = runOf i { s with mem := t.mem } := by
  have hoperand : ∀ j, t.operand j = ({ s with mem := t.mem } : State).operand j := fun j => by
    simp only [State.operand, hargs]
  cases i <;>
    simp only [runOf, runGfmul, runGfdiv, runGfinv, runGenm, runInvm, runTbls, runEnc, runDec, State.isFieldOperand,
      State.fieldOperand, hoperand, hparams, hargs]

/-- Settles O39: put the second MEM under the first state; each command then reads the bytes the two share. -/
theorem resultDependsOnTheReadSetAlone : Obligations.ResultDependsOnTheReadSetAlone := by
  rintro i s t ⟨hparams, hargs, hmem⟩
  rw [runOf_eq_of_operands i hparams hargs, runOf_congr hmem]

end Sys2Proof.Machine

namespace Sys2Proof.Machine

/-! ### What a step of the HOST does to the unit's registers -/

/-- The address of an accepted access is that of its offset, and the access is 32 bits wide (10_state.md R20, R21). -/
theorem of_registerOffset_eq_ok {regBase width addr off : Nat} (h : registerOffset regBase width addr = .ok off) :
    width = 32 ∧ addr = regBase + off := by
  unfold registerOffset at h
  split at h
  · next hblock =>
    split at h
    · next hword =>
      cases h
      exact ⟨hword.1, (Nat.add_sub_of_le hblock.1).symm⟩
    · cases h
  · cases h

/-- The operation writes v at an offset of the register block: by a register's name or by its bus address
(10_state.md R20). -/
def WritesRegister (op : HostOp) (regBase off : Nat) (v : Word) : Prop :=
  (∃ r : Reg, r.offset = off ∧ op = .wr r v) ∨ op = .busWr 32 (regBase + off) v

/-- t has the unit's registers of s: beside the HOST's own fields only MEM, TAINT and the count of the draws may
differ. -/
def RegistersKept (s t : State) : Prop :=
  ∃ m taint draws, HostOnly { s with mem := m, taint := taint, draws := draws } t

theorem RegistersKept.of_hostOnly {s t : State} (h : HostOnly s t) : RegistersKept s t := ⟨s.mem, s.taint, s.draws, h⟩

theorem RegistersKept.cmderr {s t : State} (h : RegistersKept s t) : t.cmderr = s.cmderr := by
  obtain ⟨_, _, _, _, _, _, _, _, rfl⟩ := h
  rfl

theorem registersKept_hostLoad {addr count : Nat} {s t : State} (h : hostLoad addr count s = .next t) :
    RegistersKept s t := by
  unfold hostLoad at h
  split at h
  · split at h
    · cases h
      have hhost := (hostOnly_record (.byte (loadByte (addr + s.hbytes) s).1) (loadByte (addr + s.hbytes) s).2).trans
        (hostOnly_advanceByte count _)
      rcases loadByte_cases (addr + s.hbytes) s with hl | hl
      · rw [hl] at hhost ⊢
        exact .of_hostOnly hhost
      · rw [hl] at hhost ⊢
        exact ⟨s.mem, s.taint, s.draws + 1, hhost⟩
    · cases h
  · cases h
    exact .of_hostOnly (hostOnly_advanceHost s)

theorem registersKept_hostStore {addr : Nat} {bytes : List Byte} {s t : State}
    (h : hostStore addr bytes s = .next t) : RegistersKept s t := by
  rcases hostStore_cases h with ⟨-, rfl⟩ | ⟨b, u, -, hu, rfl⟩
  · exact .of_hostOnly (hostOnly_advanceHost s)
  · obtain ⟨-, rfl⟩ := storeByte_cases hu
    exact ⟨_, _, s.draws, hostOnly_advanceByte _ _⟩

/-- A host operation writes one register, or it leaves the unit's registers (30_encoding.md R93). -/
theorem hostOpStep_cases {op : HostOp} {s t : State} (h : hostOpStep op s = .next t) :
    (∃ off v, WritesRegister op s.params.regBase off v ∧ t = advanceHost (writeReg off v s)) ∨ RegistersKept s t := by
  cases op with
  | wr r v =>
    rw [hostOpStep_wr] at h
    cases h
    exact .inl ⟨r.offset, v, .inl ⟨r, rfl, rfl⟩, rfl⟩
  | busWr width addr v =>
    obtain ⟨off, hoff, rfl⟩ := hostWrite_cases h
    obtain ⟨rfl, rfl⟩ := of_registerOffset_eq_ok hoff
    exact .inl ⟨off, v, .inr rfl, rfl⟩
  | rd r =>
    rw [hostOpStep_rd] at h
    cases h
    exact .inr (.of_hostOnly (((hostOnly_last _ _).trans (hostOnly_record _ _)).trans (hostOnly_advanceHost _)))
  | busRd width addr =>
    obtain ⟨off, -, rfl⟩ := hostRead_cases h
    exact .inr (.of_hostOnly (((hostOnly_last _ _).trans (hostOnly_record _ _)).trans (hostOnly_advanceHost _)))
  | mw addr bytes => exact .inr (registersKept_hostStore h)
  | mr addr count => exact .inr (registersKept_hostLoad h)
  | bbusy label =>
    cases h
    unfold hostBranch
    split
    · exact .inr (.of_hostOnly ⟨label, 0, s.last, s.trace, s.halted, rfl⟩)
    · exact .inr (.of_hostOnly (hostOnly_advanceHost s))
  | halt =>
    cases h
    exact .inr (.of_hostOnly ⟨s.hpc, s.hbytes, s.last, s.trace, true, rfl⟩)

/-- A step of the HOST is the register write of the operation at hpc, or it leaves the unit's registers. -/
theorem hostStep_cases {s t : State} (h : hostStep s = .next t) :
    (∃ op off v, s.prog[s.hpc]? = some op ∧ WritesRegister op s.params.regBase off v ∧
      t = advanceHost (writeReg off v s)) ∨ RegistersKept s t := by
  unfold hostStep at h
  split at h
  · cases h
    exact .inr (.of_hostOnly (.refl s))
  · split at h
    · cases h
      exact .inr (.of_hostOnly (.refl s))
    · next op hop =>
      rcases hostOpStep_cases h with ⟨off, v, hwrites, ht⟩ | hkept
      · exact .inl ⟨op, off, v, hop, hwrites, ht⟩
      · exact .inr hkept

/-! ### CMDERR (60_exceptions.md R175) -/

/-- A register write clears CMDERR only by a 1 to STATUS bit 2 or to CTRL.SRST (10_state.md R23, R24). -/
theorem writeReg_cmderr (off : Nat) (v : Word) {s : State} (h : s.cmderr = true) :
    (writeReg off v s).cmderr = true ∨ (off = 0x08 ∧ v.getLsbD 2 = true) ∨ (off = 0x04 ∧ v.getLsbD 1 = true) := by
  rcases writeReg_cases off v s with ⟨i, hw⟩ | ⟨hoff, hw⟩ | ⟨hoff, hw⟩ | ⟨-, hw⟩ | hw <;> rw [hw]
  · exact .inl h
  · cases hv : v.getLsbD 1 with
    | true => exact .inr (.inr ⟨hoff, rfl⟩)
    | false => rw [writeCtrl_enable hv]; exact .inl h
  · cases hv : v.getLsbD 2 with
    | true => exact .inr (.inl ⟨hoff, rfl⟩)
    | false => exact .inl (by rw [writeStatus_cmderr, h, hv]; rfl)
  · unfold writeCmd
    split
    · exact .inl rfl
    · exact .inl h
  · exact .inl h

theorem unitStep_cmderr {s t : State} (h : unitStep s = .next t) : t.cmderr = s.cmderr := by
  rcases unitStep_cases s with ⟨-, hu⟩ | ⟨i, -, -, hu⟩ | ⟨why, -, -, hu⟩ <;> rw [hu] at h <;> cases h
  · rfl
  · exact complete_cmderr _ _ _
  · exact complete_cmderr _ _ _

/-- No two registers share an offset (10_state.md R20). -/
theorem regOffset_injective : Function.Injective Reg.offset := by
  intro r q h
  cases r with
  | arg i =>
    cases q with
    | arg j => exact congrArg Reg.arg (Fin.ext (by simp only [Reg.offset] at h; omega))
    | _ => simp only [Reg.offset] at h; omega
  | _ =>
    cases q with
    | arg j => simp only [Reg.offset] at h; omega
    | _ => revert h; decide

/-- Settles O7: only a reset and a HOST's register write can clear CMDERR, and the write is to STATUS or CTRL. -/
theorem cmderrIsSticky : Obligations.CmderrIsSticky := by
  intro s t hstep hcmderr
  rcases step_cases hstep with ⟨hturn, hs⟩ | ⟨-, hs⟩ | ⟨hturn, -⟩ | ⟨a, b, -, hs⟩
  · rcases hostStep_cases hs with ⟨op, off, v, hop, hwrites, rfl⟩ | hkept
    · rcases writeReg_cmderr off v (s := s.popTurn) hcmderr with hset | ⟨rfl, hv⟩ | ⟨rfl, hv⟩
      · exact .inl hset
      · refine .inr (.inr ⟨hturn, op, hop, ?_⟩)
        rcases hwrites with ⟨r, hr, rfl⟩ | rfl
        · obtain rfl : r = .status := regOffset_injective hr
          exact .inl ⟨v, rfl, hv⟩
        · exact .inr (.inr ⟨_, v, rfl, .inl ⟨rfl, hv⟩⟩)
      · refine .inr (.inr ⟨hturn, op, hop, ?_⟩)
        rcases hwrites with ⟨r, hr, rfl⟩ | rfl
        · obtain rfl : r = .ctrl := regOffset_injective hr
          exact .inr (.inl ⟨v, rfl, hv⟩)
        · exact .inr (.inr ⟨_, v, rfl, .inr ⟨rfl, hv⟩⟩)
    · exact .inl (hkept.cmderr.trans hcmderr)
  · exact .inl ((unitStep_cmderr hs).trans hcmderr)
  · exact .inr (.inl hturn)
  · obtain ⟨-, rfl⟩ := storeByte_cases hs
    exact .inl hcmderr

end Sys2Proof.Machine

namespace Sys2Proof.Machine

/-! ### Completions: RESULT, errors and irq (60_exceptions.md R176, R178, R179) -/

/-- The commands over MEM have no result byte (10_state.md R27). -/
theorem runOf_result_of_not_scalar {i : Instr} (s : State) (h : ¬(i = .gfmul ∨ i = .gfdiv ∨ i = .gfinv)) :
    (runOf i s).result = none := by
  cases i with
  | gfmul => exact absurd (.inl rfl) h
  | gfdiv => exact absurd (.inr (.inl rfl)) h
  | gfinv => exact absurd (.inr (.inr rfl)) h
  | genm mode => simp only [runOf, runGenm]; split <;> rfl
  | invm =>
    simp only [runOf, runInvm]
    repeat' split
    all_goals rfl
  | tbls => simp only [runOf, runTbls]; split <;> rfl
  | enc => simp only [runOf, runEnc]; split <;> rfl
  | dec =>
    simp only [runOf, runDec]
    repeat' split
    all_goals rfl

/-- An error gives no result byte. -/
theorem success_of_runOf_result {i : Instr} {s : State} (h : (runOf i s).result ≠ none) :
    (runOf i s).code = .success := by
  rcases runOf_raisesOrFills i s with ⟨c, -, hraise⟩ | ⟨hsuccess, -⟩
  · exact absurd (congrArg Effect.result hraise) h
  · exact hsuccess

/-- RESULT changes only by a scalar command that succeeds (10_state.md R27). -/
theorem complete_res_ne {i : Instr} {s : State} (h : (complete (codesOf i) (runOf i s) s).res ≠ s.res) :
    (i = .gfmul ∨ i = .gfdiv ∨ i = .gfinv) ∧ (complete (codesOf i) (runOf i s) s).err = .success := by
  rw [complete_res] at h
  split at h
  · next ht =>
    have hresult : (runOf i s).result ≠ none := fun hnone => h (by rw [hnone]; rfl)
    refine ⟨by_contra fun hi => hresult (runOf_result_of_not_scalar s hi), ?_⟩
    exact (complete_err_of_clean ht _ _).trans (success_of_runOf_result hresult)
  · exact absurd rfl h

/-- Settles O35, from the frame of Complete, the codes of Exec and its writes. -/
theorem everyCommandCompletes : Obligations.EveryCommandCompletes := by
  intro i s
  refine ⟨_, exec_eq_complete i s, complete_busy _ _ _, complete_done _ _ _,
    complete_err_mem (runOf_code_mem i s) s, complete_fp _ _ _, complete_taint _ _ _, complete_ie _ _ _,
    complete_args _ _ _, complete_cmdLast _ _ _, complete_snap _ _ _, complete_cmderr _ _ _, complete_params _ _ _,
    complete_prog _ _ _, complete_hpc _ _ _, complete_hbytes _ _ _, complete_last _ _ _, complete_trace _ _ _,
    complete_halted _ _ _, complete_sched _ _ _, complete_res_ne, ?_⟩
  exact fun ht hfp a ha => complete_read_outside_footprint ht hfp ha

/-- Without a race a command that raises an error leaves MEM and RESULT, and draws nothing (60_exceptions.md R176). -/
theorem complete_of_error {i : Instr} {s t : State} (ht : s.taint = .none)
    (hcomplete : complete (codesOf i) (runOf i s) s = t) (herror : t.err ≠ .success) :
    t.mem = s.mem ∧ t.res = s.res ∧ t.draws = s.draws := by
  subst hcomplete
  rw [complete_err_of_clean ht] at herror
  rcases runOf_raisesOrFills i s with ⟨c, -, hraise⟩ | ⟨hsuccess, -⟩
  · rw [complete_eq_completed _ ht fun hs => absurd hs herror, hraise]
    exact ⟨rfl, rfl, rfl⟩
  · exact absurd hsuccess herror

/-- Settles O36: the Complete step of a command that raises an error, and that of an illegal word. -/
theorem errorsWriteNothing : Obligations.ErrorsWriteNothing := by
  refine ⟨fun i s t ht hexec herror => ?_, fun s t ht hb hunit herror => ?_⟩
  · rw [exec_eq_complete] at hexec
    exact complete_of_error ht (Host.Outcome.next.inj hexec) herror
  · rcases unitStep_cases s with ⟨hidle, -⟩ | ⟨i, -, -, hu⟩ | ⟨why, -, hd, -⟩
    · rw [hb] at hidle
      cases hidle
    · exact complete_of_error ht (Host.Outcome.next.inj (hu.symm.trans hunit)) herror
    · cases hunit.symm.trans (unitStep_of_illegal hb hd ht)
      exact ⟨rfl, rfl, rfl⟩

/-- irq is IE after every completion (60_exceptions.md R179). -/
theorem complete_irq (codes : List ErrCode) (e : Effect) (s : State) : (complete codes e s).irq = s.ie := by
  rw [State.irq, complete_done, complete_ie, Bool.and_true]

theorem irq_of_not_done {s : State} (h : s.done = false) : s.irq = false := by
  rw [State.irq, h, Bool.and_false]

theorem writeCtrl_irq {v : Word} (h : v.getLsbD 1 = false) (s : State) :
    (writeCtrl v s).irq = (v.getLsbD 0 && s.done) := by
  rw [writeCtrl_enable h, State.irq]

/-- Settles O8: every completion sets DONE, acceptance and acknowledge clear it, and a CTRL write sets IE alone. -/
theorem interruptLevelFollowsDone : Obligations.InterruptLevelFollowsDone := by
  refine ⟨?command, ?unit, ?accept, ?acknowledge, ?mask, ?enable⟩
  case command => exact fun i s => ⟨_, exec_eq_complete i s, complete_irq _ _ _⟩
  case unit =>
    intro s hb
    rcases unitStep_cases s with ⟨hidle, -⟩ | ⟨i, -, -, hu⟩ | ⟨why, -, -, hu⟩
    · rw [hb] at hidle
      cases hidle
    · exact ⟨_, hu, complete_irq _ _ _⟩
    · exact ⟨_, hu, complete_irq _ _ _⟩
  case accept =>
    intro s w hb
    rw [writeReg_cmd_of_idle hb]
    exact irq_of_not_done rfl
  case acknowledge =>
    intro s v hv
    rw [writeReg_status]
    exact irq_of_not_done (by rw [writeStatus_done, hv, Bool.not_true, Bool.and_false])
  case mask =>
    intro s v hsrst hie
    rw [writeReg_ctrl, writeCtrl_irq hsrst, hie, writeCtrl_enable hsrst]
    exact ⟨Bool.false_and _, rfl⟩
  case enable =>
    intro s v hsrst hie
    rw [writeReg_ctrl, writeCtrl_irq hsrst, hie, Bool.true_and]

end Sys2Proof.Machine

namespace Sys2Proof.Machine

/-! ### Whose turn it is (20_memory.md R68, 70_reset_and_hazards.md R206) -/

theorem step_of_host {s : State} (h : s.turn = .host) : step s = hostStep s.popTurn := by rw [step, h]; rfl

theorem step_of_unit {s : State} (h : s.turn = .unit) : step s = unitStep s.popTurn := by rw [step, h]; rfl

theorem step_of_powerOn {s : State} (h : s.turn = .powerOn) : step s = .next (resetUnit s.popTurn) := by
  rw [step, h]; rfl

/-- Only a turn of the list is another agent's write (log 17). -/
theorem mem_sched_of_turn {s : State} {a : Nat} {b : Byte} (h : s.turn = .platformWrite a b) :
    Turn.platformWrite a b ∈ s.sched := by
  unfold State.turn at h
  split at h
  · split at h <;> cases h
  · next hsched => exact hsched ▸ h ▸ List.mem_cons_self

/-- When the list of turns is used up a busy UNIT moves (log 1). -/
theorem turn_of_busy {s : State} (hb : s.busy = true) (hsched : s.sched = []) : s.turn = .unit := by
  rw [State.turn, hsched]
  exact if_pos hb

/-! ### The UNIT's step (70_reset_and_hazards.md R205, R206) -/

theorem unitStep_of_idle {s : State} (h : s.busy = false) : unitStep s = .next s := by
  simp only [unitStep, h, Bool.false_eq_true, if_false]

theorem unitStep_of_command {s : State} {i : Instr} (hb : s.busy = true) (hd : decode s.snap.cmd = .command i) :
    unitStep s = exec i s := by
  simp only [unitStep, hb, if_true, hd]

/-- The UNIT's step always answers (70_reset_and_hazards.md R206). -/
theorem unitStep_answers (s : State) : ∃ t, unitStep s = .next t := by
  rcases unitStep_cases s with ⟨-, hu⟩ | ⟨i, -, -, hu⟩ | ⟨why, -, -, hu⟩ <;> exact ⟨_, hu⟩

theorem unitStep_done {s t : State} (hb : s.busy = true) (h : unitStep s = .next t) : t.done = true := by
  rcases unitStep_cases s with ⟨hidle, -⟩ | ⟨i, -, -, hu⟩ | ⟨why, -, -, hu⟩
  · simp [hb] at hidle
  · cases hu.symm.trans h
    exact complete_done _ _ _
  · cases hu.symm.trans h
    exact complete_done _ _ _

theorem unitStep_taint_none {s t : State} (h : unitStep s = .next t) (ht : s.taint = .none) : t.taint = .none := by
  rcases unitStep_cases s with ⟨-, hu⟩ | ⟨i, -, -, hu⟩ | ⟨why, -, -, hu⟩ <;> rw [hu] at h <;> cases h
  · exact ht
  · exact complete_taint _ _ _
  · exact complete_taint _ _ _

/-! ### Resets and the launch premises (70_reset_and_hazards.md R201, R216) -/

theorem State.unitReset.unitIdle {s : State} (h : s.unitReset) : s.unitIdle := by
  obtain ⟨-, hbusy, -, -, -, -, -, -, hfp, htaint⟩ := h
  exact ⟨hbusy, hfp, htaint⟩

theorem State.unitReset.noPendingDone {s : State} (h : s.unitReset) : s.noPendingDone := by
  obtain ⟨-, -, hdone, hcmderr, -⟩ := h
  exact ⟨hdone, hcmderr⟩

/-- After a reset the HOST reads 0 from STATUS, CTRL and RESULT, and irq is low (10_state.md R37). -/
theorem State.unitReset.words {s : State} (h : s.unitReset) :
    s.statusWord = 0 ∧ s.ctrlWord = 0 ∧ s.resultWord = 0 ∧ s.irq = false := by
  obtain ⟨hie, hbusy, hdone, hcmderr, herr, -, hres, -⟩ := h
  simp only [State.statusWord, State.ctrlWord, State.resultWord, State.irq, hie, hbusy, hdone, hcmderr, herr, hres]
  decide

theorem resetWith_unitReset (p : Params) : (State.resetWith p).unitReset :=
  resetUnit_unitReset (State.resetWith p)

/-- Settles O1: the step is the reset of the unit, which leaves MEM and the HOST. -/
theorem powerOnResetLeavesAnIdleUnit : Obligations.PowerOnResetLeavesAnIdleUnit := by
  refine ⟨fun s hturn => ?_, fun p =>
    ⟨resetWith_unitReset p, (resetWith_unitReset p).unitIdle, (resetWith_unitReset p).noPendingDone⟩⟩
  have hreset := resetUnit_unitReset s.popTurn
  obtain ⟨hstatus, hctrl, hresult, hirq⟩ := hreset.words
  exact ⟨_, step_of_powerOn hturn, hreset, hstatus, hctrl, hresult, hirq, rfl, rfl, rfl, rfl, rfl, rfl, rfl, rfl,
    writeReg_cmd_of_idle rfl⟩

/-- Settles O53: both are the reset of the unit. -/
theorem resetsEstablishTheLaunchPremises : Obligations.ResetsEstablishTheLaunchPremises := by
  refine ⟨fun s hturn => ?_, fun s v hv => ?_⟩
  · have hreset := resetUnit_unitReset s.popTurn
    exact ⟨_, step_of_powerOn hturn, hreset.unitIdle, hreset.noPendingDone⟩
  · have hreset : (writeReg 0x04 v s).unitReset := by
      rw [writeReg_ctrl, writeCtrl_softReset hv]
      exact resetUnit_unitReset _
    exact ⟨hreset.unitIdle, hreset.noPendingDone⟩

/-- The reset state meets the invariant whenever the spec allows its MEM_SIZE (20_memory.md R50). -/
theorem resetWith_inv {p : Params} (hlo : 1 ≤ p.memSize) (hhi : p.memSize ≤ 2 ^ 32) : (State.resetWith p).Inv where
  memSize := ⟨hlo, hhi⟩
  memWf := rfl
  memWithin := rfl
  idle _ := ⟨rfl, rfl⟩
  inFlight := nofun
  cmdLast := nofun
  fpInMem := ⟨rfl, rfl, rfl⟩
  noMem := nofun

/-- Settles O49: nothing is in flight after reset, and MEM lists no byte. -/
theorem invariantHoldsAtReset : Obligations.InvariantHoldsAtReset :=
  ⟨resetWith_inv (by decide) (by decide), .of_idle rfl, fun _ hlo hhi => ⟨resetWith_inv hlo hhi, .of_idle rfl⟩⟩

/-! ### Acceptance and the UNIT's turn (70_reset_and_hazards.md R204 to R206, R214) -/

/-- A CMD write while BUSY = 1 is dropped and sets CMDERR (60_exceptions.md R175). -/
theorem writeReg_cmd_of_busy {s : State} (h : s.busy = true) (w : Word) :
    writeReg 0x0C w s = { s with cmderr := true } := by
  have hcmd : writeReg 0x0C w s = writeCmd w s := rfl
  rw [hcmd, writeCmd, if_pos h]

/-- Settles O6, from the two rules of a CMD write. -/
theorem cmdWriteAcceptsOrSetsCmderr : Obligations.CmdWriteAcceptsOrSetsCmderr :=
  fun _ w => ⟨fun hidle => writeReg_cmd_of_idle hidle w, fun hbusy => writeReg_cmd_of_busy hbusy w, rfl⟩

/-- Settles O45: the UNIT's turn is its Complete step, that of the decoded command. -/
theorem stepRunsTheDecodedCommand : Obligations.StepRunsTheDecodedCommand := by
  intro s i hturn hb hd _
  rw [step_of_unit hturn]
  exact unitStep_of_command (s := s.popTurn) hb hd

/-- Settles O46: the turn is the UNIT's either way, and its step retires the command. -/
theorem aBusyUnitCompletesOnItsTurn : Obligations.ABusyUnitCompletesOnItsTurn := by
  intro s hb hturn
  have hunit : s.turn = .unit := hturn.elim id (turn_of_busy hb)
  obtain ⟨t, ht⟩ := unitStep_answers s.popTurn
  exact ⟨t, (step_of_unit hunit).trans ht, unitStep_busy ht, unitStep_done (s := s.popTurn) hb ht⟩

/-- Settles O48: a halted HOST and an idle UNIT do nothing. -/
theorem anEndedRunStaysEnded : Obligations.AnEndedRunStaysEnded := by
  rintro s hhalted hidle (hturn | hturn)
  · rw [step_of_host hturn]
    exact if_pos hhalted
  · rw [step_of_unit hturn]
    exact unitStep_of_idle (s := s.popTurn) hidle

end Sys2Proof.Machine

namespace Sys2Proof.Machine

/-! ### TAINT, CMDERR and the HOST's steps (20_memory.md R69, 70_reset_and_hazards.md R209) -/

/-- A HOST that issues no operation leaves the state; else its step is that of the operation at hpc (log 12). -/
theorem hostStep_fetch_cases {s t : State} (h : hostStep s = .next t) :
    t = s ∨ ∃ op, s.prog[s.hpc]? = some op ∧ hostOpStep op s = .next t := by
  unfold hostStep at h
  split at h
  · cases h
    exact .inl rfl
  · split at h
    · cases h
      exact .inl rfl
    · next op hop => exact .inr ⟨op, hop, h⟩

theorem HostOnly.taint {s t : State} (h : HostOnly s t) : t.taint = s.taint := by
  obtain ⟨_, _, _, _, _, rfl⟩ := h
  rfl

/-- A register write does not taint a command: acceptance and the resets set TAINT to NONE, the others keep it. -/
theorem writeReg_taint_none (off : Nat) (v : Word) {s : State} (h : s.taint = .none) :
    (writeReg off v s).taint = .none := by
  rcases writeReg_cases off v s with ⟨i, hw⟩ | ⟨-, hw⟩ | ⟨-, hw⟩ | ⟨-, hw⟩ | hw <;> rw [hw]
  · exact h
  · unfold writeCtrl
    split
    · rfl
    · exact h
  · exact h
  · unfold writeCmd
    split
    · exact h
    · rfl
  · exact h

theorem hostLoad_taint {addr count : Nat} {s t : State} (h : hostLoad addr count s = .next t) : t.taint = s.taint := by
  unfold hostLoad at h
  split at h
  · split at h
    · cases h
      have hhost := (hostOnly_record (.byte (loadByte (addr + s.hbytes) s).1) (loadByte (addr + s.hbytes) s).2).trans
        (hostOnly_advanceByte count _)
      rcases loadByte_cases (addr + s.hbytes) s with hl | hl <;> rw [hhost.taint, hl]
    · cases h
  · cases h
    rfl

/-- A byte stored off the footprint of the command in flight does not race (20_memory.md R69). -/
theorem storeByte_taint {s t : State} {a : Nat} {b : Byte} (hoff : s.offFootprint a = true)
    (h : storeByte a b s = .next t) : t.taint = s.taint := by
  obtain ⟨-, rfl⟩ := storeByte_cases h
  cases hb : s.busy with
  | false => rfl
  | true =>
    simp only [State.offFootprint, hb, Bool.not_true, Bool.false_or, Bool.and_eq_true, Bool.not_eq_true'] at hoff
    obtain ⟨hread, hwrite⟩ := hoff
    exact raceTaint_outside hread hwrite _

/-- A HOST that keeps off the footprint leaves TAINT at NONE (70_reset_and_hazards.md R209). -/
theorem hostStep_taint_none {s t : State} (hoff : s.hostOffFootprint = true) (h : hostStep s = .next t)
    (ht : s.taint = .none) : t.taint = .none := by
  rcases hostStep_fetch_cases h with rfl | ⟨op, hop, h⟩
  · exact ht
  cases op with
  | wr r v =>
    obtain ⟨off, -, rfl⟩ := hostWrite_cases h
    exact writeReg_taint_none off v ht
  | busWr width addr v =>
    obtain ⟨off, -, rfl⟩ := hostWrite_cases h
    exact writeReg_taint_none off v ht
  | rd r =>
    obtain ⟨off, -, rfl⟩ := hostRead_cases h
    exact ht
  | busRd width addr =>
    obtain ⟨off, -, rfl⟩ := hostRead_cases h
    exact ht
  | mr addr count => exact (hostLoad_taint h).trans ht
  | mw addr bytes =>
    simp only [State.hostOffFootprint, hop] at hoff
    rcases hostStore_cases h with ⟨-, rfl⟩ | ⟨b, u, -, hu, rfl⟩
    · exact ht
    · rw [(hostOnly_advanceByte _ u).taint, storeByte_taint hoff hu, ht]
  | bbusy label =>
    cases h
    unfold hostBranch
    split <;> exact ht
  | halt =>
    cases h
    exact ht

/-- While BUSY = 0, or at another offset than CMD's, a register write does not set CMDERR (60_exceptions.md R175). -/
theorem writeReg_cmderr_clear {off : Nat} {v : Word} {s : State} (hwaits : off = 0x0C → s.busy = false)
    (h : s.cmderr = false) : (writeReg off v s).cmderr = false := by
  rcases writeReg_cases off v s with ⟨i, hw⟩ | ⟨-, hw⟩ | ⟨-, hw⟩ | ⟨hoff, -⟩ | hw
  · rw [hw]
    exact h
  · rw [hw]
    unfold writeCtrl
    split
    · rfl
    · exact h
  · rw [hw, writeStatus_cmderr, h, Bool.false_and]
  · rw [hoff, writeReg_cmd_of_idle (hwaits hoff)]
    exact h
  · rw [hw]
    exact h

/-- An operation writes a register by its name or by its bus address, and no other name has that offset. -/
theorem writesRegister_iff {op : HostOp} {regBase : Nat} {r : Reg} {v : Word} :
    WritesRegister op regBase r.offset v ↔ op = .wr r v ∨ op = .busWr 32 (regBase + r.offset) v := by
  refine or_congr_left ⟨?_, fun h => ⟨r, rfl, h⟩⟩
  rintro ⟨q, hq, rfl⟩
  rw [regOffset_injective hq]

/-- A HOST that waits writes no CMD during BUSY, by name or by bus address (70_reset_and_hazards.md R208). -/
theorem not_busy_of_hostWaits {s : State} {op : HostOp} {v : Word} (hwaits : s.hostWaits = true)
    (hop : s.prog[s.hpc]? = some op) (hcmd : WritesRegister op s.params.regBase 0x0C v) : s.busy = false := by
  rcases (writesRegister_iff (r := .cmd)).1 hcmd with rfl | rfl <;>
    simpa [State.hostWaits, hop, Reg.offset] using hwaits

/-- Settles O43: off the footprint no byte races, and a CMD write that waits is accepted. -/
theorem respectfulHostNeverRaces : Obligations.RespectfulHostNeverRaces := by
  intro s t hrespects hstep
  obtain ⟨hwaits, hoff⟩ := s.hostRespects_iff.1 hrespects
  refine ⟨hostStep_taint_none hoff hstep, fun hcmderr => ?_⟩
  rcases hostStep_cases hstep with ⟨op, off, v, hop, hwrites, rfl⟩ | hkept
  · exact writeReg_cmderr_clear (fun hcmd => not_busy_of_hostWaits hwaits hop (hcmd ▸ hwrites)) hcmderr
  · exact hkept.cmderr.trans hcmderr

/-! ### Runs with disjoint footprints (70_reset_and_hazards.md R216) -/

/-- No race so far, and no other agent has a turn to write MEM (log 17). -/
def State.raceFree (s : State) : Prop := s.taint = .none ∧ ∀ a b, Turn.platformWrite a b ∉ s.sched

/-- A step keeps a state race free when a turn of the HOST keeps off the footprint (70_reset_and_hazards.md R209). -/
theorem State.raceFree.step {s t : State} (h : s.raceFree) (hoff : s.turn = .host → s.hostOffFootprint = true)
    (hstep : step s = .next t) : t.raceFree := by
  obtain ⟨htaint, hsched⟩ := h
  obtain ⟨htail, -, -⟩ := step_sched_prog_params hstep
  refine ⟨?_, fun a b hab => hsched a b (List.mem_of_mem_tail (htail ▸ hab))⟩
  rcases step_cases hstep with ⟨hturn, hs⟩ | ⟨-, hs⟩ | ⟨-, rfl⟩ | ⟨a, b, hturn, -⟩
  · exact hostStep_taint_none (s := s.popTurn) (hoff hturn) hs htaint
  · exact unitStep_taint_none hs htaint
  · rfl
  · exact absurd (mem_sched_of_turn hturn) (hsched a b)

theorem runOf_popTurn (i : Instr) (s : State) : runOf i s.popTurn = runOf i s := by
  cases i <;> rfl

/-- The UNIT completes a command without a race and without aliasing exactly (70_reset_and_hazards.md R205). -/
theorem step_of_clean_command {s : State} {i : Instr} (hturn : s.turn = .unit) (hb : s.busy = true)
    (hd : decode s.snap.cmd = .command i) (ht : s.taint = .none) (ha : s.fp.aliases = false) :
    step s = .next (s.popTurn.completed (runOf i s).code (Memory.apply s.mem (runOf i s).writes)
      ((runOf i s).result.getD s.res)) := by
  rw [step_of_unit hturn, unitStep_of_command (s := s.popTurn) hb hd, exec_success (s := s.popTurn) ht ha,
    runOf_popTurn]
  rfl

/-- Settles O54: every step of the run keeps it race free, and a race free command without aliasing completes
exactly. -/
theorem disjointFootprintsMakeEveryCompletionExact : Obligations.DisjointFootprintsMakeEveryCompletionExact := by
  rintro s ⟨-, -, htaint⟩ hdisjoint hsched t hreach
  obtain ⟨htaint, -⟩ : t.raceFree := State.reaches_induction hreach ⟨htaint, hsched⟩ fun u v hu hfree hstep =>
    hfree.step (hdisjoint u hu).2 hstep
  obtain ⟨halias, -⟩ := hdisjoint t hreach
  exact ⟨htaint, fun i hturn hb hd => step_of_clean_command hturn hb hd htaint (halias hb)⟩

end Sys2Proof.Machine

namespace Sys2Proof.Machine

/-! ### Completion under a race (70_reset_and_hazards.md R205) -/

/-- Under DATA Complete draws the bytes of FP.W and leaves every other byte. -/
theorem complete_read_other_of_data {s : State} (ht : s.taint = .data) (codes : List ErrCode) (e : Effect) {a : Nat}
    (ha : s.fp.inWrite a = false) : (complete codes e s).mem.read a = s.mem.read a := by
  have hcomplete : complete codes e s = retire (drawWriteSet (drawErr codes s)) := by rw [complete, ht]
  rw [hcomplete, retire_mem]
  exact drawWriteSet_read_other (drawErr codes s) ha

/-- Settles O41, from the codes of Complete, its RESULT and its draws. -/
theorem racedCommandsCompleteWithinTheirCodes : Obligations.RacedCommandsCompleteWithinTheirCodes := by
  intro i s ht
  refine ⟨_, exec_eq_complete i s, complete_err_mem (runOf_code_mem i s) s, ?_,
    fun hdata a ha => complete_read_other_of_data hdata _ _ ha⟩
  rw [complete_res, if_neg ht]

/-! ### BUSY (70_reset_and_hazards.md R203 to R206) -/

theorem RegistersKept.busy {s t : State} (h : RegistersKept s t) : t.busy = s.busy := by
  obtain ⟨_, _, _, _, _, _, _, _, rfl⟩ := h
  rfl

theorem storeByte_busy {s t : State} {a : Nat} {b : Byte} (h : storeByte a b s = .next t) : t.busy = s.busy := by
  obtain ⟨-, rfl⟩ := storeByte_cases h
  rfl

/-- A register write ends BUSY only as the soft reset (10_state.md R23). -/
theorem writeReg_busy (off : Nat) (v : Word) {s : State} (h : s.busy = true) :
    (writeReg off v s).busy = true ∨ (off = 0x04 ∧ v.getLsbD 1 = true) := by
  rcases writeReg_cases off v s with ⟨i, hw⟩ | ⟨hoff, hw⟩ | ⟨-, hw⟩ | ⟨-, hw⟩ | hw <;> rw [hw]
  · exact .inl h
  · cases hv : v.getLsbD 1 with
    | true => exact .inr ⟨hoff, rfl⟩
    | false => rw [writeCtrl_enable hv]; exact .inl h
  · exact .inl h
  · rw [writeCmd, if_pos h]
    exact .inl h
  · exact .inl h

/-- A register write starts BUSY only as the Accept step (70_reset_and_hazards.md R204). -/
theorem writeReg_eq_accept {off : Nat} {v : Word} {s : State} (hidle : s.busy = false)
    (hbusy : (writeReg off v s).busy = true) : writeReg off v s = accept v s := by
  rcases writeReg_cases off v s with ⟨i, hw⟩ | ⟨-, hw⟩ | ⟨-, hw⟩ | ⟨hoff, -⟩ | hw
  · simp [hw, hidle] at hbusy
  · have hctrl : (writeCtrl v s).busy = false := by
      unfold writeCtrl
      split
      · rfl
      · exact hidle
    simp [hw, hctrl] at hbusy
  · simp [hw, hidle] at hbusy
  · rw [hoff, writeReg_cmd_of_idle hidle]
  · simp [hw, hidle] at hbusy

/-- Settles O47: of the HOST's steps only a register write can end BUSY, and the write is to CTRL. -/
theorem onlyCompletionOrResetEndsBusy : Obligations.OnlyCompletionOrResetEndsBusy := by
  intro s t hstep hb hidle
  rcases step_cases hstep with ⟨hturn, hs⟩ | ⟨hturn, hs⟩ | ⟨hturn, -⟩ | ⟨a, b, -, hs⟩
  · rcases hostStep_cases hs with ⟨op, off, v, hop, hwrites, rfl⟩ | hkept
    · rcases writeReg_busy off v (s := s.popTurn) hb with hbusy | ⟨rfl, hv⟩
      · exact nomatch hbusy.symm.trans hidle
      · refine .inr (.inr ⟨hturn, v, hv, ?_⟩)
        rcases (writesRegister_iff (r := .ctrl)).1 hwrites with rfl | rfl
        · exact .inl hop
        · exact .inr hop
    · exact nomatch hb.symm.trans (hkept.busy.symm.trans hidle)
  · exact .inl ⟨hturn, unitStep_done (s := s.popTurn) hb hs⟩
  · exact .inr (.inl hturn)
  · exact nomatch hb.symm.trans ((storeByte_busy hs).symm.trans hidle)

/-! ### The first command of a run (70_reset_and_hazards.md R216) -/

/-- A step starts BUSY only as the HOST's CMD write, the Accept step (70_reset_and_hazards.md R204). -/
theorem exists_accept_of_step {s t : State} (hstep : step s = .next t) (hidle : s.busy = false)
    (hbusy : t.busy = true) : ∃ w, t = advanceHost (accept w s.popTurn) := by
  rcases step_cases hstep with ⟨-, hs⟩ | ⟨-, hs⟩ | ⟨-, rfl⟩ | ⟨a, b, -, hs⟩
  · rcases hostStep_cases hs with ⟨op, off, v, -, -, rfl⟩ | hkept
    · exact ⟨v, congrArg advanceHost (writeReg_eq_accept hidle hbusy)⟩
    · exact nomatch hbusy.symm.trans (hkept.busy.trans hidle)
  · exact nomatch hbusy.symm.trans (unitStep_busy hs)
  · cases hbusy
  · exact nomatch hbusy.symm.trans ((storeByte_busy hs).trans hidle)

/-- The last step of a run of n + 1 steps. -/
theorem State.after_succ_last {n : Nat} {s t : State} (h : State.after (n + 1) s = some t) :
    ∃ u, State.after n s = some u ∧ step u = .next t := by
  induction n generalizing s with
  | zero =>
    obtain ⟨u, hu, ht⟩ := State.after_succ_eq_some.1 h
    cases ht
    exact ⟨s, rfl, hu⟩
  | succ n ih =>
    obtain ⟨u, hu, ht⟩ := State.after_succ_eq_some.1 h
    obtain ⟨v, hv, hlast⟩ := ih ht
    exact ⟨v, State.after_succ_eq_some.2 ⟨u, hu, hv⟩, hlast⟩

/-- From an idle entry the first command has just been accepted: nothing has touched its footprint yet. -/
theorem State.firstAccepts.fp_eq {s t : State} (h : s.firstAccepts t) (hidle : s.busy = false) :
    t.fp = footprint t.params.memSize t.mem t.snap := by
  obtain ⟨n, hn, hbusy, hbefore⟩ := h
  cases n with
  | zero =>
    cases hn
    simp [hidle] at hbusy
  | succ n =>
    obtain ⟨u, hu, hstep⟩ := State.after_succ_last hn
    obtain ⟨w, rfl⟩ := exists_accept_of_step hstep (hbefore n n.lt_succ_self u hu) hbusy
    rfl

theorem footprint_of_command {snap : Snapshot} {i : Instr} (h : decode snap.cmd = .command i) (memSize : Nat)
    (m : Memory) : footprint memSize m snap = footprintOf i memSize m snap.args := by
  simp only [footprint, h]

/-- Settles O57: the layout names the bytes of the read set, and Exec rests on these alone. -/
theorem memLayoutFixesTheFirstCommand : Obligations.MemLayoutFixesTheFirstCommand := by
  rintro s t named i ⟨hidle, -, -⟩ hlayout hfirst hkept hd m hm
  have hfp : t.fp = footprintOf i t.params.memSize t.mem t.snap.args :=
    (hfirst.fp_eq hidle).trans (footprint_of_command hd _ _)
  refine runOf_congr fun a ha => ?_
  rw [← hfp] at ha
  calc t.mem.read a = s.mem.read a := hkept a ha
    _ = named a := hlayout t i hfirst hd a (.inl ha)
    _ = m.read a := (hm a ha).symm

end Sys2Proof.Machine

namespace Sys2Proof.Machine

/-! ### A HOST turn in a run whose `mw` and `mr` lie in MEM (70_reset_and_hazards.md R216) -/

/-- An operation other than a raw access answers when the bytes of MEM it names are there (20_memory.md R50). -/
theorem hostOpStep_answers {s : State} {op : HostOp} (hmem : hostOpInMem s.params.memSize op = true)
    (hwrite : ∀ width addr v, op ≠ .busWr width addr v) (hread : ∀ width addr, op ≠ .busRd width addr) :
    ∃ t, hostOpStep op s = .next t := by
  cases op with
  | wr r v => exact ⟨_, hostOpStep_wr r v s⟩
  | rd r => exact ⟨_, hostOpStep_rd r s⟩
  | bbusy label => exact ⟨_, rfl⟩
  | halt => exact ⟨_, rfl⟩
  | busWr width addr v => exact absurd rfl (hwrite width addr v)
  | busRd width addr => exact absurd rfl (hread width addr)
  | mw addr bytes =>
    cases hbyte : bytes[s.hbytes]? with
    | none => exact ⟨advanceHost s, by simp only [hostOpStep, hostStore, hbyte]⟩
    | some b =>
      obtain ⟨hlt, -⟩ := List.getElem?_eq_some_iff.1 hbyte
      exact ⟨_, hostOpStep_mw hbyte (lt_of_inRange hmem hlt)⟩
  | mr addr count =>
    by_cases hcount : s.hbytes < count
    · simp only [hostOpStep, hostLoad, if_pos hcount, if_pos (lt_of_inRange hmem hcount)]
      exact ⟨_, rfl⟩
    · exact ⟨advanceHost s, if_neg hcount⟩

/-- A run keeps the program and the parameters of its entry. -/
theorem State.reaches.prog_params {s t : State} (h : s.reaches t) : t.prog = s.prog ∧ t.params = s.params := by
  refine State.reaches_induction (P := fun u => u.prog = s.prog ∧ u.params = s.params) h ⟨rfl, rfl⟩ ?_
  rintro u v - ⟨hprog, hparams⟩ hstep
  obtain ⟨-, hprog', hparams'⟩ := step_sched_prog_params hstep
  exact ⟨hprog'.trans hprog, hparams'.trans hparams⟩

/-- Settles O56: the operation at hpc is one of the program's, whose bytes are in MEM. -/
theorem cleanEntryNeverLeavesMem : Obligations.CleanEntryNeverLeavesMem := by
  intro s named hclean t hreach hturn op hop hwrite hread
  obtain ⟨hprog, hparams⟩ := hreach.prog_params
  obtain ⟨hops, -⟩ := hclean.memSizeOk trivial
  have hmem : hostOpInMem t.params.memSize op = true := hparams ▸ hops op (hprog ▸ List.mem_of_getElem? hop)
  rw [step_of_host hturn]
  cases hhalted : t.halted with
  | true => exact ⟨t.popTurn, if_pos hhalted⟩
  | false =>
    rw [hostStep_of_fetch (s := t.popTurn) hhalted hop]
    exact hostOpStep_answers hmem hwrite hread

/-! ### The checks of a command whose regions are in MEM (60_exceptions.md R171) -/

theorem descriptorsOk_of_inRange {memSize cw n len : Nat} {m : Memory}
    (htable : inRange memSize cw (Config.descSize * n) = true) (hlen : ∀ b < n, descLen m cw b = len)
    (hblocks : ∀ b < n, inRange memSize (descAddr m cw b) len = true) : descriptorsOk memSize m cw n len = true := by
  simp only [descriptorsOk, htable, Bool.true_and, List.all_eq_true, List.mem_range, Bool.and_eq_true, beq_iff_eq]
  exact fun b hb => ⟨hlen b hb, hblocks b hb⟩

/-- INVM past its checks finds the inverse or a singular matrix (41_matrix.md R129). -/
theorem runInvm_code_of_checks {s : State}
    (h : InvmChecks s.params.memSize (argNat s.snap.args 0) (argNat s.snap.args 1) (argNat s.snap.args 2)) :
    (runInvm s).code = .success ∨ (runInvm s).code = .singularSubmatrix := by
  cases hgauss : gaussJordan (matRead s.mem (argNat s.snap.args 1) (argNat s.snap.args 0)) (argNat s.snap.args 0) with
  | none => exact .inr (congrArg Effect.code (runInvm_of_singular rfl rfl rfl h hgauss))
  | some b => exact .inl (congrArg Effect.code (runInvm_of_inverse rfl rfl rfl h hgauss))

/-- DEC past its checks recovers the blocks or finds a singular matrix (42_coding.md R150). -/
theorem runDec_code_of_checks {s : State} {len k p mat cw eras ecount : Nat}
    (hops : DecOperands s len k p mat cw eras ecount) (hk : 1 ≤ k) (hkp : k + p ≤ 256) (hcount : ecount ≤ p)
    (h : DecChecks s.params.memSize s.mem len k p mat cw eras ecount) :
    (runDec s).code = .success ∨ (runDec s).code = .singularSubmatrix := by
  cases hgauss : gaussJordan (submatrix s.mem mat k (survivors (k + p) k (erasureList s.mem eras ecount))) k with
  | none => exact .inr (congrArg Effect.code (runDec_of_singular hops hk hkp hcount h hgauss))
  | some inv => exact .inl (congrArg Effect.code (runDec_of_inverse hops hk hkp hcount h hgauss))

/-- Settles O55: of each command's checks, those of its regions pass by the premise. -/
theorem regionsInMemLeaveOnlyTheOtherChecks : Obligations.RegionsInMemLeaveOnlyTheOtherChecks := by
  intro i s hregions v lengthsOk
  refine ⟨?genm, ?invm, ?tbls, ?enc, ?dec⟩
  case genm =>
    rintro mode rfl hk hkp
    simp only [namedRegions, List.forall_mem_cons] at hregions
    obtain ⟨hmat, -⟩ := hregions
    exact congrArg Effect.code (if_pos (Bool.and_eq_true_iff.2 ⟨validKP_iff.2 ⟨hk, hkp⟩, hmat⟩))
  case invm =>
    rintro rfl hn hmax
    simp only [namedRegions, List.forall_mem_cons] at hregions
    obtain ⟨hsrc, hdst, -⟩ := hregions
    have hsize : 0 < v 0 * v 0 := Nat.mul_pos hn hn
    exact runInvm_code_of_checks ⟨hn, hmax, (inRange_iff_of_pos hsize).1 hsrc, (inRange_iff_of_pos hsize).1 hdst⟩
  case tbls =>
    rintro rfl hk hkp
    simp only [namedRegions, List.forall_mem_cons] at hregions
    obtain ⟨hrows, htables, -⟩ := hregions
    exact congrArg Effect.code (if_pos (Bool.and_eq_true_iff.2
      ⟨Bool.and_eq_true_iff.2 ⟨validKP_iff.2 ⟨hk, hkp⟩, hrows⟩, htables⟩))
  case enc =>
    rintro rfl hk hkp hlengths
    simp only [namedRegions, List.cons_append, List.nil_append, List.forall_mem_cons] at hregions
    obtain ⟨htables, htable, hblocks⟩ := hregions
    have hdescs := descriptorsOk_of_inRange htable hlengths
      fun b hb => hblocks _ (mem_namedBlocks_enc.2 ⟨b, hb, rfl⟩)
    exact congrArg Effect.code (if_pos (Bool.and_eq_true_iff.2
      ⟨Bool.and_eq_true_iff.2 ⟨validKP_iff.2 ⟨hk, hkp⟩, htables⟩, hdescs⟩))
  case dec =>
    rintro rfl hk hkp hcount hlengths hlt hnodup
    simp only [namedRegions, List.cons_append, List.nil_append, List.forall_mem_cons] at hregions
    obtain ⟨hmat, heras, htable, hblocks⟩ := hregions
    have hdescs := descriptorsOk_of_inRange htable hlengths
      fun b hb => hblocks _ (mem_namedBlocks_dec.2 ⟨b, hb, rfl⟩)
    have hn : 0 < v 1 + v 2 := Nat.add_pos_left hk _
    have hsize : 0 < (v 1 + v 2) * v 1 := Nat.mul_pos hn hk
    exact runDec_code_of_checks (decOperands_args s) hk hkp hcount ⟨(inRange_iff_of_pos hsize).1 hmat,
      (inRange_iff _ _ _).1 heras, hlt, hnodup, (descriptorsOk_iff hn).1 hdescs⟩

end Sys2Proof.Machine
